-- ==== Sys2Proof/Word.lean ====
section
/-!
DEFINITION. The word types of CAN-BITCODEC: a buffer cell (R21), the command word and the data operand (R60),
and an `f64` as its 64-bit pattern (R18).
-/

namespace Sys2Proof

/-- One buffer cell, a `u8` (R21). -/
abbrev Byte := BitVec 8

/-- The 32-bit command word `cmd_word` (R60). -/
abbrev CmdWord := BitVec 32

/-- The 64-bit data operand `cmd_data` (R60), and the data word `rsp_data` of a response (R61). -/
abbrev Data := BitVec 64

/-- An IEEE 754 binary64 datum as its bit pattern: sign 63, exponent 62:52, fraction 51:0 (R18). -/
abbrev F64 := BitVec 64

end Sys2Proof
end

