-- ==== Sys2Proof/Config.lean ====
section
/-!
DEFINITION. What an implementation of CAN-BITCODEC fixes (R10), and the one free value of the model (U1, R86).
-/

namespace Sys2Proof.Config

/-- `BUFMAX`, the physical size of `BUF` in bytes (R10, R21). -/
def bufMax : Nat := 64

/-- The number of signal slots `State.reset` gives the block: the spec's default of the open parameter `NSIG`
(R10, D10). Statements about every state hold for every table size, since the table's length is `NSIG`.
DESIGN CHOICE, log entry 4. -/
def nsigDefault : Nat := 64

/-- The greatest `NSIG` the 9-bit `idx` field can name, 512 (R10). -/
def nsigMax : Nat := 512

/-- The command-set version byte of CBC-1.0 in `CAPS` bits 31:24 (R25). -/
def version : BitVec 8 := 0x10#8

/-- The reset value of `BLEN` (R37). -/
def resetBlen : BitVec 7 := 8#7

/-- The greatest identifier `CHKM` accepts (R10, R113). -/
def msgidMax : Nat := 0x7FF

/-- FREE VALUE (R86, U1): `faultedInsertWrites n k` says whether the `n`-th insert that raised `IndexFault` has
written the in-range span byte `k`. It has no body, so nothing can be proved of it but what holds for every draw,
independently for every byte of every faulting insert. Log entry 3. -/
opaque faultedInsertWrites : Nat → Nat → Bool

end Sys2Proof.Config
end

