-- ==== Sys2Proof/Syntax.lean ====
section
/-!
DEFINITION. The fifteen commands of CBC-1.0 (R64) with the operands each takes: the fields of its command word
(R62, R63) and, where it takes one, the data operand presented beside the word (R60, R65).
-/

namespace Sys2Proof

/-- The two bit layouts (R46). The bit `io` or `INTEL` is 1 for Intel and 0 for Motorola (R29, R63). -/
inductive Layout where
  | intel
  | motorola
deriving DecidableEq, Repr

/-- A command with its operands. A command that takes no data operand has none here, since it ignores `cmd_data`
entirely (R60). Every operand value an encoding can carry is a term, legal or not (R69). -/
inductive Instr where
  /-- `SETD start, len, I|M, value` (R81). -/
  | setd (start : BitVec 9) (len : BitVec 7) (io : Layout) (value : Data)
  /-- `GETD start, len, I|M` (R82). -/
  | getd (start : BitVec 9) (len : BitVec 7) (io : Layout)
  /-- `WRB idx, byte` (R120). The whole data operand is kept: its upper bits are tested. -/
  | wrb (idx : BitVec 9) (data : Data)
  /-- `RDB idx` (R121). -/
  | rdb (idx : BitVec 9)
  /-- `WRCR cr, value` (R122). -/
  | wrcr (cr : BitVec 9) (value : Data)
  /-- `RDCR cr` (R123). -/
  | rdcr (cr : BitVec 9)
  /-- `SIGDEF s, start, len, I|M, +|-`: the geometry word of R65 is the data operand (R95). -/
  | sigdef (slot : BitVec 9) (geom : Data)
  /-- `SIGWR s, FIELD, value` (R96). -/
  | sigwr (fld : BitVec 4) (slot : BitVec 9) (value : Data)
  /-- `SIGRD s, FIELD` (R97). -/
  | sigrd (fld : BitVec 4) (slot : BitVec 9)
  /-- `SETV s, raw` (R98). -/
  | setv (slot : BitVec 9) (raw : Data)
  /-- `SETP s, phys` (R99). -/
  | setp (slot : BitVec 9) (phys : F64)
  /-- `UPDS` (R111). -/
  | upds
  /-- `UPDR` (R112). -/
  | updr
  /-- `CHKM check_data` (R113). -/
  | chkm (checkData : Bool)
  /-- `RSTD` (R114). -/
  | rstd
deriving DecidableEq, Repr

end Sys2Proof
end

