-- ==== Sys2Proof/Machine/State.lean ====
section
/-!
DEFINITION. The state of the block as plain data (R20), the reasons a step can stop, the result of a command's
pseudocode, and the state after reset (R37).
-/

namespace Sys2Proof.Machine

/-- The eight fault causes (R131); their codes are `Cause.code` in `Machine/Flags.lean`. All are reported in the
response of the faulting command and none stops the block (R138). -/
inductive Cause where
  /-- A buffer byte index at or above `BLEN`. -/
  | index
  /-- A raw value outside 0 to 2^LEN - 1. -/
  | range
  /-- `MSGID` above 0x7FF. -/
  | id
  /-- A byte value above 255. -/
  | byte
  /-- A slot number at or above `NSIG`, or an invalid slot. -/
  | lookup
  /-- An operand the command cannot use. -/
  | operand
  /-- A non-finite `f64` operand or intermediate, or a zero factor. -/
  | numeric
  /-- A command word that spells no command. -/
  | illegal
deriving DecidableEq, Repr

/-- One signal slot: the twelve fields of R28 to R34. -/
structure Slot where
  /-- `VALID` (R28). -/
  valid : Bool
  /-- `START` (R29). -/
  start : BitVec 9
  /-- `LEN` (R29). -/
  len : BitVec 7
  /-- `INTEL` (R29): `.intel` for 1, `.motorola` for 0. -/
  layout : Layout
  /-- `ISSIGN` (R29): stored and read back, and read by nothing else (R93). -/
  isSign : Bool
  /-- `FACTOR` (R30). -/
  factor : F64
  /-- `OFFSET` (R30). -/
  offset : F64
  /-- `MIN` (R30): never compared with anything (R94). -/
  min : F64
  /-- `MAX` (R30): never compared with anything (R94). -/
  max : F64
  /-- `DEFAULT` (R32). -/
  dflt : BitVec 64
  /-- `RAW` (R33). -/
  raw : BitVec 64
  /-- `PHYS` (R34). -/
  phys : F64
deriving DecidableEq, Repr

/-- What the response port carries (R61). -/
structure Response where
  /-- `rsp_fault`. -/
  fault : Bool
  /-- `rsp_cause`. -/
  cause : BitVec 4
  /-- `rsp_data`. -/
  data : Data
deriving DecidableEq, Repr

/-- What the host can do to the block (R5): present a command, or assert reset, which abandons the command in
progress if there is one (R150, R152). -/
inductive HostInput where
  | command (word : CmdWord) (data : Data)
  | reset (inProgress : Option (CmdWord × Data))
deriving DecidableEq, Repr

/-- The state of the block. `CAPS` is computed (`State.caps`), and `NSIG` is the length of `sig` (log entries 4, 5).
The last three fields are the model's own: what the host will present, what the response port has carried, oldest
first, and how many inserts have raised `IndexFault` (log entries 1, 3). -/
structure State where
  /-- `BUF` (R21): the cells that are not 0x00, in rising order of address. -/
  buf : List Host.Cell
  /-- `BLEN` (R22). -/
  blen : BitVec 7
  /-- `MSGID` (R23). -/
  msgid : BitVec 32
  /-- `FSR` (R24). -/
  fsr : BitVec 64
  /-- `SIG` (R27). -/
  sig : List Slot
  /-- The inputs the host has still to present, the next one first. -/
  input : List HostInput
  /-- The responses so far, oldest first. -/
  output : List Response
  /-- How many faulting inserts have drawn from `Config.faultedInsertWrites`. -/
  draws : Nat
deriving DecidableEq, Repr

/-- How a command's pseudocode ends (R17): it reaches `respond`, or it reaches `raise` with the state written
before it. -/
inductive Effect where
  | respond (v : Data) (s : State)
  | raise (c : Cause) (idx : BitVec 9) (s : State)
deriving DecidableEq, Repr

/-- Why the machine would stop. There is no such reason: no behaviour of this block is stuck, every command ends with
a response (R164), and the eight faults of R131 are responses and not stops. -/
inductive Fault where
deriving DecidableEq, Repr

/-- Why a command would have no meaning. -/
inductive Refusal where
  /-- Raised by an arm of `exec` whose instruction has no meaning yet. Every instruction has one, so nothing raises
  it. Safe: nothing about a refused instruction's effect could be proved. -/
  | notModelled (mnemonic : String)
deriving DecidableEq, Repr

/-- A slot after reset: invalid, every other field zero (R37). `INTEL` = 0 is Motorola. -/
def emptySlot : Slot :=
  { valid := false, start := 0#9, len := 0#7, layout := .motorola, isSign := false, factor := 0#64, offset := 0#64,
    min := 0#64, max := 0#64, dflt := 0#64, raw := 0#64, phys := 0#64 }

/-- The state after reset of a block with `nsig` slots (R37): the buffer all 0x00, so that no cell is listed. -/
def State.resetOf (nsig : Nat) : State :=
  { buf := [], blen := Config.resetBlen, msgid := 0#32, fsr := 0#64, sig := List.replicate nsig emptySlot,
    input := [], output := [], draws := 0 }

/-- The state after reset (R37), with the spec's default of `NSIG`. Nothing is pending: a program comes to run by the
host presenting its commands (log entry 2). -/
def State.reset : State := State.resetOf Config.nsigDefault

end Sys2Proof.Machine
end

