-- ==== Sys2Proof/Machine/Flags.lean ====
section
/-!
DEFINITION. The fault codes (R131) and the fault status register (R24, R133, R134). The block has no condition flags
(R35); `FSR` is its only status register.
-/

namespace Sys2Proof.Machine

/-- The code of a cause (R131). Codes 9 to 15 are never produced; 0 means none. -/
def Cause.code : Cause → BitVec 4
  | .index => 1#4
  | .range => 2#4
  | .id => 3#4
  | .byte => 4#4
  | .lookup => 5#4
  | .operand => 6#4
  | .numeric => 7#4
  | .illegal => 8#4

/-- `FSR.CAUSE`, bits 3:0 (R24). -/
def fsrCause (f : BitVec 64) : BitVec 4 := f.extractLsb' 0 4

/-- `FSR.OP`, bits 15:8 (R24). -/
def fsrOp (f : BitVec 64) : BitVec 8 := f.extractLsb' 8 8

/-- `FSR.IDX`, bits 24:16 (R24). -/
def fsrIdx (f : BitVec 64) : BitVec 9 := f.extractLsb' 16 9

/-- `FSR.MULTI`, bit 31 (R24). -/
def fsrMulti (f : BitVec 64) : Bool := f.getLsbD 31

/-- The bits of `FSR` that read as zero: 7:4, 30:25 and 63:32 (R24). -/
def fsrReservedMask : BitVec 64 := 0xFFFFFFFF7E0000F0#64

/-- The fault information word (R133): cause in 3:0, opcode byte in 15:8, index in 24:16, all other bits zero. -/
def faultInfo (op : BitVec 8) (c : Cause) (idx : BitVec 9) : BitVec 64 :=
  0#39 ++ idx ++ op ++ 0#4 ++ c.code

/-- `FSR` after a fault (R134): the information word if no fault was recorded, else `MULTI` set and the rest kept. -/
def recordFault (f info : BitVec 64) : BitVec 64 :=
  if fsrCause f = 0#4 then info else f ||| 0x80000000#64

end Sys2Proof.Machine
end

