-- ==== Sys2Proof/Machine/Numerics.lean ====
section
/-!
DEFINITION. The floating-point primitives of R90 over exact rational arithmetic, and the two conversions `Scale` (R91)
and `Unscale` (R92). `F64.real` and `rne` are irreducible so that no proof unfolds them by accident; Lean's kernel still
evaluates them.
-/

namespace Sys2Proof.Machine

/-! ## Primitives (R90) -/

/-- The exponent field, bits 62:52 (R18). -/
def F64.expField (x : F64) : Nat := (x.extractLsb' 52 11).toNat

/-- The fraction field, bits 51:0 (R18). -/
def F64.fracField (x : F64) : Nat := (x.extractLsb' 0 52).toNat

/-- `is_finite`: neither an infinity nor a NaN (R90). -/
def F64.isFinite (x : F64) : Bool := decide (F64.expField x ≠ 2047)

/-- `is_zero`: +0.0 or -0.0 (R90). -/
def F64.isZero (x : F64) : Bool := x.extractLsb' 0 63 == 0#63

/-- `real(x)` of a finite `x` (R90): the significand, with its hidden bit unless subnormal, times 2^(e - 1075), where
`e` is the exponent field and 1 for a subnormal. -/
@[irreducible] def F64.real (x : F64) : Rat :=
  let e := F64.expField x
  let m : Nat := if e = 0 then F64.fracField x else F64.fracField x + 2 ^ 52
  let u : Int := m * 2 ^ (max e 1 - 1)
  mkRat (if x.msb then -u else u) (2 ^ 1074)

/-- `n / d` to the nearest natural number, ties to even. -/
def roundHalfEven (n d : Nat) : Nat :=
  if d < 2 * (n % d) ∨ (2 * (n % d) = d ∧ n / d % 2 = 1) then n / d + 1 else n / d

/-- The pattern of +infinity, which the magnitude of a rounded value does not pass. -/
def infPattern : Nat := 0x7FF0000000000000

/-- `rne(r)`: the `f64` nearest `r`, ties to even, an infinity from 2^1024 - 2^970 on (R90). Counted in units of 2^-1074,
the magnitude is rounded to a multiple of 2^t, `t` the least exponent that leaves at most 53 bits; the pattern of
q * 2^t units is t * 2^52 + q, subnormal, normal or carried into the next exponent alike. -/
@[irreducible] def rne (r : Rat) : F64 :=
  let n := r.num.natAbs * 2 ^ 1074
  let t := Nat.log2 (n / r.den) - 52
  let p := Nat.min (t * 2 ^ 52 + roundHalfEven n (r.den * 2 ^ t)) infPattern
  BitVec.ofNat 64 (if r < 0 then 2 ^ 63 + p else p)

/-- `f64_of_u64` (R90). -/
def f64OfU64 (n : BitVec 64) : F64 := rne (n.toNat : Rat)

/-- `fmul` (R90). -/
def fmul (a b : F64) : F64 := rne (F64.real a * F64.real b)

/-- `fadd` (R90). -/
def fadd (a b : F64) : F64 := rne (F64.real a + F64.real b)

/-- `fsub` (R90). -/
def fsub (a b : F64) : F64 := rne (F64.real a - F64.real b)

/-- `fdiv` (R90), for `b` not zero. -/
def fdiv (a b : F64) : F64 := rne (F64.real a / F64.real b)

/-- `int_of_f64`: the integer part, rounding toward zero (R90). -/
def intOfF64 (x : F64) : Int := (F64.real x).num.tdiv (F64.real x).den

/-- `ftrunc`: the `f64` whose value is `int_of_f64`, +0.0 when that is 0 (R90). -/
def ftrunc (x : F64) : F64 := rne (intOfF64 x : Rat)

/-! ## Conversions -/

/-- `Scale` (R91): convert, multiply, add, truncate; `NumericFault` on a non-finite intermediate. -/
def scale (raw : BitVec 64) (factor offset : F64) : Except Cause F64 :=
  let m := fmul (f64OfU64 raw) factor
  if !F64.isFinite m then .error .numeric
  else
    let a := fadd m offset
    if !F64.isFinite a then .error .numeric
    else .ok (ftrunc a)

/-- `Unscale` (R92): subtract, divide, truncate toward zero, then the range test of the integer. -/
def unscale (p factor offset : F64) (len : Nat) : Except Cause (BitVec 64) :=
  if !F64.isFinite p then .error .numeric
  else if F64.isZero factor then .error .numeric
  else
    let d := fsub p offset
    if !F64.isFinite d then .error .numeric
    else
      let q := fdiv d factor
      if !F64.isFinite q then .error .numeric
      else
        let r := intOfF64 q
        if r < 0 ∨ r > 2 ^ len - 1 then .error .range
        else .ok (BitVec.ofNat 64 r.toNat)

end Sys2Proof.Machine
end

