-- ==== Sys2Proof/Decode.lean ====
section
/-!
DEFINITION. The decoder (R70: total, reads no state; R67 and R68: what it rejects, by name) and after it the encoder,
both from the formats of R62, the fields of R63 and the opcode map of R64.
-/

namespace Sys2Proof

/-! ## Opcodes (R64) -/

abbrev opSetd : BitVec 8 := 0x01#8
abbrev opGetd : BitVec 8 := 0x02#8
abbrev opWrb : BitVec 8 := 0x10#8
abbrev opRdb : BitVec 8 := 0x11#8
abbrev opWrcr : BitVec 8 := 0x18#8
abbrev opRdcr : BitVec 8 := 0x19#8
abbrev opSigdef : BitVec 8 := 0x20#8
abbrev opSigwr : BitVec 8 := 0x21#8
abbrev opSigrd : BitVec 8 := 0x22#8
abbrev opSetv : BitVec 8 := 0x28#8
abbrev opSetp : BitVec 8 := 0x29#8
abbrev opUpds : BitVec 8 := 0x30#8
abbrev opUpdr : BitVec 8 := 0x31#8
abbrev opChkm : BitVec 8 := 0x32#8
abbrev opRstd : BitVec 8 := 0x33#8

/-! ## Fields of the command word (R62, R63) -/

/-- `op`, bits 31:24. -/
def wordOp (w : CmdWord) : BitVec 8 := w.extractLsb' 24 8
/-- `start`, bits 8:0 of format C. -/
def wordStart (w : CmdWord) : BitVec 9 := w.extractLsb' 0 9
/-- `len`, bits 15:9 of format C. -/
def wordLen (w : CmdWord) : BitVec 7 := w.extractLsb' 9 7
/-- `io`, bit 16 of format C: 1 = Intel. -/
def wordIo (w : CmdWord) : Layout := if w.getLsbD 16 then .intel else .motorola
/-- `idx`, bits 8:0 of format X. -/
def wordIdx (w : CmdWord) : BitVec 9 := w.extractLsb' 0 9
/-- `fld`, bits 23:20 of format X. -/
def wordFld (w : CmdWord) : BitVec 4 := w.extractLsb' 20 4
/-- `flag`, bit 0 of format N. -/
def wordFlag (w : CmdWord) : Bool := w.getLsbD 0

/-- Format C's zero bits, 23:17, are zero. -/
def zeroC (w : CmdWord) : Bool := w.extractLsb' 17 7 == 0#7
/-- Format X's zero bits, 19:9, are zero. -/
def zeroX (w : CmdWord) : Bool := w.extractLsb' 9 11 == 0#11
/-- Format X's zero bits and its `fld` are zero: every format X command but `SIGWR` and `SIGRD` (R67). -/
def zeroXFld (w : CmdWord) : Bool := zeroX w && wordFld w == 0#4
/-- Format N's zero bits, 23:1, are zero. -/
def zeroN (w : CmdWord) : Bool := w.extractLsb' 1 23 == 0#23
/-- Format N's zero bits and its `flag` are zero: `UPDS`, `UPDR` and `RSTD` (R67). -/
def zeroNFlag (w : CmdWord) : Bool := zeroN w && !wordFlag w

/-! ## The decoder -/

/-- Why a word spells no command. Either way it raises `IllegalCommand` and has no other effect. -/
inductive Illegal where
  /-- The opcode is none of R64 (R68). -/
  | undefinedOpcode (op : BitVec 8)
  /-- The opcode is one of R64, but a bit its format marks zero is set (R67). -/
  | reservedBits (op : BitVec 8)
deriving DecidableEq, Repr

/-- The command if the word's zero bits are zero, else the rejection of R67. -/
def checked (zero : Bool) (op : BitVec 8) (i : Instr) : Except Illegal Instr :=
  if zero then .ok i else .error (.reservedBits op)

/-- The command a word and its data operand spell (R70). A command without a data operand ignores it (R60). -/
def decode (w : CmdWord) (d : Data) : Except Illegal Instr :=
  let op := wordOp w
  if op = opSetd then checked (zeroC w) op (.setd (wordStart w) (wordLen w) (wordIo w) d)
  else if op = opGetd then checked (zeroC w) op (.getd (wordStart w) (wordLen w) (wordIo w))
  else if op = opWrb then checked (zeroXFld w) op (.wrb (wordIdx w) d)
  else if op = opRdb then checked (zeroXFld w) op (.rdb (wordIdx w))
  else if op = opWrcr then checked (zeroXFld w) op (.wrcr (wordIdx w) d)
  else if op = opRdcr then checked (zeroXFld w) op (.rdcr (wordIdx w))
  else if op = opSigdef then checked (zeroXFld w) op (.sigdef (wordIdx w) d)
  else if op = opSigwr then checked (zeroX w) op (.sigwr (wordFld w) (wordIdx w) d)
  else if op = opSigrd then checked (zeroX w) op (.sigrd (wordFld w) (wordIdx w))
  else if op = opSetv then checked (zeroXFld w) op (.setv (wordIdx w) d)
  else if op = opSetp then checked (zeroXFld w) op (.setp (wordIdx w) d)
  else if op = opUpds then checked (zeroNFlag w) op .upds
  else if op = opUpdr then checked (zeroNFlag w) op .updr
  else if op = opChkm then checked (zeroN w) op (.chkm (wordFlag w))
  else if op = opRstd then checked (zeroNFlag w) op .rstd
  else .error (.undefinedOpcode op)

/-- The instruction whose bits are `w`, bit 0 the least significant bit of the command word, the data operand in the
64 bits above it; only the low `nbits` bits of `w` are given and every bit above them is 0. -/
def decodeTableWord (nbits w : Nat) : Option Instr :=
  let bits := w % 2 ^ nbits
  match decode (BitVec.ofNat 32 bits) (BitVec.ofNat 64 (bits / 2 ^ 32)) with
  | .ok i => some i
  | .error _ => none

/-! ## The encoder -/

/-- The bit of a layout in a command word or a geometry word: 1 = Intel (R63). -/
def Layout.bit : Layout → BitVec 1
  | .intel => 1#1
  | .motorola => 0#1

/-- A format C word (R62). -/
def formatC (op : BitVec 8) (io : Layout) (len : BitVec 7) (start : BitVec 9) : CmdWord :=
  op ++ 0#7 ++ io.bit ++ len ++ start

/-- A format X word (R62). -/
def formatX (op : BitVec 8) (fld : BitVec 4) (idx : BitVec 9) : CmdWord :=
  op ++ fld ++ 0#11 ++ idx

/-- A format N word (R62). -/
def formatN (op : BitVec 8) (flag : Bool) : CmdWord :=
  op ++ 0#23 ++ BitVec.ofBool flag

/-- The opcode byte of a command (R64), which a fault records as `OP` (R24). -/
def Instr.opcode : Instr → BitVec 8
  | .setd _ _ _ _ => opSetd
  | .getd _ _ _ => opGetd
  | .wrb _ _ => opWrb
  | .rdb _ => opRdb
  | .wrcr _ _ => opWrcr
  | .rdcr _ => opRdcr
  | .sigdef _ _ => opSigdef
  | .sigwr _ _ _ => opSigwr
  | .sigrd _ _ => opSigrd
  | .setv _ _ => opSetv
  | .setp _ _ => opSetp
  | .upds => opUpds
  | .updr => opUpdr
  | .chkm _ => opChkm
  | .rstd => opRstd

/-- The command word of a command (R62 to R64). -/
def encodeWord : Instr → CmdWord
  | .setd start len io _ => formatC opSetd io len start
  | .getd start len io => formatC opGetd io len start
  | .wrb idx _ => formatX opWrb 0#4 idx
  | .rdb idx => formatX opRdb 0#4 idx
  | .wrcr cr _ => formatX opWrcr 0#4 cr
  | .rdcr cr => formatX opRdcr 0#4 cr
  | .sigdef slot _ => formatX opSigdef 0#4 slot
  | .sigwr fld slot _ => formatX opSigwr fld slot
  | .sigrd fld slot => formatX opSigrd fld slot
  | .setv slot _ => formatX opSetv 0#4 slot
  | .setp slot _ => formatX opSetp 0#4 slot
  | .upds => formatN opUpds false
  | .updr => formatN opUpdr false
  | .chkm flag => formatN opChkm flag
  | .rstd => formatN opRstd false

/-- The data operand of a command (R65); zero for a command that ignores it, any other value serving as well (R60). -/
def encodeData : Instr → Data
  | .setd _ _ _ value => value
  | .getd _ _ _ => 0#64
  | .wrb _ data => data
  | .rdb _ => 0#64
  | .wrcr _ value => value
  | .rdcr _ => 0#64
  | .sigdef _ geom => geom
  | .sigwr _ _ value => value
  | .sigrd _ _ => 0#64
  | .setv _ raw => raw
  | .setp _ phys => phys
  | .upds => 0#64
  | .updr => 0#64
  | .chkm _ => 0#64
  | .rstd => 0#64

/-- The word and the data operand of a command, as they are presented together (R60). -/
def encode (i : Instr) : CmdWord × Data := (encodeWord i, encodeData i)

/-! ## The match and mask table of R64 -/

/-- `match` and `mask` of the row a command belongs to (R64). -/
def Instr.row : Instr → CmdWord × CmdWord
  | .setd _ _ _ _ => (0x01000000#32, 0xFFFE0000#32)
  | .getd _ _ _ => (0x02000000#32, 0xFFFE0000#32)
  | .wrb _ _ => (0x10000000#32, 0xFFFFFE00#32)
  | .rdb _ => (0x11000000#32, 0xFFFFFE00#32)
  | .wrcr _ _ => (0x18000000#32, 0xFFFFFE00#32)
  | .rdcr _ => (0x19000000#32, 0xFFFFFE00#32)
  | .sigdef _ _ => (0x20000000#32, 0xFFFFFE00#32)
  | .sigwr _ _ _ => (0x21000000#32, 0xFF0FFE00#32)
  | .sigrd _ _ => (0x22000000#32, 0xFF0FFE00#32)
  | .setv _ _ => (0x28000000#32, 0xFFFFFE00#32)
  | .setp _ _ => (0x29000000#32, 0xFFFFFE00#32)
  | .upds => (0x30000000#32, 0xFFFFFFFF#32)
  | .updr => (0x31000000#32, 0xFFFFFFFF#32)
  | .chkm _ => (0x32000000#32, 0xFFFFFFFE#32)
  | .rstd => (0x33000000#32, 0xFFFFFFFF#32)

/-- The fifteen `(match, mask)` pairs in the table's order (R64). -/
def rows : List (CmdWord × CmdWord) :=
  [(0x01000000#32, 0xFFFE0000#32), (0x02000000#32, 0xFFFE0000#32), (0x10000000#32, 0xFFFFFE00#32),
   (0x11000000#32, 0xFFFFFE00#32), (0x18000000#32, 0xFFFFFE00#32), (0x19000000#32, 0xFFFFFE00#32),
   (0x20000000#32, 0xFFFFFE00#32), (0x21000000#32, 0xFF0FFE00#32), (0x22000000#32, 0xFF0FFE00#32),
   (0x28000000#32, 0xFFFFFE00#32), (0x29000000#32, 0xFFFFFE00#32), (0x30000000#32, 0xFFFFFFFF#32),
   (0x31000000#32, 0xFFFFFFFF#32), (0x32000000#32, 0xFFFFFFFE#32), (0x33000000#32, 0xFFFFFFFF#32)]

/-- A word spells the command of a row when `w AND mask` = `match` (R64). -/
def spells (w : CmdWord) (r : CmdWord × CmdWord) : Bool := w &&& r.2 == r.1

end Sys2Proof
end

