-- ==== Sys2Proof/Machine/Operands.lean ====
section
/-!
DEFINITION. The operand forms that need no state: the position of every bit of a field in the buffer (R42 to R47), the
two field primitives on one byte and one bit (R48, R49), the geometry word (R65), the field selector (R73) and the
control register number (R26).
-/

namespace Sys2Proof.Machine

/-! ## Fields of the buffer -/

/-- A field of the buffer: start bit, length and layout (R29, R81). -/
structure Geom where
  start : Nat
  len : Nat
  layout : Layout
deriving DecidableEq, Repr

/-- `byte_index` = `START` div 8 (R43). -/
def Geom.byteIndex (g : Geom) : Nat := g.start / 8

/-- `bit_index` = `START` mod 8 (R43). -/
def Geom.bitIndex (g : Geom) : Nat := g.start % 8

/-- The places available in the first byte (R45). -/
def Geom.room (g : Geom) : Nat :=
  match g.layout with
  | .intel => 8 - g.bitIndex
  | .motorola => g.bitIndex + 1

/-- `Pos`: the byte index and the place in it of signal bit `i`, bit 0 the least significant (R46). -/
def Geom.pos (g : Geom) (i : Nat) : Nat × Nat :=
  match g.layout with
  | .intel =>
    let p := g.start + i
    (p / 8, p % 8)
  | .motorola =>
    let q := (g.len - 1) - i
    let m := 8 * g.byteIndex + (7 - g.bitIndex) + q
    (m / 8, 7 - m % 8)

/-- The number of bytes of the span (R47): the ceiling of the places used, counted from the end of the first byte
where the layout enters it. -/
def Geom.nbytes (g : Geom) : Nat :=
  match g.layout with
  | .intel => (g.bitIndex + g.len + 7) / 8
  | .motorola => ((7 - g.bitIndex) + g.len + 7) / 8

/-- The span: the byte indices the field touches, ascending (R47). -/
def Geom.span (g : Geom) : List Nat := List.range' g.byteIndex g.nbytes

/-- The whole span lies below `blen` (R53). -/
def Geom.fits (g : Geom) (blen : Nat) : Bool := g.span.all (fun k => decide (k < blen))

/-- `x` with bit `j` replaced by `b`. -/
def setBit {w : Nat} (x : BitVec w) (j : Nat) (b : Bool) : BitVec w :=
  if b then x ||| BitVec.twoPow w j else x &&& ~~~ BitVec.twoPow w j

/-- The new value of span byte `k` (R49): every place that is the position of a signal bit takes that bit of `v`, every
other place keeps its old value. -/
def Geom.splice (g : Geom) (v : BitVec 64) (k : Nat) (old : Byte) : Byte :=
  (List.range g.len).foldl
    (fun new i => if (g.pos i).1 = k then setBit new (g.pos i).2 (v.getLsbD i) else new) old

/-- The value of a field whose buffer bytes are `byte` (R48): signal bit `i` is the bit at `Pos i`. -/
def Geom.gather (g : Geom) (byte : Nat → Byte) : BitVec 64 :=
  (List.range g.len).foldl (fun v i => setBit v i ((byte (g.pos i).1).getLsbD (g.pos i).2)) 0#64

/-! ## The geometry word (R65) -/

/-- Bit 16 of a geometry word, as a layout: 1 = Intel. -/
def layoutOfBit (b : Bool) : Layout := if b then .intel else .motorola

/-- `SIGDEF`'s fields of a geometry word: `START` 8:0, `LEN` 15:9, `INTEL` 16, `ISSIGN` 17 (R65). -/
def geomStart (d : Data) : BitVec 9 := d.extractLsb' 0 9
def geomLen (d : Data) : BitVec 7 := d.extractLsb' 9 7
def geomLayout (d : Data) : Layout := layoutOfBit (d.getLsbD 16)
def geomIsSign (d : Data) : Bool := d.getLsbD 17
/-- Bits 63:18, which must be zero. -/
def geomReserved (d : Data) : BitVec 46 := d.extractLsb' 18 46

/-- The geometry word `SIGRD` returns: `ISSIGN ++ INTEL ++ LEN ++ START` (R97). -/
def geomWord (g : Slot) : Data :=
  (BitVec.ofBool g.isSign ++ g.layout.bit ++ g.len ++ g.start).setWidth 64

/-- The field a slot describes (R29). -/
def Slot.geom (g : Slot) : Geom := { start := g.start.toNat, len := g.len.toNat, layout := g.layout }

/-! ## Field selectors (R73) and control registers (R26) -/

/-- The fields a selector can name. -/
inductive SlotField where
  | geom | factor | offset | min | max | dflt | raw | phys
deriving DecidableEq, Repr

/-- The field a selector names; none for 8 to 15 (R73). -/
def selectField (fld : BitVec 4) : Option SlotField :=
  match fld.toNat with
  | 0 => some .geom
  | 1 => some .factor
  | 2 => some .offset
  | 3 => some .min
  | 4 => some .max
  | 5 => some .dflt
  | 6 => some .raw
  | 7 => some .phys
  | _ => none

/-- What `SIGRD` returns for a field (R97). -/
def Slot.readField (g : Slot) : SlotField → Data
  | .geom => geomWord g
  | .factor => g.factor
  | .offset => g.offset
  | .min => g.min
  | .max => g.max
  | .dflt => g.dflt
  | .raw => g.raw
  | .phys => g.phys

/-- The control registers. -/
inductive CtrlReg where
  | blen | msgid | fsr | caps
deriving DecidableEq, Repr

/-- The register a number names; none for 4 to 511 (R26). -/
def selectCtrlReg (cr : BitVec 9) : Option CtrlReg :=
  match cr.toNat with
  | 0 => some .blen
  | 1 => some .msgid
  | 2 => some .fsr
  | 3 => some .caps
  | _ => none

/-- A raw value fits in `len` bits: it is at most 2^len - 1 (R33, R81). -/
def fitsLen (v : BitVec 64) (len : Nat) : Bool := decide (v.toNat ≤ 2 ^ len - 1)

end Sys2Proof.Machine
end

