-- ==== Sys2Proof/Machine/Ops.lean ====
section
/-!
DEFINITION. The named operations over the state: the buffer cells, the control registers, the slots, the two byte
primitives (R16), the two field primitives (R48, R49, R86), the slot lookup (R101), the iteration over the valid slots
(R110), responding (R61), and taking a fault (R133, R134) as one shared operation.
-/

namespace Sys2Proof.Machine

/-! ## Buffer cells: a list of (address, byte) in one canonical form -/

/-- What a cell that no write has changed since reset holds (R37). -/
def unlistedByte : Byte := 0x00#8

/-- The byte at an address. -/
def memByte : List Host.Cell → Nat → Byte
  | [], _ => unlistedByte
  | (a, b) :: m, k => if a = k then b else memByte m k

/-- The cells without those at address `k`. -/
def memErase : List Host.Cell → Nat → List Host.Cell
  | [], _ => []
  | (a, b) :: m, k => if a = k then memErase m k else (a, b) :: memErase m k

/-- The cells with `(k, v)` put in its place by address. -/
def memInsert : List Host.Cell → Nat → Byte → List Host.Cell
  | [], k, v => [(k, v)]
  | (a, b) :: m, k, v => if k < a then (k, v) :: (a, b) :: m else (a, b) :: memInsert m k v

/-- The cells with the byte at `k` replaced by `v`; a cell that takes what an unlisted address reads as is not listed. -/
def memSet (m : List Host.Cell) (k : Nat) (v : Byte) : List Host.Cell :=
  if v = unlistedByte then memErase m k else memInsert (memErase m k) k v

/-- The canonical form: addresses strictly rising, and no entry equal to what an unlisted address reads as. -/
abbrev Memory.wf (m : List Host.Cell) : Prop :=
  m.Pairwise (fun c d => c.1 < d.1) ∧ ∀ c ∈ m, c.2 ≠ unlistedByte

/-- No cell above the 64 that exist is listed (R21). -/
abbrev Memory.inRange (m : List Host.Cell) : Prop := ∀ c ∈ m, c.1 < Config.bufMax

/-! ## Single updates of the state -/

def State.setBuf (s : State) (m : List Host.Cell) : State := { s with buf := m }
def State.setBlen (s : State) (n : BitVec 7) : State := { s with blen := n }
def State.setMsgid (s : State) (v : BitVec 32) : State := { s with msgid := v }
def State.setFsr (s : State) (f : BitVec 64) : State := { s with fsr := f }
def State.setSig (s : State) (t : List Slot) : State := { s with sig := t }
def State.setInput (s : State) (l : List HostInput) : State := { s with input := l }

/-- A response on the response port (R61). -/
def State.emit (s : State) (r : Response) : State := { s with output := s.output ++ [r] }

/-- The next faulting insert draws afresh (U1). -/
def State.nextDraw (s : State) : State := { s with draws := s.draws + 1 }

/-! ## Reads -/

/-- `BUF[k]`. -/
def State.byte (s : State) (k : Nat) : Byte := memByte s.buf k

/-- `NSIG`, the size of the signal table (R27). -/
def State.nsig (s : State) : Nat := s.sig.length

/-- `CAPS` (R25): `NSIG` in 9:0, `BUFMAX` in 22:16, the command-set version in 31:24, all other bits zero. -/
def State.caps (s : State) : BitVec 64 :=
  0#32 ++ Config.version ++ 0#1 ++ BitVec.ofNat 7 Config.bufMax ++ 0#6 ++ BitVec.ofNat 10 s.nsig

/-- Slot `k` if it exists and is valid. -/
def State.validSlot (s : State) (k : Nat) : Option Slot :=
  match s.sig[k]? with
  | some g => if g.valid then some g else none
  | none => none

/-- `SIG[k] <- g`. -/
def State.setSlot (s : State) (k : Nat) (g : Slot) : State := s.setSig (s.sig.set k g)

/-- `LookupSlot` (R101). -/
def lookupSlot (s : State) (idx : BitVec 9) : Except Cause Slot :=
  match s.validSlot idx.toNat with
  | some g => .ok g
  | none => .error .lookup

/-- A read of a control register (R123). -/
def State.readCtrl (s : State) : CtrlReg → Data
  | .blen => s.blen.setWidth 64
  | .msgid => s.msgid.setWidth 64
  | .fsr => s.fsr
  | .caps => s.caps

/-! ## Byte primitives (R16) -/

/-- `MemRead`: `IndexFault` at or above `BLEN`. -/
def memRead (s : State) (k : Nat) : Except Cause Byte :=
  if k < s.blen.toNat then .ok (s.byte k) else .error .index

/-- `MemWrite`: `IndexFault` at or above `BLEN`. -/
def memWrite (s : State) (k : Nat) (v : Byte) : Except Cause State :=
  if k < s.blen.toNat then .ok (s.setBuf (memSet s.buf k v)) else .error .index

/-! ## Field primitives (R48, R49) -/

/-- `ExtractField` (R48). -/
def extractField (s : State) (g : Geom) : Except Cause (BitVec 64) :=
  if g.fits s.blen.toNat then .ok (g.gather s.byte) else .error .index

/-- The cells after the span bytes that `writes` selects have taken their new values, in ascending order (R49). -/
def insertCells (m : List Host.Cell) (g : Geom) (v : BitVec 64) (writes : Nat → Bool) : List Host.Cell :=
  g.span.foldl (fun m k => if writes k then memSet m k (g.splice v k (memByte m k)) else m) m

/-- Which span bytes a faulting insert has written (R86): those below `BLEN` that the free value selects. -/
def faultedWrites (s : State) (k : Nat) : Bool :=
  decide (k < s.blen.toNat) && Config.faultedInsertWrites s.draws k

/-- `InsertField` (R49). When the span does not fit, `IndexFault`, with the in-range bytes of the span each old or new
as the free value has it (R86). -/
def insertField (s : State) (g : Geom) (v : BitVec 64) : Except (Cause × State) State :=
  if g.fits s.blen.toNat then .ok (s.setBuf (insertCells s.buf g v (fun _ => true)))
  else .error (.index, (s.setBuf (insertCells s.buf g v (faultedWrites s))).nextDraw)

/-! ## Responding and taking a fault -/

/-- The response of a success (R61). -/
def okResponse (v : Data) : Response := { fault := false, cause := 0#4, data := v }

/-- The response of a fault (R133). -/
def faultResponse (op : BitVec 8) (c : Cause) (idx : BitVec 9) : Response :=
  { fault := true, cause := c.code, data := faultInfo op c idx }

/-- Taking a fault: `FSR` records it (R134), and the response reports it (R133). Nothing else changes: no mode, saved
address, vector or handler (R138). There is no return from it (R139); only a write to `FSR` or a reset clears the
record. -/
def State.takeFault (s : State) (op : BitVec 8) (c : Cause) (idx : BitVec 9) : State :=
  (s.setFsr (recordFault s.fsr (faultInfo op c idx))).emit (faultResponse op c idx)

/-- The next state when the pseudocode of the command with opcode byte `op` has ended (R17). -/
def complete (op : BitVec 8) : Effect → Host.Outcome State Fault Refusal
  | .respond v s => .next (s.emit (okResponse v))
  | .raise c idx s => .next (s.takeFault op c idx)

/-! ## Iteration over the valid slots (R110) -/

/-- Process the valid slots among `ks` in order, stopping at the first fault, whose index is the slot's number. -/
def forValidSlots (body : Nat → Slot → State → Except (Cause × State) State) : List Nat → State → Effect
  | [], s => .respond 0#64 s
  | k :: ks, s =>
    match s.validSlot k with
    | none => forValidSlots body ks s
    | some g =>
      match body k g s with
      | .ok t => forValidSlots body ks t
      | .error (c, t) => .raise c (BitVec.ofNat 9 k) t

/-- Process all valid slots, 0 to `NSIG` - 1 ascending (R110). -/
def forAllSlots (body : Nat → Slot → State → Except (Cause × State) State) (s : State) : Effect :=
  forValidSlots body (List.range s.nsig) s

/-- The path by which a slot takes a new raw value and the physical value scaled from it (R98, R112, R114): nothing
is written when the scaling faults. -/
def storeRaw (k : Nat) (g : Slot) (v : BitVec 64) (s : State) : Except (Cause × State) State :=
  match scale v g.factor g.offset with
  | .error c => .error (c, s)
  | .ok ph => .ok (s.setSlot k { g with raw := v, phys := ph })

/-! ## Reset (R150) -/

/-- Every piece of architectural state at its reset value, for the same number of slots. What the host has still to
present, what the port has carried and the draws are no state of the block and stay. -/
def State.resetBlock (s : State) : State :=
  { State.resetOf s.nsig with input := s.input, output := s.output, draws := s.draws }

end Sys2Proof.Machine
end

