-- ==== Sys2Proof/Machine/Buffer.lean ====
section
/-!
DEFINITION. The buffer and control-register commands `WRB` (R120), `RDB` (R121), `WRCR` (R122) and `RDCR` (R123).
-/

namespace Sys2Proof.Machine

/-- `WRB` (R120). -/
def execWrb (idx : BitVec 9) (data : Data) (s : State) : Host.Outcome State Fault Refusal :=
  complete opWrb <|
    if data.extractLsb' 8 56 ≠ 0#56 then .raise .byte idx s
    else
      match memWrite s idx.toNat (data.extractLsb' 0 8) with
      | .error c => .raise c idx s
      | .ok t => .respond 0#64 t

/-- `RDB` (R121). -/
def execRdb (idx : BitVec 9) (s : State) : Host.Outcome State Fault Refusal :=
  complete opRdb <|
    match memRead s idx.toNat with
    | .error c => .raise c idx s
    | .ok v => .respond (v.setWidth 64) s

/-- `WRCR` (R122). -/
def execWrcr (cr : BitVec 9) (value : Data) (s : State) : Host.Outcome State Fault Refusal :=
  complete opWrcr <|
    match selectCtrlReg cr with
    | none => .raise .operand cr s
    | some .blen =>
      if value.toNat < 1 ∨ value.toNat > 64 then .raise .operand 0#9 s
      else .respond 0#64 (s.setBlen (value.extractLsb' 0 7))
    | some .msgid =>
      if value.extractLsb' 32 32 ≠ 0#32 then .raise .operand 1#9 s
      else .respond 0#64 (s.setMsgid (value.extractLsb' 0 32))
    | some .fsr => .respond 0#64 (s.setFsr 0#64)
    | some .caps => .raise .operand 3#9 s

/-- `RDCR` (R123). -/
def execRdcr (cr : BitVec 9) (s : State) : Host.Outcome State Fault Refusal :=
  complete opRdcr <|
    match selectCtrlReg cr with
    | none => .raise .operand cr s
    | some r => .respond (s.readCtrl r) s

end Sys2Proof.Machine
end

