-- ==== Sys2Proof/Machine/Codec.lean ====
section
/-!
DEFINITION. The codec commands `SETD` (R81) and `GETD` (R82).
-/

namespace Sys2Proof.Machine

/-- The field a codec command names (R63, R81). -/
def codecGeom (start : BitVec 9) (len : BitVec 7) (io : Layout) : Geom :=
  { start := start.toNat, len := len.toNat, layout := io }

/-- A codec length outside 1 to 64 (R81 line 1, R82 line 1). -/
def badLen (len : BitVec 7) : Bool := decide (len.toNat = 0 ∨ len.toNat > 64)

/-- `SETD` (R81). -/
def execSetd (start : BitVec 9) (len : BitVec 7) (io : Layout) (value : Data) (s : State) :
    Host.Outcome State Fault Refusal :=
  complete opSetd <|
    if badLen len then .raise .operand 0#9 s
    else if !fitsLen value len.toNat then .raise .operand 0#9 s
    else
      match insertField s (codecGeom start len io) value with
      | .error (c, t) => .raise c 0#9 t
      | .ok t => .respond 0#64 t

/-- `GETD` (R82). -/
def execGetd (start : BitVec 9) (len : BitVec 7) (io : Layout) (s : State) : Host.Outcome State Fault Refusal :=
  complete opGetd <|
    if badLen len then .raise .operand 0#9 s
    else
      match extractField s (codecGeom start len io) with
      | .error c => .raise c 0#9 s
      | .ok v => .respond v s

end Sys2Proof.Machine
end

