-- ==== Sys2Proof/Machine/Message.lean ====
section
/-!
DEFINITION. The message-level commands `UPDS` (R111), `UPDR` (R112), `CHKM` (R113) and `RSTD` (R114).
-/

namespace Sys2Proof.Machine

/-- What `UPDS` does for one valid slot (R111 line 2). -/
def encodeSlot (_k : Nat) (g : Slot) (s : State) : Except (Cause × State) State :=
  insertField s g.geom g.raw

/-- What `UPDR` does for one valid slot (R112 lines 2 to 4). -/
def decodeSlot (k : Nat) (g : Slot) (s : State) : Except (Cause × State) State :=
  match extractField s g.geom with
  | .error c => .error (c, s)
  | .ok v => storeRaw k g v s

/-- What `RSTD` does for one valid slot (R114 lines 2 and 3). -/
def restoreSlot (k : Nat) (g : Slot) (s : State) : Except (Cause × State) State :=
  storeRaw k g g.dflt s

/-- `UPDS` (R111). -/
def execUpds (s : State) : Host.Outcome State Fault Refusal := complete opUpds (forAllSlots encodeSlot s)

/-- `UPDR` (R112). -/
def execUpdr (s : State) : Host.Outcome State Fault Refusal := complete opUpdr (forAllSlots decodeSlot s)

/-- The first byte of the message above 255, which an 8-bit cell never holds (R113 line 4). -/
def badByte (s : State) : Option Nat :=
  (List.range s.blen.toNat).find? (fun k => decide ((s.byte k).toNat > 255))

/-- `CHKM` (R113). With `check_data` 0 the signal-level check hook does nothing. -/
def execChkm (checkData : Bool) (s : State) : Host.Outcome State Fault Refusal :=
  complete opChkm <|
    if s.msgid.toNat > Config.msgidMax then .raise .id 0#9 s
    else if checkData then
      match badByte s with
      | some k => .raise .byte (BitVec.ofNat 9 k) s
      | none => .respond 0#64 s
    else .respond 0#64 s

/-- `RSTD` (R114). -/
def execRstd (s : State) : Host.Outcome State Fault Refusal := complete opRstd (forAllSlots restoreSlot s)

end Sys2Proof.Machine
end

