-- ==== Sys2Proof/Machine/Signal.lean ====
section
/-!
DEFINITION. The commands on one signal slot: `SIGDEF` (R95), `SIGWR` (R96), `SIGRD` (R97), `SETV` (R98) and `SETP`
(R99).
-/

namespace Sys2Proof.Machine

/-- The `f64` 1.0 (R95). -/
def f64One : F64 := 0x3FF0000000000000#64

/-- The slot `SIGDEF` writes for a geometry word: neutral scaling and zero values (R95 line 4). -/
def definedSlot (d : Data) : Slot :=
  { valid := true, start := geomStart d, len := geomLen d, layout := geomLayout d, isSign := geomIsSign d,
    factor := f64One, offset := 0#64, min := 0#64, max := 0#64, dflt := 0#64, raw := 0#64, phys := 0#64 }

/-- `SIGDEF` (R95). -/
def execSigdef (slot : BitVec 9) (d : Data) (s : State) : Host.Outcome State Fault Refusal :=
  complete opSigdef <|
    if slot.toNat ≥ s.nsig then .raise .lookup slot s
    else if geomReserved d ≠ 0#46 then .raise .operand slot s
    else if (geomLen d).toNat = 0 ∨ (geomLen d).toNat > 64 then .raise .operand slot s
    else .respond 0#64 (s.setSlot slot.toNat (definedSlot d))

/-- The slot after a write of one field, or the fault the write raises (R96 line 3). The last three fields are not
written by `SIGWR`; `execSigwr` raises `OperandFault` for them before the slot is looked up, and so does this. -/
def writeSlotField (g : Slot) (value : Data) : SlotField → Except Cause Slot
  | .factor =>
    if !F64.isFinite value then .error .numeric
    else
      match scale g.raw value g.offset with
      | .error c => .error c
      | .ok ph => .ok { g with factor := value, phys := ph }
  | .offset =>
    if !F64.isFinite value then .error .numeric
    else
      match scale g.raw g.factor value with
      | .error c => .error c
      | .ok ph => .ok { g with offset := value, phys := ph }
  | .min => if !F64.isFinite value then .error .numeric else .ok { g with min := value }
  | .max => if !F64.isFinite value then .error .numeric else .ok { g with max := value }
  | .dflt => if !fitsLen value g.len.toNat then .error .range else .ok { g with dflt := value }
  | .geom => .error .operand
  | .raw => .error .operand
  | .phys => .error .operand

/-- The field `SIGWR` may write: selectors 1 to 5 (R73, R96 line 1). -/
def writableField (fld : BitVec 4) : Option SlotField :=
  match selectField fld with
  | some .factor => some .factor
  | some .offset => some .offset
  | some .min => some .min
  | some .max => some .max
  | some .dflt => some .dflt
  | _ => none

/-- `SIGWR` (R96). -/
def execSigwr (fld : BitVec 4) (slot : BitVec 9) (value : Data) (s : State) : Host.Outcome State Fault Refusal :=
  complete opSigwr <|
    match writableField fld with
    | none => .raise .operand slot s
    | some f =>
      match lookupSlot s slot with
      | .error c => .raise c slot s
      | .ok g =>
        match writeSlotField g value f with
        | .error c => .raise c slot s
        | .ok g' => .respond 0#64 (s.setSlot slot.toNat g')

/-- `SIGRD` (R97). -/
def execSigrd (fld : BitVec 4) (slot : BitVec 9) (s : State) : Host.Outcome State Fault Refusal :=
  complete opSigrd <|
    match selectField fld with
    | none => .raise .operand slot s
    | some f =>
      match lookupSlot s slot with
      | .error c => .raise c slot s
      | .ok g => .respond (g.readField f) s

/-- `SETV` (R98). -/
def execSetv (slot : BitVec 9) (raw : Data) (s : State) : Host.Outcome State Fault Refusal :=
  complete opSetv <|
    match lookupSlot s slot with
    | .error c => .raise c slot s
    | .ok g =>
      if !fitsLen raw g.len.toNat then .raise .range slot s
      else
        match storeRaw slot.toNat g raw s with
        | .error (c, t) => .raise c slot t
        | .ok t => .respond 0#64 t

/-- `SETP` (R99). -/
def execSetp (slot : BitVec 9) (phys : F64) (s : State) : Host.Outcome State Fault Refusal :=
  complete opSetp <|
    match lookupSlot s slot with
    | .error c => .raise c slot s
    | .ok g =>
      match unscale phys g.factor g.offset g.len.toNat with
      | .error c => .raise c slot s
      | .ok r => .respond 0#64 (s.setSlot slot.toNat { g with raw := r, phys := phys })

end Sys2Proof.Machine
end

