-- ==== Sys2Proof/Machine/Dispatch.lean ====
section
/-!
DEFINITION. One arm per command: its meaning.
-/

namespace Sys2Proof.Machine

/-- The execution of one command. -/
def exec (i : Instr) (s : State) : Host.Outcome State Fault Refusal :=
  match i with
  | .setd start len io value => Sys2Proof.Machine.execSetd start len io value s
  | .getd start len io => Sys2Proof.Machine.execGetd start len io s
  | .wrb idx data => Sys2Proof.Machine.execWrb idx data s
  | .rdb idx => Sys2Proof.Machine.execRdb idx s
  | .wrcr cr value => Sys2Proof.Machine.execWrcr cr value s
  | .rdcr cr => Sys2Proof.Machine.execRdcr cr s
  | .sigdef slot geom => Sys2Proof.Machine.execSigdef slot geom s
  | .sigwr fld slot value => Sys2Proof.Machine.execSigwr fld slot value s
  | .sigrd fld slot => Sys2Proof.Machine.execSigrd fld slot s
  | .setv slot raw => Sys2Proof.Machine.execSetv slot raw s
  | .setp slot phys => Sys2Proof.Machine.execSetp slot phys s
  | .upds => Sys2Proof.Machine.execUpds s
  | .updr => Sys2Proof.Machine.execUpdr s
  | .chkm checkData => Sys2Proof.Machine.execChkm checkData s
  | .rstd => Sys2Proof.Machine.execRstd s

end Sys2Proof.Machine
end

