-- ==== Sys2Proof/Machine/Port.lean ====
section
/-!
DEFINITION. The command port: what a step takes from it, and what a presented word that spells no command does.
-/

namespace Sys2Proof.Machine

/-- The command a word and data operand presented at the port spell (R60, R70). -/
def fetchCommand (w : CmdWord) (d : Data) : Except Illegal Instr := decode w d

/-- A word that spells no command raises `IllegalCommand`, its index 0 and its opcode byte whatever the word carried,
and has no other effect (R67, R68, R133). -/
def raiseIllegal (w : CmdWord) (s : State) : Host.Outcome State Fault Refusal :=
  complete (wordOp w) (.raise .illegal 0#9 s)

/-- The input that presents the low `nbits` bits of `w`: the command word in bits 31:0 and the data operand above it,
every bit not given being 0 (R60). -/
def presentedWord (nbits w : Nat) : HostInput :=
  .command (BitVec.ofNat 32 (w % 2 ^ nbits)) (BitVec.ofNat 64 (w % 2 ^ nbits / 2 ^ 32))

end Sys2Proof.Machine
end

