-- ==== Sys2Proof/Machine/Step.lean ====
section
/-!
DEFINITION. One step: the block takes the host's next input, a command to its response (R11, R55) or a reset (R150).
-/

namespace Sys2Proof.Machine

/-- One step. With nothing presented the block waits and its state stays as it is (R12, log entry 2). A reset abandons
the command in progress: it produces no response and nothing of it survives (R152). -/
def step (s : State) : Host.Outcome State Fault Refusal :=
  match s.input with
  | [] => .next s
  | .reset _ :: rest => .next (s.setInput rest).resetBlock
  | .command w d :: rest =>
    match fetchCommand w d with
    | .ok i => exec i (s.setInput rest)
    | .error _ => raiseIllegal w (s.setInput rest)

/-- `s` with the instruction whose bits are `w` presented as the next command. -/
def State.withFetchWord (s : State) (nbits w : Nat) : State := s.setInput (presentedWord nbits w :: s.input)

end Sys2Proof.Machine
end

