-- ==== Sys2Proof/Machine/Chunk.lean ====
section
/-!
DEFINITION. The document's chunk form of the codec (R50), the second form of `Geom.splice` and `Geom.gather` (R48, R49):
the value is cut into one chunk for the first byte, full 8-bit chunks and a remainder chunk. No command uses it; a
statement says that it agrees with the per-bit form.
-/

namespace Sys2Proof.Machine

/-- One chunk: the byte it goes into, the lowest place it takes there, how many digits it has, and the significance of
its least significant digit in the value. -/
structure Chunk where
  byte : Nat
  place : Nat
  width : Nat
  weight : Nat
deriving DecidableEq, Repr

/-- The digits of the first chunk: min(LEN, room) (R50). -/
def Geom.first (g : Geom) : Nat := min g.len g.room
/-- The digits after the first chunk. -/
def Geom.rest (g : Geom) : Nat := g.len - g.first
/-- The number of full chunks. -/
def Geom.full (g : Geom) : Nat := g.rest / 8
/-- The digits of the remainder chunk. -/
def Geom.rem (g : Geom) : Nat := g.rest % 8

/-- The chunks in the order of their bytes (R50): Motorola cuts from the most significant end, Intel from the least. -/
def Geom.chunks (g : Geom) : List Chunk :=
  match g.layout with
  | .motorola =>
    [{ byte := g.byteIndex, place := g.bitIndex + 1 - g.first, width := g.first, weight := g.len - g.first }]
      ++ (List.range g.full).map
          (fun n => { byte := g.byteIndex + n + 1, place := 0, width := 8, weight := g.len - g.first - 8 * (n + 1) })
      ++ (if g.rem > 0 then
            [{ byte := g.byteIndex + g.full + 1, place := 8 - g.rem, width := g.rem, weight := 0 }]
          else [])
  | .intel =>
    [{ byte := g.byteIndex, place := g.bitIndex, width := g.first, weight := 0 }]
      ++ (List.range g.full).map
          (fun n => { byte := g.byteIndex + n + 1, place := 0, width := 8, weight := g.first + 8 * n })
      ++ (if g.rem > 0 then
            [{ byte := g.byteIndex + g.full + 1, place := 0, width := g.rem, weight := g.first + 8 * g.full }]
          else [])

/-- The digits of a chunk, as a number. -/
def Chunk.digits (c : Chunk) (v : Nat) : Nat := v / 2 ^ c.weight % 2 ^ c.width

/-- The places of a chunk, set. -/
def Chunk.mask (c : Chunk) : Byte := BitVec.ofNat 8 ((2 ^ c.width - 1) * 2 ^ c.place)

/-- A byte with a chunk spliced in: the chunk's places take its digits, the others keep their bits. -/
def Chunk.splice (c : Chunk) (v : Nat) (old : Byte) : Byte :=
  (old &&& ~~~ c.mask) ||| BitVec.ofNat 8 (c.digits v * 2 ^ c.place)

/-- The insert of R50: every chunk spliced into its byte, in order. -/
def chunkInsert (m : List Host.Cell) (g : Geom) (v : BitVec 64) : List Host.Cell :=
  g.chunks.foldl (fun m c => memSet m c.byte (c.splice v.toNat (memByte m c.byte))) m

/-- The extract that mirrors it: the chunks put together as an unsigned number. -/
def chunkExtract (byte : Nat → Byte) (g : Geom) : Nat :=
  (g.chunks.map (fun c => (byte c.byte).toNat / 2 ^ c.place % 2 ^ c.width * 2 ^ c.weight)).sum

end Sys2Proof.Machine
end

