-- ==== Sys2Proof/WellFormed.lean ====
section
/-!
DEFINITION. Which commands have legal operands whatever the state (R69). Every term of `Instr` is encodable and
decodes back, so this is no condition of the encoder: a command that fails a check here still decodes to itself and
its own rule raises the fault. The checks are those that need no state: `len`, the width of a `SETD` value, the byte
of `WRB`, the register number and value of `WRCR` and `RDCR`, the geometry word and the field selector. Slot numbers,
buffer indices and the fit of a field depend on the state and are not checked here.
-/

namespace Sys2Proof

/-- `bit_length` is 1 to 64 (R29, R63). -/
def lenLegal (len : BitVec 7) : Bool := decide (1 ≤ len.toNat ∧ len.toNat ≤ 64)

/-- The value is at most 2^len - 1 (R81 line 2). -/
def valueFits (len : BitVec 7) (value : Data) : Bool := decide (value.toNat ≤ 2 ^ len.toNat - 1)

/-- Bits 63:8 of a `WRB` operand are zero (R65, R120). -/
def byteLegal (data : Data) : Bool := decide (data.toNat ≤ 255)

/-- The control register exists (R26). -/
def crReadable (cr : BitVec 9) : Bool := decide (cr.toNat ≤ 3)

/-- The control register may be written with this value (R26, R122). -/
def crWritable (cr : BitVec 9) (value : Data) : Bool :=
  match cr.toNat with
  | 0 => decide (1 ≤ value.toNat ∧ value.toNat ≤ 64)
  | 1 => decide (value.toNat < 2 ^ 32)
  | 2 => true
  | _ => false

/-- Bits 63:18 of a geometry word are zero and its `LEN` is 1 to 64 (R65, R95). -/
def geomLegal (geom : Data) : Bool := decide (geom.toNat < 2 ^ 18) && lenLegal (geom.extractLsb' 9 7)

/-- The selector names a field `SIGWR` can write (R73). -/
def fldWritable (fld : BitVec 4) : Bool := decide (1 ≤ fld.toNat ∧ fld.toNat ≤ 5)

/-- The selector names a field `SIGRD` can read (R73). -/
def fldReadable (fld : BitVec 4) : Bool := decide (fld.toNat ≤ 7)

/-- The command's operands are legal whatever the state (R69). -/
def Instr.wellFormed : Instr → Bool
  | .setd _ len _ value => lenLegal len && valueFits len value
  | .getd _ len _ => lenLegal len
  | .wrb _ data => byteLegal data
  | .rdb _ => true
  | .wrcr cr value => crWritable cr value
  | .rdcr cr => crReadable cr
  | .sigdef _ geom => geomLegal geom
  | .sigwr fld _ _ => fldWritable fld
  | .sigrd fld _ => fldReadable fld
  | .setv _ _ => true
  | .setp _ _ => true
  | .upds => true
  | .updr => true
  | .chkm _ => true
  | .rstd => true

end Sys2Proof
end

