-- ==== Sys2Proof/Safety.lean ====
section
/-!
DEFINITION. The terms the statements use: the invariant of the block (R38), fault-free runs (R12, R140), the bits a field
covers, the finite intermediates of a conversion, the table of R132, and the states that differ only in what no command
may read.
-/

namespace Sys2Proof.Machine

/-! ## Fields -/

/-- The field has a length of 1 to 64 (R29). -/
abbrev Geom.legal (g : Geom) : Prop := 1 ≤ g.len ∧ g.len ≤ 64

/-- Some signal bit of the field stands at place `j` of byte `k` (R46). -/
abbrev Geom.covers (g : Geom) (k j : Nat) : Prop := ∃ i, i < g.len ∧ g.pos i = (k, j)

/-- No two bits of the two fields share a place (R54). -/
def Geom.disjoint (g h : Geom) : Prop := ∀ k j, ¬ (g.covers k j ∧ h.covers k j)

/-! ## Conversions -/

/-- The rounded sum `Scale` truncates (R91). -/
def scaledSum (raw : BitVec 64) (factor offset : F64) : F64 := fadd (fmul (f64OfU64 raw) factor) offset

/-- The product and the sum of `Scale` are finite (R91). -/
def scaleFinite (raw : BitVec 64) (factor offset : F64) : Bool :=
  F64.isFinite (fmul (f64OfU64 raw) factor) && F64.isFinite (scaledSum raw factor offset)

/-- The rounded quotient `Unscale` truncates (R92). -/
def quotient (p factor offset : F64) : F64 := fdiv (fsub p offset) factor

/-- The operand, the difference and the quotient of `Unscale` are finite, and the factor is not zero (R92). -/
def unscaleFinite (p factor offset : F64) : Bool :=
  F64.isFinite p && !F64.isZero factor && F64.isFinite (fsub p offset) && F64.isFinite (quotient p factor offset)

/-! ## The invariant (R38) -/

/-- `PHYS` and `RAW` agree in one of the two ways of R34. Which command wrote `PHYS` last is no state of the block, so
the clause on the last writer is not part of this (log entry 8). -/
abbrev Slot.consistent (g : Slot) : Prop :=
  scale g.raw g.factor g.offset = .ok g.phys ∨ unscale g.phys g.factor g.offset g.len.toNat = .ok g.raw

/-- What holds of a valid slot at every command boundary (R38). -/
abbrev Slot.inv (g : Slot) : Prop :=
  g.valid = true →
    1 ≤ g.len.toNat ∧ g.len.toNat ≤ 64 ∧ g.raw.toNat ≤ 2 ^ g.len.toNat - 1 ∧ g.dflt.toNat ≤ 2 ^ g.len.toNat - 1 ∧
    F64.isFinite g.factor = true ∧ F64.isFinite g.offset = true ∧ F64.isFinite g.min = true ∧
    F64.isFinite g.max = true ∧ F64.isFinite g.phys = true ∧ g.consistent

/-- What holds of `FSR`: the bits that read as zero are zero (R38), no code above 8 (R131), and `MULTI` only beside a
recorded cause (R134). -/
abbrev fsrInv (f : BitVec 64) : Prop :=
  f &&& fsrReservedMask = 0#64 ∧ (fsrCause f).toNat ≤ 8 ∧ (fsrMulti f = true → fsrCause f ≠ 0#4)

/-- What holds of the block at every command boundary (R38), with the canonical form of the buffer's cells, the cells
that exist (R21) and the size of the table (R10). -/
abbrev State.inv (s : State) : Prop :=
  Memory.wf s.buf ∧ Memory.inRange s.buf ∧ 1 ≤ s.blen.toNat ∧ s.blen.toNat ≤ 64 ∧
  1 ≤ s.sig.length ∧ s.sig.length ≤ Config.nsigMax ∧ fsrInv s.fsr ∧ ∀ g ∈ s.sig, g.inv

/-! ## Safe runs -/

/-- No fault is recorded (R140). -/
abbrev State.noFaultRecorded (s : State) : Prop := fsrCause s.fsr = 0#4

/-- The host presents exactly these commands, and no reset among them. -/
def presented (cs : List (CmdWord × Data)) : List HostInput := cs.map (fun c => .command c.1 c.2)

/-! ## Commands and causes -/

/-- The codes of the causes as the table gives them (R131). -/
def causeNumber : Cause → Nat
  | .index => 1
  | .range => 2
  | .id => 3
  | .byte => 4
  | .lookup => 5
  | .operand => 6
  | .numeric => 7
  | .illegal => 8

/-- Which command can raise which cause (R132). -/
def canRaise : Instr → Cause → Bool
  | .setd _ _ _ _, c => c = .index ∨ c = .operand
  | .getd _ _ _, c => c = .index ∨ c = .operand
  | .sigdef _ _, c => c = .lookup ∨ c = .operand
  | .sigwr _ _ _, c => c = .range ∨ c = .lookup ∨ c = .operand ∨ c = .numeric
  | .sigrd _ _, c => c = .lookup ∨ c = .operand
  | .setv _ _, c => c = .range ∨ c = .lookup ∨ c = .numeric
  | .setp _ _, c => c = .range ∨ c = .lookup ∨ c = .numeric
  | .upds, c => c = .index
  | .updr, c => c = .index ∨ c = .numeric
  | .chkm _, c => c = .id
  | .rstd, c => c = .numeric
  | .wrb _ _, c => c = .index ∨ c = .byte
  | .rdb _, c => c = .index
  | .wrcr _ _, c => c = .operand
  | .rdcr _, c => c = .operand

/-- The commands that work on one object, whose every fault leaves all state but `FSR` as it was (R135). -/
def worksOnOneObject : Instr → Bool
  | .setd _ _ _ _ => false
  | .getd _ _ _ => true
  | .wrb _ _ => true
  | .rdb _ => true
  | .wrcr _ _ => true
  | .rdcr _ => true
  | .sigdef _ _ => true
  | .sigwr _ _ _ => true
  | .sigrd _ _ => true
  | .setv _ _ => true
  | .setp _ _ => true
  | .upds => false
  | .updr => false
  | .chkm _ => true
  | .rstd => false

/-! ## What no command reads -/

/-- The state with every sign flag cleared: two states that are equal after this differ at most in sign flags. -/
def State.eraseSign (s : State) : State := { s with sig := s.sig.map (fun g => { g with isSign := false }) }

/-- The state with every `MIN` and `MAX` at +0.0. -/
def State.eraseBounds (s : State) : State :=
  { s with sig := s.sig.map (fun g => { g with min := 0#64, max := 0#64 }) }

end Sys2Proof.Machine
end

