-- ==== Sys2Proof/Certificates/Slice0/Obligations.lean ====
section
/-!
DEFINITION. The statements for the provers, in the order of OBLIGATIONS.json. `exec i s = .next t` with `t` written out
says both what the command changes and that it changes nothing else (its frame): every field that is not named is that
of `s`.
-/

open Sys2Proof Sys2Proof.Machine

/-! ## Encoding -/

/-- R62 to R64: a command decodes back from its word and data operand, every operand at every value its field can carry. -/
def Obligations.DecodeOfEncode : Prop :=
  ∀ i : Instr, decode (encodeWord i) (encodeData i) = .ok i

/-- R62 to R64: a word that decodes to a command is the word of that command, so no word has two readings and no bit of
a decoded word is dropped. -/
def Obligations.EncodeOfDecode : Prop :=
  ∀ (w : CmdWord) (d : Data) (i : Instr), decode w d = .ok i → encodeWord i = w

/-- R64, R70: a word decodes exactly if it matches a row of the opcode table, the row is the decoded command's, and at
most one row matches. -/
def Obligations.DecodeAgreesWithMatchMask : Prop :=
  (∀ (w : CmdWord) (d : Data) (i : Instr), decode w d = .ok i → i.row ∈ rows ∧ spells w i.row = true) ∧
  (∀ (w : CmdWord) (d : Data), (∃ r ∈ rows, spells w r = true) → ∃ i, decode w d = .ok i) ∧
  (∀ w : CmdWord, (rows.filter (spells w)).length ≤ 1)

/-- R67, R68: a word that matches no row is rejected by name, as a reserved bit where its opcode is one of the fifteen
and as an undefined opcode where it is not. -/
def Obligations.UnspelledWordsRejectedByName : Prop :=
  ∀ (w : CmdWord) (d : Data), (∀ r ∈ rows, spells w r = false) →
    decode w d =
      .error (if wordOp w ∈ [0x01#8, 0x02#8, 0x10#8, 0x11#8, 0x18#8, 0x19#8, 0x20#8, 0x21#8, 0x22#8, 0x28#8, 0x29#8,
                             0x30#8, 0x31#8, 0x32#8, 0x33#8]
              then .reservedBits (wordOp w) else .undefinedOpcode (wordOp w))

/-- R60, U4: the eight commands without a data operand, and `WRCR` of `FSR`, ignore `cmd_data`. -/
def Obligations.DataOperandIgnored : Prop :=
  ∀ (d d' : Data) (s : State),
    (∀ start len io, decode (encodeWord (.getd start len io)) d = .ok (.getd start len io)) ∧
    (∀ idx, decode (encodeWord (.rdb idx)) d = .ok (.rdb idx)) ∧
    (∀ cr, decode (encodeWord (.rdcr cr)) d = .ok (.rdcr cr)) ∧
    (∀ fld slot, decode (encodeWord (.sigrd fld slot)) d = .ok (.sigrd fld slot)) ∧
    decode (encodeWord .upds) d = .ok .upds ∧
    decode (encodeWord .updr) d = .ok .updr ∧
    (∀ b, decode (encodeWord (.chkm b)) d = .ok (.chkm b)) ∧
    decode (encodeWord .rstd) d = .ok .rstd ∧
    exec (.wrcr 2#9 d) s = exec (.wrcr 2#9 d') s

/-- R62 to R64: words written out in the spec's examples decode to the commands they stand for. -/
def Obligations.SampleWordsDecode : Prop :=
  decode 0x01001803#32 0xABC#64 = .ok (.setd 3#9 12#7 .motorola 0xABC#64) ∧
  decode 0x02011804#32 0#64 = .ok (.getd 4#9 12#7 .intel) ∧
  decode 0x10000008#32 0#64 = .ok (.wrb 8#9 0#64) ∧
  decode 0x1100003F#32 0#64 = .ok (.rdb 63#9) ∧
  decode 0x18000001#32 0x64#64 = .ok (.wrcr 1#9 0x64#64) ∧
  decode 0x19000003#32 0#64 = .ok (.rdcr 3#9) ∧
  decode 0x20000005#32 0x22027#64 = .ok (.sigdef 5#9 0x22027#64) ∧
  decode 0x21100001#32 0x3FB999999999999A#64 = .ok (.sigwr 1#4 1#9 0x3FB999999999999A#64) ∧
  decode 0x22700000#32 0#64 = .ok (.sigrd 7#4 0#9) ∧
  decode 0x28000003#32 1#64 = .ok (.setv 3#9 1#64) ∧
  decode 0x29000000#32 0x4029000000000000#64 = .ok (.setp 0#9 0x4029000000000000#64) ∧
  decode 0x30000000#32 0#64 = .ok .upds ∧
  decode 0x31000000#32 0#64 = .ok .updr ∧
  decode 0x32000001#32 0#64 = .ok (.chkm true) ∧
  decode 0x33000000#32 0#64 = .ok .rstd ∧
  decode 0x01020000#32 0#64 = .error (.reservedBits 0x01#8) ∧
  decode 0x10100000#32 0#64 = .error (.reservedBits 0x10#8) ∧
  decode 0x30000001#32 0#64 = .error (.reservedBits 0x30#8) ∧
  decode 0xFFFFFFFF#32 0#64 = .error (.undefinedOpcode 0xFF#8)

/-! ## Steps, reset and runs -/

/-- A step at a state whose next input spells a command is that command's execution, once the input is taken. -/
def Obligations.StepRunsDecodedCommand : Prop :=
  ∀ (s : State) (w : CmdWord) (d : Data) (rest : List HostInput) (i : Instr),
    s.input = .command w d :: rest → decode w d = .ok i → step s = exec i { s with input := rest }

/-- R67, R68, R133: a word that spells no command is answered with `IllegalCommand`, index 0 and the word's own top byte,
and has no other effect. -/
def Obligations.StepOnIllegalWord : Prop :=
  ∀ (s : State) (w : CmdWord) (d : Data) (rest : List HostInput) (e : Illegal),
    s.input = .command w d :: rest → decode w d = .error e →
    ∃ t, step s = .next t ∧
      t = { s with input := rest, fsr := t.fsr,
                   output := s.output ++ [{ fault := true, cause := 8#4,
                                            data := BitVec.ofNat 64 (8 + w.toNat / 2 ^ 24 * 2 ^ 8) }] } ∧
      t.fsr = if s.fsr.extractLsb' 0 4 = 0#4 then BitVec.ofNat 64 (8 + w.toNat / 2 ^ 24 * 2 ^ 8)
              else s.fsr ||| 0x80000000#64

/-- R150, R152: a reset gives every piece of state its reset value, abandons the command in progress without a response,
and leaves the number of slots. -/
def Obligations.StepOnReset : Prop :=
  ∀ (s : State) (c : Option (CmdWord × Data)) (rest : List HostInput), s.input = .reset c :: rest →
    ∃ t, step s = .next t ∧ (∀ k, t.byte k = 0#8) ∧ t.blen = 8#7 ∧ t.msgid = 0#32 ∧ t.fsr = 0#64 ∧
      t.sig = List.replicate s.sig.length emptySlot ∧ t.output = s.output ∧ t.input = rest

/-- MODEL'S CHOICE (log entry 2): with nothing presented a step changes nothing. -/
def Obligations.StepIdlesWithoutInput : Prop :=
  ∀ s : State, s.input = [] → step s = .next s

/-- R37: the reset values, for a block of any number of slots. -/
def Obligations.ResetValues : Prop :=
  ∀ n : Nat, n ≤ 512 →
    (∀ k, (State.resetOf n).byte k = 0x00#8) ∧ (State.resetOf n).blen = 8#7 ∧ (State.resetOf n).msgid = 0#32 ∧
    (State.resetOf n).fsr = 0#64 ∧ (State.resetOf n).caps.toNat = n + 64 * 2 ^ 16 + 0x10 * 2 ^ 24 ∧
    (State.resetOf n).sig.length = n ∧
    ∀ g ∈ (State.resetOf n).sig,
      g.valid = false ∧ g.start = 0#9 ∧ g.len = 0#7 ∧ g.layout.bit = 0#1 ∧ g.isSign = false ∧ g.factor = 0#64 ∧
      g.offset = 0#64 ∧ g.min = 0#64 ∧ g.max = 0#64 ∧ g.dflt = 0#64 ∧ g.raw = 0#64 ∧ g.phys = 0#64

/-- R38: the invariant holds after reset, for every legal number of slots. -/
def Obligations.ResetMeetsInvariant : Prop :=
  (∀ n : Nat, 1 ≤ n → n ≤ 512 → (State.resetOf n).inv) ∧ State.reset.inv

/-- R38: every step keeps the invariant, from every state that meets it and whatever the host presents. -/
def Obligations.StepKeepsInvariant : Prop :=
  ∀ s t : State, s.inv → step s = .next t → t.inv

/-- R56, R61, R164: the commands presented have exactly one response each, in command order. For every `k` up to their
number, `k` steps end in a next state in which the first `k` commands are taken, the others are still presented, and the
first `k` of the responses are added after the earlier ones. So step `k + 1` takes the command at place `k` and adds the
response at place `k`. -/
def Obligations.RunAnswersEveryCommand : Prop :=
  ∀ (s : State) (cs : List (CmdWord × Data)), s.input = presented cs →
    ∃ rs : List Response, rs.length = cs.length ∧
      ∀ k, k ≤ cs.length →
        ∃ t : State, Host.Core.run core k s = .next t ∧ t.input = presented (cs.drop k) ∧
          t.output = s.output ++ rs.take k

/-- R140: over a run that starts with no fault recorded and in which the host does not write `FSR`, `FSR.CAUSE` is 0 at
the end exactly if no response was a fault. -/
def Obligations.CauseZeroIffRunFaultFree : Prop :=
  ∀ (s t : State) (cs : List (CmdWord × Data)), s.input = presented cs → s.noFaultRecorded →
    (∀ c ∈ cs, ∀ v, decode c.1 c.2 ≠ .ok (.wrcr 2#9 v)) → Host.Core.run core cs.length s = .next t →
    (t.noFaultRecorded ↔ ∀ r ∈ t.output.drop s.output.length, r.fault = false)

/-! ## Fields of the buffer -/

/-- R46: the two layouts in the document's words. Intel: the least significant bit is at `START` and each more
significant bit is one place higher, after place 7 place 0 of the next byte. Motorola: the most significant bit is at
`START` and each less significant bit is one place lower, after place 0 place 7 of the next byte. -/
def Obligations.PosFollowsTheLayouts : Prop :=
  ∀ g : Geom, g.legal →
    (∀ i, (g.pos i).2 < 8) ∧
    (g.layout = .intel → g.pos 0 = (g.start / 8, g.start % 8) ∧
      ∀ i, i + 1 < g.len → g.pos (i + 1) =
        if (g.pos i).2 < 7 then ((g.pos i).1, (g.pos i).2 + 1) else ((g.pos i).1 + 1, 0)) ∧
    (g.layout = .motorola → g.pos (g.len - 1) = (g.start / 8, g.start % 8) ∧
      ∀ i, i + 1 < g.len → g.pos i =
        if 0 < (g.pos (i + 1)).2 then ((g.pos (i + 1)).1, (g.pos (i + 1)).2 - 1) else ((g.pos (i + 1)).1 + 1, 7)) ∧
    (∀ i j, i < g.len → j < g.len → g.pos i = g.pos j → i = j)

/-- R47: the span is the set of bytes `Pos` returns, a run of consecutive indices from `byte_index`, and the two ways of
counting its bytes agree. -/
def Obligations.SpanIsTheBytesOfPos : Prop :=
  ∀ g : Geom, g.legal →
    (∀ k, k ∈ g.span ↔ ∃ i, i < g.len ∧ (g.pos i).1 = k) ∧
    (∀ k, k ∈ g.span ↔ g.byteIndex ≤ k ∧ k ≤ g.byteIndex + g.nbytes - 1) ∧
    (g.layout = .intel → g.nbytes = (g.bitIndex + g.len + 7) / 8) ∧
    (g.layout = .motorola → g.nbytes = ((7 - g.bitIndex) + g.len + 7) / 8) ∧
    g.nbytes = (if g.len ≤ g.room then 1 else 1 + (g.len - g.room + 7) / 8)

/-- R51: a field that exactly fills the room of its first byte touches that byte only, so that in the last byte of the
message it fits, and a field one bit larger touches exactly one byte more. -/
def Obligations.RoomBoundary : Prop :=
  ∀ g : Geom, g.legal →
    (g.len = g.room → g.span = [g.byteIndex] ∧ ∀ blen, g.byteIndex + 1 = blen → g.fits blen = true) ∧
    (g.len = g.room + 1 → g.span = [g.byteIndex, g.byteIndex + 1])

/-- R50: the document's chunk form takes the same bytes in the same order and equals the per-bit form bit for bit, for
the insert and for the extract. -/
def Obligations.ChunkFormAgreesWithPos : Prop :=
  ∀ (g : Geom) (v : BitVec 64), g.legal → v.toNat ≤ 2 ^ g.len - 1 →
    g.chunks.map Chunk.byte = g.span ∧
    (∀ m : List Host.Cell, chunkInsert m g v = insertCells m g v (fun _ => true)) ∧
    (∀ byte : Nat → Byte, chunkExtract byte g = (g.gather byte).toNat)

/-! ## SETD and GETD -/

/-- R81, R84: `SETD` of a legal value into a field that fits completes, puts bit `i` of the value at `Pos i`, keeps every
other bit of the buffer, and changes nothing else. -/
def Obligations.SetdWritesExactlyTheField : Prop :=
  ∀ (s : State) (start : BitVec 9) (len : BitVec 7) (io : Layout) (value : Data),
    1 ≤ len.toNat → len.toNat ≤ 64 → value.toNat ≤ 2 ^ len.toNat - 1 →
    (codecGeom start len io).fits s.blen.toNat = true →
    ∃ t, exec (.setd start len io value) s = .next t ∧
      t = { s with buf := t.buf, output := s.output ++ [{ fault := false, cause := 0#4, data := 0#64 }] } ∧
      (∀ i, i < len.toNat →
        (t.byte ((codecGeom start len io).pos i).1).getLsbD ((codecGeom start len io).pos i).2 = value.getLsbD i) ∧
      (∀ k j, ¬ (codecGeom start len io).covers k j → (t.byte k).getLsbD j = (s.byte k).getLsbD j) ∧
      (∀ k, k ∉ (codecGeom start len io).span → t.byte k = s.byte k)

/-- R84: two `SETD` to disjoint sets of bit positions commute. -/
def Obligations.DisjointSetdCommute : Prop :=
  ∀ (s : State) (a b : BitVec 9) (la lb : BitVec 7) (ioa iob : Layout) (va vb : Data),
    Memory.wf s.buf → 1 ≤ la.toNat → la.toNat ≤ 64 → 1 ≤ lb.toNat → lb.toNat ≤ 64 →
    va.toNat ≤ 2 ^ la.toNat - 1 → vb.toNat ≤ 2 ^ lb.toNat - 1 →
    (codecGeom a la ioa).fits s.blen.toNat = true → (codecGeom b lb iob).fits s.blen.toNat = true →
    (codecGeom a la ioa).disjoint (codecGeom b lb iob) →
    ∃ t u v, exec (.setd a la ioa va) s = .next t ∧ exec (.setd b lb iob vb) t = .next v ∧
      exec (.setd b lb iob vb) s = .next u ∧ exec (.setd a la ioa va) u = .next v

/-- R81 lines 1 and 2: a length outside 1 to 64, or a value wider than the length, is refused before the buffer is
looked at. -/
def Obligations.SetdRefusesIllegalOperands : Prop :=
  ∀ (s : State) (start : BitVec 9) (len : BitVec 7) (io : Layout) (value : Data),
    (len.toNat = 0 ∨ 64 < len.toNat ∨ 2 ^ len.toNat - 1 < value.toNat) →
    exec (.setd start len io value) s = .next (s.takeFault 0x01#8 .operand 0#9)

/-- R86: after the `IndexFault` of an insert every span byte below `BLEN` holds its old value or the one the insert would
have given it, and every byte outside the span and every byte at or above `BLEN` is unchanged. The statement holds for
every draw of the free value. -/
def Obligations.SetdIndexFaultLeavesOldOrNew : Prop :=
  ∀ (s : State) (start : BitVec 9) (len : BitVec 7) (io : Layout) (value : Data),
    1 ≤ len.toNat → len.toNat ≤ 64 → value.toNat ≤ 2 ^ len.toNat - 1 →
    (codecGeom start len io).fits s.blen.toNat = false →
    ∃ t, exec (.setd start len io value) s = .next t ∧
      t = { s with buf := t.buf, fsr := recordFault s.fsr (faultInfo 0x01#8 .index 0#9),
                   output := s.output ++ [faultResponse 0x01#8 .index 0#9], draws := s.draws + 1 } ∧
      (∀ k ∈ (codecGeom start len io).span, k < s.blen.toNat →
        t.byte k = s.byte k ∨ t.byte k = (codecGeom start len io).splice value k (s.byte k)) ∧
      (∀ k, k ∉ (codecGeom start len io).span ∨ s.blen.toNat ≤ k → t.byte k = s.byte k)

/-- R82: `GETD` refuses a length outside 1 to 64; of a field that fits it completes with the value whose bit `i` is the
bit at `Pos i`, zero above the length, and changes nothing else; of a field that does not fit it raises `IndexFault`. -/
def Obligations.GetdReadsTheField : Prop :=
  ∀ (s : State) (start : BitVec 9) (len : BitVec 7) (io : Layout),
    (len.toNat = 0 ∨ 64 < len.toNat → exec (.getd start len io) s = .next (s.takeFault 0x02#8 .operand 0#9)) ∧
    (1 ≤ len.toNat → len.toNat ≤ 64 → (codecGeom start len io).fits s.blen.toNat = true →
      ∃ v : Data, exec (.getd start len io) s =
          .next { s with output := s.output ++ [{ fault := false, cause := 0#4, data := v }] } ∧
        ∀ i, v.getLsbD i =
          (decide (i < len.toNat) &&
            (s.byte ((codecGeom start len io).pos i).1).getLsbD ((codecGeom start len io).pos i).2)) ∧
    (1 ≤ len.toNat → len.toNat ≤ 64 → (codecGeom start len io).fits s.blen.toNat = false →
      exec (.getd start len io) s = .next (s.takeFault 0x02#8 .index 0#9))

/-- R83: what a successful `SETD` puts into a field, `GETD` of the same field returns, from any content of the buffer. -/
def Obligations.SetdGetdRoundTrip : Prop :=
  ∀ (s : State) (start : BitVec 9) (len : BitVec 7) (io : Layout) (value : Data),
    1 ≤ len.toNat → len.toNat ≤ 64 → value.toNat ≤ 2 ^ len.toNat - 1 →
    (codecGeom start len io).fits s.blen.toNat = true →
    ∃ t, exec (.setd start len io value) s = .next t ∧
      exec (.getd start len io) t =
        .next { t with output := t.output ++ [{ fault := false, cause := 0#4, data := value }] }

/-! ## WRB, RDB, WRCR and RDCR -/

/-- R120: `WRB` refuses a value above 255, even at an index that does not exist, then an index at or above `BLEN`; else it
completes, the byte at the index is the value, and no other byte and no other state changes. -/
def Obligations.WrbStoresOneByte : Prop :=
  ∀ (s : State) (idx : BitVec 9) (d : Data),
    (255 < d.toNat → exec (.wrb idx d) s = .next (s.takeFault 0x10#8 .byte idx)) ∧
    (d.toNat ≤ 255 → s.blen.toNat ≤ idx.toNat → exec (.wrb idx d) s = .next (s.takeFault 0x10#8 .index idx)) ∧
    (d.toNat ≤ 255 → idx.toNat < s.blen.toNat →
      ∃ t, exec (.wrb idx d) s = .next t ∧
        t = { s with buf := t.buf, output := s.output ++ [{ fault := false, cause := 0#4, data := 0#64 }] } ∧
        (t.byte idx.toNat).toNat = d.toNat ∧ ∀ k, k ≠ idx.toNat → t.byte k = s.byte k)

/-- R121: `RDB` returns the byte, zero-extended, or raises `IndexFault` at or above `BLEN`; it changes nothing else. -/
def Obligations.RdbReturnsTheByte : Prop :=
  ∀ (s : State) (idx : BitVec 9),
    exec (.rdb idx) s =
      .next (if idx.toNat < s.blen.toNat then
               { s with output := s.output ++ [{ fault := false, cause := 0#4, data := (s.byte idx.toNat).setWidth 64 }] }
             else s.takeFault 0x11#8 .index idx)

/-- R122: what `WRCR` does for every register number and every value: `BLEN` takes 1 to 64, `MSGID` any 32-bit value,
`FSR` is cleared whatever the data, and every other number or value is refused. No buffer cell changes. -/
def Obligations.WrcrWritesItsRegister : Prop :=
  ∀ (s : State) (cr : BitVec 9) (v : Data),
    exec (.wrcr cr v) s =
      .next (if cr = 0#9 ∧ 1 ≤ v.toNat ∧ v.toNat ≤ 64 then
               { s with blen := BitVec.ofNat 7 v.toNat, output := s.output ++ [{ fault := false, cause := 0#4, data := 0#64 }] }
             else if cr = 1#9 ∧ v.toNat < 2 ^ 32 then
               { s with msgid := BitVec.ofNat 32 v.toNat, output := s.output ++ [{ fault := false, cause := 0#4, data := 0#64 }] }
             else if cr = 2#9 then
               { s with fsr := 0#64, output := s.output ++ [{ fault := false, cause := 0#4, data := 0#64 }] }
             else s.takeFault 0x18#8 .operand cr)

/-- R123: `RDCR` returns `BLEN`, `MSGID`, `FSR` or `CAPS`, zero-extended, and refuses any other number; it changes nothing
else, `FSR` among it. -/
def Obligations.RdcrReturnsItsRegister : Prop :=
  ∀ (s : State) (cr : BitVec 9),
    exec (.rdcr cr) s =
      .next (if cr = 0#9 then
               { s with output := s.output ++ [{ fault := false, cause := 0#4, data := BitVec.ofNat 64 s.blen.toNat }] }
             else if cr = 1#9 then
               { s with output := s.output ++ [{ fault := false, cause := 0#4, data := BitVec.ofNat 64 s.msgid.toNat }] }
             else if cr = 2#9 then
               { s with output := s.output ++ [{ fault := false, cause := 0#4, data := s.fsr }] }
             else if cr = 3#9 then
               { s with output := s.output ++ [{ fault := false, cause := 0#4, data := s.caps }] }
             else s.takeFault 0x19#8 .operand cr)

/-- R25: the capability word of a block with at most 512 slots, all its other bits zero; a `WRCR` to it is refused, and
no step changes it. -/
def Obligations.CapsIsConstant : Prop :=
  (∀ s : State, s.sig.length ≤ 512 → s.caps.toNat = s.sig.length + 64 * 2 ^ 16 + 0x10 * 2 ^ 24) ∧
  (∀ (s : State) (v : Data), exec (.wrcr 3#9 v) s = .next (s.takeFault 0x18#8 .operand 3#9)) ∧
  (∀ s t : State, step s = .next t → t.caps = s.caps)

/-- R21: no command writes a cell at or above `BLEN`. -/
def Obligations.HiddenCellsUntouched : Prop :=
  ∀ (i : Instr) (s t : State), exec i s = .next t → ∀ k, s.blen.toNat ≤ k → t.byte k = s.byte k

/-- R21: no command reads a cell at or above `BLEN`: two states that differ only there go on to states that differ only
there, with the same response. -/
def Obligations.HiddenCellsUnread : Prop :=
  ∀ (i : Instr) (s : State) (m : List Host.Cell), (∀ k, k < s.blen.toNat → memByte m k = s.byte k) →
    ∃ t u, exec i s = .next t ∧ exec i { s with buf := m } = .next u ∧ u = { t with buf := u.buf } ∧
      ∀ k, k < s.blen.toNat → u.byte k = t.byte k

/-! ## SIGDEF, SIGWR, SIGRD, SETV and SETP -/

/-- R95: `SIGDEF` refuses a slot that does not exist, then a geometry word with a reserved bit or an illegal length; else
it completes and overwrites every field of the slot, the geometry from the data operand and neutral scaling, and no other
slot and no other state. -/
def Obligations.SigdefDefinesTheSlot : Prop :=
  ∀ (s : State) (slot : BitVec 9) (d : Data),
    exec (.sigdef slot d) s =
      .next (if s.sig.length ≤ slot.toNat then s.takeFault 0x20#8 .lookup slot
             else if 2 ^ 18 ≤ d.toNat ∨ d.toNat / 2 ^ 9 % 2 ^ 7 = 0 ∨ 64 < d.toNat / 2 ^ 9 % 2 ^ 7 then
               s.takeFault 0x20#8 .operand slot
             else
               { s with
                 sig := s.sig.set slot.toNat
                   { valid := true, start := BitVec.ofNat 9 d.toNat, len := BitVec.ofNat 7 (d.toNat / 2 ^ 9),
                     layout := if d.getLsbD 16 then .intel else .motorola, isSign := d.getLsbD 17,
                     factor := 0x3FF0000000000000#64, offset := 0#64, min := 0#64, max := 0#64, dflt := 0#64,
                     raw := 0#64, phys := 0#64 },
                 output := s.output ++ [{ fault := false, cause := 0#4, data := 0#64 }] })

/-- R96: `SIGWR` of a legal value into a valid slot completes: `FACTOR` and `OFFSET` take the value and `PHYS` is computed
again from `RAW`, `MIN`, `MAX` and `DEFAULT` take the value. No other field, slot or state changes. -/
def Obligations.SigwrWritesTheField : Prop :=
  ∀ (s : State) (slot : BitVec 9) (v : Data) (g : Slot), s.sig[slot.toNat]? = some g → g.valid = true →
    (F64.isFinite v = true → scaleFinite g.raw v g.offset = true →
      exec (.sigwr 1#4 slot v) s =
        .next { s with sig := s.sig.set slot.toNat { g with factor := v, phys := ftrunc (scaledSum g.raw v g.offset) },
                       output := s.output ++ [{ fault := false, cause := 0#4, data := 0#64 }] }) ∧
    (F64.isFinite v = true → scaleFinite g.raw g.factor v = true →
      exec (.sigwr 2#4 slot v) s =
        .next { s with sig := s.sig.set slot.toNat { g with offset := v, phys := ftrunc (scaledSum g.raw g.factor v) },
                       output := s.output ++ [{ fault := false, cause := 0#4, data := 0#64 }] }) ∧
    (F64.isFinite v = true →
      exec (.sigwr 3#4 slot v) s =
        .next { s with sig := s.sig.set slot.toNat { g with min := v },
                       output := s.output ++ [{ fault := false, cause := 0#4, data := 0#64 }] }) ∧
    (F64.isFinite v = true →
      exec (.sigwr 4#4 slot v) s =
        .next { s with sig := s.sig.set slot.toNat { g with max := v },
                       output := s.output ++ [{ fault := false, cause := 0#4, data := 0#64 }] }) ∧
    (v.toNat ≤ 2 ^ g.len.toNat - 1 →
      exec (.sigwr 5#4 slot v) s =
        .next { s with sig := s.sig.set slot.toNat { g with dflt := v },
                       output := s.output ++ [{ fault := false, cause := 0#4, data := 0#64 }] })

/-- R96: the faults of `SIGWR` in their order: the selector, the slot (R101), a non-finite operand, an overflow of the
scaling, a default that does not fit. -/
def Obligations.SigwrFaultsInOrder : Prop :=
  ∀ (s : State) (fld : BitVec 4) (slot : BitVec 9) (v : Data),
    (fld.toNat = 0 ∨ 5 < fld.toNat → exec (.sigwr fld slot v) s = .next (s.takeFault 0x21#8 .operand slot)) ∧
    (∀ g : Slot, 1 ≤ fld.toNat → fld.toNat ≤ 4 → s.sig[slot.toNat]? = some g → g.valid = true → F64.isFinite v = false →
      exec (.sigwr fld slot v) s = .next (s.takeFault 0x21#8 .numeric slot)) ∧
    (∀ g : Slot, s.sig[slot.toNat]? = some g → g.valid = true → F64.isFinite v = true → scaleFinite g.raw v g.offset = false →
      exec (.sigwr 1#4 slot v) s = .next (s.takeFault 0x21#8 .numeric slot)) ∧
    (∀ g : Slot, s.sig[slot.toNat]? = some g → g.valid = true → F64.isFinite v = true → scaleFinite g.raw g.factor v = false →
      exec (.sigwr 2#4 slot v) s = .next (s.takeFault 0x21#8 .numeric slot)) ∧
    (∀ g : Slot, s.sig[slot.toNat]? = some g → g.valid = true → 2 ^ g.len.toNat - 1 < v.toNat →
      exec (.sigwr 5#4 slot v) s = .next (s.takeFault 0x21#8 .range slot))

/-- R97: `SIGRD` refuses a selector above 7, then a slot that does not exist or is not valid; of a valid slot it returns
the selected field, the geometry as the word `ISSIGN ++ INTEL ++ LEN ++ START`, and changes nothing else. -/
def Obligations.SigrdReturnsTheField : Prop :=
  ∀ (s : State) (fld : BitVec 4) (slot : BitVec 9),
    (7 < fld.toNat → exec (.sigrd fld slot) s = .next (s.takeFault 0x22#8 .operand slot)) ∧
    (fld.toNat ≤ 7 → (∀ g : Slot, s.sig[slot.toNat]? = some g → g.valid = false) →
      exec (.sigrd fld slot) s = .next (s.takeFault 0x22#8 .lookup slot)) ∧
    (∀ g : Slot, s.sig[slot.toNat]? = some g → g.valid = true → fld.toNat ≤ 7 →
      exec (.sigrd fld slot) s =
        .next { s with output := s.output ++
          [{ fault := false, cause := 0#4,
             data := match fld.toNat with
               | 0 => BitVec.ofNat 64 (g.start.toNat + g.len.toNat * 2 ^ 9 +
                        (if g.layout = .intel then 2 ^ 16 else 0) + (if g.isSign then 2 ^ 17 else 0))
               | 1 => g.factor
               | 2 => g.offset
               | 3 => g.min
               | 4 => g.max
               | 5 => g.dflt
               | 6 => g.raw
               | _ => g.phys }] })

/-- R101: a command that names an existing slot raises `LookupFault` with the slot's number where the slot does not exist
or is not valid, once its field selector has passed. -/
def Obligations.MissingSlotRaisesLookupFault : Prop :=
  ∀ (s : State) (slot : BitVec 9), (s.sig.length ≤ slot.toNat ∨ ∃ g : Slot, s.sig[slot.toNat]? = some g ∧ g.valid = false) →
    (∀ fld v, 1 ≤ fld.toNat → fld.toNat ≤ 5 →
      exec (.sigwr fld slot v) s = .next (s.takeFault 0x21#8 .lookup slot)) ∧
    (∀ fld, fld.toNat ≤ 7 → exec (.sigrd fld slot) s = .next (s.takeFault 0x22#8 .lookup slot)) ∧
    (∀ raw, exec (.setv slot raw) s = .next (s.takeFault 0x28#8 .lookup slot)) ∧
    (∀ p, exec (.setp slot p) s = .next (s.takeFault 0x29#8 .lookup slot))

/-- R91, R98: `SETV` raises `LookupFault` where the slot does not exist or is not valid, then `RangeFault` for a value
that does not fit, then `NumericFault` if the product or the sum is not finite. Else it completes: `RAW` is the operand
and `PHYS` the truncated sum, and no other field, slot or state changes. -/
def Obligations.SetvStoresRawAndScaled : Prop :=
  ∀ (s : State) (slot : BitVec 9) (raw : Data),
    ((∀ g : Slot, s.sig[slot.toNat]? = some g → g.valid = false) →
      exec (.setv slot raw) s = .next (s.takeFault 0x28#8 .lookup slot)) ∧
    (∀ g : Slot, s.sig[slot.toNat]? = some g → g.valid = true →
      exec (.setv slot raw) s =
        .next (if 2 ^ g.len.toNat - 1 < raw.toNat then s.takeFault 0x28#8 .range slot
               else if F64.isFinite (fmul (f64OfU64 raw) g.factor) = false then s.takeFault 0x28#8 .numeric slot
               else if F64.isFinite (fadd (fmul (f64OfU64 raw) g.factor) g.offset) = false then
                 s.takeFault 0x28#8 .numeric slot
               else
                 { s with
                   sig := s.sig.set slot.toNat
                     { g with raw := raw, phys := ftrunc (fadd (fmul (f64OfU64 raw) g.factor) g.offset) },
                   output := s.output ++ [{ fault := false, cause := 0#4, data := 0#64 }] }))

/-- R92, R99: `SETP` raises `LookupFault` where the slot does not exist or is not valid, then `NumericFault` for a
non-finite operand, a zero factor or a non-finite difference or quotient, then `RangeFault` where the truncated quotient
is negative or above 2^LEN - 1. Else it completes: `RAW` is the truncated quotient and `PHYS` the operand, bit for bit,
and no other field, slot or state changes. -/
def Obligations.SetpStoresQuotientAndOperand : Prop :=
  ∀ (s : State) (slot : BitVec 9) (p : F64),
    ((∀ g : Slot, s.sig[slot.toNat]? = some g → g.valid = false) →
      exec (.setp slot p) s = .next (s.takeFault 0x29#8 .lookup slot)) ∧
    (∀ g : Slot, s.sig[slot.toNat]? = some g → g.valid = true →
      exec (.setp slot p) s =
        .next (if F64.isFinite p = false ∨ F64.isZero g.factor = true then s.takeFault 0x29#8 .numeric slot
               else if F64.isFinite (fsub p g.offset) = false then s.takeFault 0x29#8 .numeric slot
               else if F64.isFinite (fdiv (fsub p g.offset) g.factor) = false then s.takeFault 0x29#8 .numeric slot
               else if intOfF64 (fdiv (fsub p g.offset) g.factor) < 0 ∨
                   2 ^ g.len.toNat - 1 < intOfF64 (fdiv (fsub p g.offset) g.factor) then
                 s.takeFault 0x29#8 .range slot
               else
                 { s with
                   sig := s.sig.set slot.toNat
                     { g with raw := BitVec.ofInt 64 (intOfF64 (fdiv (fsub p g.offset) g.factor)), phys := p },
                   output := s.output ++ [{ fault := false, cause := 0#4, data := 0#64 }] }))

/-- R100: after a successful `SETP`, `SIGRD PHYS` returns the operand bit for bit and `SIGRD RAW` what `Unscale` gives. -/
def Obligations.SetpReadsBack : Prop :=
  ∀ (s t : State) (slot : BitVec 9) (p : F64), exec (.setp slot p) s = .next t →
    t.output = s.output ++ [{ fault := false, cause := 0#4, data := 0#64 }] →
    ∃ (g : Slot) (r : BitVec 64), s.sig[slot.toNat]? = some g ∧ unscale p g.factor g.offset g.len.toNat = .ok r ∧
      exec (.sigrd 7#4 slot) t = .next { t with output := t.output ++ [{ fault := false, cause := 0#4, data := p }] } ∧
      exec (.sigrd 6#4 slot) t = .next { t with output := t.output ++ [{ fault := false, cause := 0#4, data := r }] }

/-! ## Numerics -/

/-- R90: `rne(r)` is the `f64` nearest `r`, a tie going to the one with an even last fraction bit, and it is the infinity
of the sign of `r` exactly when |r| is at least 2^1024 - 2^970. The value of a pattern, `F64.real`, is IEEE 754 binary64's
(log entry 17). -/
def Obligations.RneIsNearest : Prop :=
  ∀ r : ℚ,
    (F64.isFinite (rne r) = true ↔ |r| < 2 ^ 1024 - 2 ^ 970) ∧
    (F64.isFinite (rne r) = false → rne r = if r < 0 then 0xFFF0000000000000#64 else 0x7FF0000000000000#64) ∧
    (F64.isFinite (rne r) = true → ∀ y : F64, F64.isFinite y = true →
      |F64.real (rne r) - r| ≤ |F64.real y - r| ∧
      (|F64.real y - r| = |F64.real (rne r) - r| → F64.real y ≠ F64.real (rne r) → (rne r).getLsbD 0 = false))

/-- R90: truncation is exact: the value of `ftrunc(x)` is the integer part of `x` toward zero, it is finite, and it is
+0.0 when that is 0. The value of a pattern is IEEE 754 binary64's (log entry 17). -/
def Obligations.FtruncIsExact : Prop :=
  ∀ x : F64, F64.isFinite x = true →
    F64.isFinite (ftrunc x) = true ∧ F64.real (ftrunc x) = (intOfF64 x : ℚ) ∧
    |F64.real (ftrunc x)| ≤ |F64.real x| ∧ |F64.real x - F64.real (ftrunc x)| < 1 ∧
    (intOfF64 x = 0 → ftrunc x = 0#64)

/-- R90: the conversion of a raw value is exact below 2^53 and always finite. The value of a pattern is IEEE 754
binary64's (log entry 17). -/
def Obligations.RawConversionExactBelow2p53 : Prop :=
  ∀ n : BitVec 64,
    F64.isFinite (f64OfU64 n) = true ∧ (n.toNat < 2 ^ 53 → F64.real (f64OfU64 n) = (n.toNat : ℚ))

/-! ## UPDS, UPDR, CHKM and RSTD -/

/-- R111, R54: `UPDS` completes when every valid slot fits. Each signal bit of a valid slot is in the buffer, at its place,
unless a higher valid slot covers that place, whose bit is there then; every place no valid slot covers keeps its bit; and
nothing else changes. -/
def Obligations.UpdsEncodesEverySlot : Prop :=
  ∀ s : State, (∀ g ∈ s.sig, g.valid = true → g.geom.fits s.blen.toNat = true) →
    ∃ t, exec .upds s = .next t ∧
      t = { s with buf := t.buf, output := s.output ++ [{ fault := false, cause := 0#4, data := 0#64 }] } ∧
      (∀ (n : Nat) (g : Slot) (i : Nat), s.sig[n]? = some g → g.valid = true → i < g.len.toNat →
        (∀ (m : Nat) (h : Slot), n < m → s.sig[m]? = some h → h.valid = true → ¬ h.geom.covers (g.geom.pos i).1 (g.geom.pos i).2) →
        (t.byte (g.geom.pos i).1).getLsbD (g.geom.pos i).2 = g.raw.getLsbD i) ∧
      (∀ k j, (∀ g ∈ s.sig, g.valid = true → ¬ g.geom.covers k j) → (t.byte k).getLsbD j = (s.byte k).getLsbD j) ∧
      (∀ k, (∀ g ∈ s.sig, g.valid = true → k ∉ g.geom.span) → t.byte k = s.byte k)

/-- R110, R111, R86: `UPDS` stops at the first valid slot that does not fit, with its number: the buffer holds the inserts
of the slots below it, its own in-range span bytes old or new, and nothing of the slots above it. -/
def Obligations.UpdsStopsAtFirstMisfit : Prop :=
  ∀ (s : State) (n : Nat) (g : Slot), n < 512 → s.sig[n]? = some g → g.valid = true →
    g.geom.fits s.blen.toNat = false → (∀ h ∈ s.sig.take n, h.valid = true → h.geom.fits s.blen.toNat = true) →
    ∃ u t, forValidSlots encodeSlot (List.range n) s = .respond 0#64 u ∧ exec .upds s = .next t ∧
      t = { s with buf := t.buf, fsr := recordFault s.fsr (faultInfo 0x30#8 .index (BitVec.ofNat 9 n)),
                   output := s.output ++ [faultResponse 0x30#8 .index (BitVec.ofNat 9 n)], draws := s.draws + 1 } ∧
      (∀ k ∈ g.geom.span, k < s.blen.toNat → t.byte k = u.byte k ∨ t.byte k = g.geom.splice g.raw k (u.byte k)) ∧
      (∀ k, k ∉ g.geom.span ∨ s.blen.toNat ≤ k → t.byte k = u.byte k)

/-- R112: `UPDR` completes when every valid slot fits and its scaled value is finite: each valid slot takes the value
`ExtractField` reads as `RAW` and the truncated scaled value as `PHYS`, and nothing else changes. -/
def Obligations.UpdrDecodesEverySlot : Prop :=
  ∀ s : State,
    (∀ g ∈ s.sig, g.valid = true →
      g.geom.fits s.blen.toNat = true ∧ scaleFinite (g.geom.gather s.byte) g.factor g.offset = true) →
    ∃ t, exec .updr s = .next t ∧
      t = { s with sig := t.sig, output := s.output ++ [{ fault := false, cause := 0#4, data := 0#64 }] } ∧
      t.sig.length = s.sig.length ∧
      ∀ (n : Nat) (g : Slot), s.sig[n]? = some g → t.sig[n]? = some
        (if g.valid then
           { g with raw := g.geom.gather s.byte,
                    phys := ftrunc (scaledSum (g.geom.gather s.byte) g.factor g.offset) }
         else g)

/-- R110, R112: `UPDR` stops at the first valid slot that does not fit (`IndexFault`) or whose scaled value is not finite
(`NumericFault`), with its number: the slots below it have their new values, it and the slots above it are unchanged. -/
def Obligations.UpdrStopsAtFirstFault : Prop :=
  ∀ (s : State) (n : Nat) (g : Slot), n < 512 → s.sig[n]? = some g → g.valid = true →
    (g.geom.fits s.blen.toNat = false ∨ scaleFinite (g.geom.gather s.byte) g.factor g.offset = false) →
    (∀ h ∈ s.sig.take n, h.valid = true →
      h.geom.fits s.blen.toNat = true ∧ scaleFinite (h.geom.gather s.byte) h.factor h.offset = true) →
    ∃ t c, exec .updr s = .next t ∧ c = (if g.geom.fits s.blen.toNat then Cause.numeric else Cause.index) ∧
      t = { s with sig := t.sig, fsr := recordFault s.fsr (faultInfo 0x31#8 c (BitVec.ofNat 9 n)),
                   output := s.output ++ [faultResponse 0x31#8 c (BitVec.ofNat 9 n)] } ∧
      t.sig.drop n = s.sig.drop n ∧
      ∀ (m : Nat) (h : Slot), m < n → s.sig[m]? = some h → t.sig[m]? = some
        (if h.valid then
           { h with raw := h.geom.gather s.byte,
                    phys := ftrunc (scaledSum (h.geom.gather s.byte) h.factor h.offset) }
         else h)

/-- R114: `RSTD` completes when the scaled default of every valid slot is finite: each valid slot takes its default as
`RAW` and the truncated scaled default as `PHYS`, and nothing else changes, the buffer among it. -/
def Obligations.RstdRestoresEverySlot : Prop :=
  ∀ s : State, (∀ g ∈ s.sig, g.valid = true → scaleFinite g.dflt g.factor g.offset = true) →
    ∃ t, exec .rstd s = .next t ∧
      t = { s with sig := t.sig, output := s.output ++ [{ fault := false, cause := 0#4, data := 0#64 }] } ∧
      t.sig.length = s.sig.length ∧
      ∀ (n : Nat) (g : Slot), s.sig[n]? = some g → t.sig[n]? = some
        (if g.valid then { g with raw := g.dflt, phys := ftrunc (scaledSum g.dflt g.factor g.offset) } else g)

/-- R110, R114: `RSTD` stops at the first valid slot whose scaled default is not finite, with its number: the slots below
it are restored, it and the slots above it are unchanged. -/
def Obligations.RstdStopsAtFirstOverflow : Prop :=
  ∀ (s : State) (n : Nat) (g : Slot), n < 512 → s.sig[n]? = some g → g.valid = true →
    scaleFinite g.dflt g.factor g.offset = false →
    (∀ h ∈ s.sig.take n, h.valid = true → scaleFinite h.dflt h.factor h.offset = true) →
    ∃ t, exec .rstd s = .next t ∧
      t = { s with sig := t.sig, fsr := recordFault s.fsr (faultInfo 0x33#8 .numeric (BitVec.ofNat 9 n)),
                   output := s.output ++ [faultResponse 0x33#8 .numeric (BitVec.ofNat 9 n)] } ∧
      t.sig.drop n = s.sig.drop n ∧
      ∀ (m : Nat) (h : Slot), m < n → s.sig[m]? = some h → t.sig[m]? = some
        (if h.valid then { h with raw := h.dflt, phys := ftrunc (scaledSum h.dflt h.factor h.offset) } else h)

/-- R113: `CHKM` succeeds exactly if the identifier is at most 0x7FF, with either flag, and else raises `IdFault`; it never
raises `ByteFault` and changes nothing else. -/
def Obligations.ChkmChecksTheIdentifier : Prop :=
  ∀ (s : State) (flag : Bool),
    exec (.chkm flag) s =
      .next (if s.msgid.toNat ≤ 0x7FF then
               { s with output := s.output ++ [{ fault := false, cause := 0#4, data := 0#64 }] }
             else s.takeFault 0x32#8 .id 0#9)

/-- R158, R33: in a message without overlapping signals whose slots all fit, `UPDS` and then `UPDR` give every signal back
its raw value. -/
def Obligations.UpdsThenUpdrKeepsRaw : Prop :=
  ∀ s : State, s.inv →
    (∀ g ∈ s.sig, g.valid = true →
      g.geom.fits s.blen.toNat = true ∧ scaleFinite g.raw g.factor g.offset = true) →
    (∀ (n m : Nat) (g h : Slot), n ≠ m → s.sig[n]? = some g → s.sig[m]? = some h → g.valid = true → h.valid = true →
      g.geom.disjoint h.geom) →
    ∃ t u, exec .upds s = .next t ∧ exec .updr t = .next u ∧ u.sig.map Slot.raw = s.sig.map Slot.raw

/-! ## Faults and what holds of every command -/

/-- R61, R131, R133, R134: every command presented is taken and answered with exactly one response. A success has no
cause and leaves `FSR`, except that `WRCR` of `FSR` (the word 0x18000002) clears it. A fault, and `IllegalCommand` in
place of a command, has its cause's code and the information word with the opcode byte the word carried, which `FSR` takes
if no fault was recorded; if one was, `FSR` keeps it and sets `MULTI`. -/
def Obligations.ResponseAndRecordOfEveryCommand : Prop :=
  ∀ (s : State) (w : CmdWord) (d : Data) (rest : List HostInput), s.input = .command w d :: rest →
    ∃ t r, step s = .next t ∧ t.input = rest ∧ t.output = s.output ++ [r] ∧
      ((r.fault = false ∧ r.cause = 0#4 ∧ t.fsr = (if w = 0x18000002#32 then 0#64 else s.fsr)) ∨
       (r.fault = true ∧ ∃ (c : Cause) (idx : BitVec 9),
         (c = .illegal ↔ ∀ i, decode w d ≠ .ok i) ∧ (c = .illegal → idx = 0#9) ∧
         r.cause = BitVec.ofNat 4 (causeNumber c) ∧
         r.data = BitVec.ofNat 64 (causeNumber c + w.toNat / 2 ^ 24 * 2 ^ 8 + idx.toNat * 2 ^ 16) ∧
         t.fsr = (if s.fsr.extractLsb' 0 4 = 0#4 then r.data else s.fsr ||| 0x80000000#64)))

/-- R132: a command raises only the causes the table gives it, and never `IllegalCommand`; and every cause the table gives
a command, the command raises in some state that meets the invariant. -/
def Obligations.CausesEachCommandCanRaise : Prop :=
  (∀ (i : Instr) (s t : State) (c : Cause) (idx : BitVec 9), exec i s = .next t →
    t.output = s.output ++ [faultResponse i.opcode c idx] → canRaise i c = true) ∧
  (∀ (i : Instr) (c : Cause), canRaise i c = true → ∃ (j : Instr) (s t : State) (idx : BitVec 9),
    j.opcode = i.opcode ∧ s.inv ∧ exec j s = .next t ∧ t.output = s.output ++ [faultResponse j.opcode c idx])

/-- R135: a fault of a command on one object, and the `OperandFault` of `SETD`, leaves all state but `FSR` as it was. -/
def Obligations.FaultsArePrecise : Prop :=
  ∀ (i : Instr) (s t : State) (r : Response), exec i s = .next t → t.output = s.output ++ [r] → r.fault = true →
    (worksOnOneObject i = true ∨ r.cause = 6#4) → t = { s with fsr := t.fsr, output := t.output }

/-- R138: no command's behaviour depends on `FSR`; only `RDCR` of `FSR` returns it. -/
def Obligations.ExecIgnoresFaultRecord : Prop :=
  ∀ (i : Instr) (s : State) (f : BitVec 64), i ≠ .rdcr 2#9 →
    ∃ t f', exec i s = .next t ∧ exec i { s with fsr := f } = .next { t with fsr := f' }

/-- R93: the sign flag is read by nothing but `SIGRD` of the geometry: states that differ only in sign flags give the same
response and go on to states that differ only in sign flags. -/
def Obligations.SignFlagNeverRead : Prop :=
  ∀ (i : Instr) (s s' : State), s.eraseSign = s'.eraseSign → (∀ slot, i ≠ .sigrd 0#4 slot) →
    ∃ t t', exec i s = .next t ∧ exec i s' = .next t' ∧ t.eraseSign = t'.eraseSign

/-- R94: `MIN` and `MAX` are read by nothing but `SIGRD` of them. -/
def Obligations.BoundsNeverRead : Prop :=
  ∀ (i : Instr) (s s' : State), s.eraseBounds = s'.eraseBounds →
    (∀ slot, i ≠ .sigrd 3#4 slot) → (∀ slot, i ≠ .sigrd 4#4 slot) →
    ∃ t t', exec i s = .next t ∧ exec i s' = .next t' ∧ t.eraseBounds = t'.eraseBounds

/-- R39, R115: what each command may write. The buffer only `SETD`, `WRB`, `UPDS`; `BLEN` and `MSGID` only `WRCR`; slots
only the slot commands, `UPDR` and `RSTD`; in a slot the geometry only `SIGDEF`, the scaling fields and the default only
`SIGDEF` and `SIGWR`, the raw value not `SIGWR`. The model's count of draws (log entry 3) only `SETD` and `UPDS`. -/
def Obligations.WritesOfEachCommand : Prop :=
  ∀ (i : Instr) (s t : State), exec i s = .next t →
    (i.opcode ∉ [opSetd, opWrb, opUpds] → t.buf = s.buf) ∧
    (i.opcode ∉ [opSetd, opUpds] → t.draws = s.draws) ∧
    (i.opcode ≠ opWrcr → t.blen = s.blen ∧ t.msgid = s.msgid) ∧
    (i.opcode ∉ [opSigdef, opSigwr, opSetv, opSetp, opUpdr, opRstd] → t.sig = s.sig) ∧
    t.sig.length = s.sig.length ∧
    ∀ (n : Nat) (g h : Slot), s.sig[n]? = some g → t.sig[n]? = some h →
      (i.opcode ≠ opSigdef → h.valid = g.valid ∧ h.start = g.start ∧ h.len = g.len ∧ h.layout = g.layout ∧
        h.isSign = g.isSign) ∧
      (i.opcode ∉ [opSigdef, opSigwr] → h.factor = g.factor ∧ h.offset = g.offset ∧ h.min = g.min ∧ h.max = g.max ∧
        h.dflt = g.dflt) ∧
      (i.opcode = opSigwr → h.raw = g.raw)

/-- R69, R137: a command whose operands are legal whatever the state never raises `OperandFault` or `ByteFault`, and any
other command always faults, with one of these two or, ahead of the geometry word, `LookupFault`. -/
def Obligations.LegalOperandsNeverRejected : Prop :=
  ∀ (i : Instr) (s t : State), exec i s = .next t →
    (i.wellFormed = true → ∀ c idx, t.output = s.output ++ [faultResponse i.opcode c idx] → c ≠ .operand ∧ c ≠ .byte) ∧
    (i.wellFormed = false → ∃ c idx, t.output = s.output ++ [faultResponse i.opcode c idx] ∧
      (c = .operand ∨ c = .byte ∨ c = .lookup))

/-- R24, R131, R133, R134: the fault information word has the cause's code in bits 3:0, the opcode byte in 15:8 and the
index in 24:16, every other bit zero. Taking a fault answers with that word and records it, and changes nothing else: `FSR`
takes the word if no fault was recorded, and else keeps its fields and sets `MULTI`. Every command that ends in `raise`
takes the fault so. -/
def Obligations.FaultTakenReportsOpcodeAndIndex : Prop :=
  ∀ (s : State) (op : BitVec 8) (c : Cause) (idx : BitVec 9) (f : BitVec 64),
    faultInfo op c idx = BitVec.ofNat 64 (causeNumber c + op.toNat * 2 ^ 8 + idx.toNat * 2 ^ 16) ∧
    (faultInfo op c idx).extractLsb' 16 9 = idx ∧
    (faultInfo op c idx).extractLsb' 8 8 = op ∧
    (faultInfo op c idx).extractLsb' 0 4 = BitVec.ofNat 4 (causeNumber c) ∧
    faultResponse op c idx =
      { fault := true, cause := BitVec.ofNat 4 (causeNumber c),
        data := BitVec.ofNat 64 (causeNumber c + op.toNat * 2 ^ 8 + idx.toNat * 2 ^ 16) } ∧
    recordFault f (faultInfo op c idx) =
      (if f.extractLsb' 0 4 = 0#4 then BitVec.ofNat 64 (causeNumber c + op.toNat * 2 ^ 8 + idx.toNat * 2 ^ 16)
       else f ||| 0x80000000#64) ∧
    s.takeFault op c idx =
      { s with
        fsr := (if s.fsr.extractLsb' 0 4 = 0#4 then
                  BitVec.ofNat 64 (causeNumber c + op.toNat * 2 ^ 8 + idx.toNat * 2 ^ 16)
                else s.fsr ||| 0x80000000#64),
        output := s.output ++
          [{ fault := true, cause := BitVec.ofNat 4 (causeNumber c),
             data := BitVec.ofNat 64 (causeNumber c + op.toNat * 2 ^ 8 + idx.toNat * 2 ^ 16) }] } ∧
    complete op (.raise c idx s) = .next (s.takeFault op c idx)
end

