-- ==== Sys2Proof/Laws/Decode.lean ====
section
/-!
SUPPORT. The bits and the fields of an encoded word, one lemma per format.
-/

namespace Sys2Proof

/-- The bit of a layout is set exactly for Intel. -/
theorem getLsbD_bit (io : Layout) (i : Nat) : io.bit.getLsbD i = (decide (i = 0) && decide (io = .intel)) := by
  cases io <;> cases i <;> simp [Layout.bit]

/-- The bits of a format C word. -/
theorem formatC_getLsbD (op : BitVec 8) (io : Layout) (len : BitVec 7) (start : BitVec 9) (i : Nat) :
    (formatC op io len start).getLsbD i =
      if i < 9 then start.getLsbD i
      else if i < 16 then len.getLsbD (i - 9)
      else if i = 16 then decide (io = .intel)
      else if i < 24 then false
      else op.getLsbD (i - 24) := by
  have h : (formatC op io len start).getLsbD i = @BitVec.getLsbD (8 + 7 + 1 + 7 + 9) (op ++ 0#7 ++ io.bit ++ len ++ start) i := rfl
  rw [h]
  simp only [BitVec.getLsbD_append, getLsbD_bit, BitVec.getLsbD_zero, Nat.sub_sub]
  repeat' split
  all_goals first | rfl | omega | skip
  · rw [show i - 16 = 0 by omega]; simp

/-- The bits of a format X word. -/
theorem formatX_getLsbD (op : BitVec 8) (fld : BitVec 4) (idx : BitVec 9) (i : Nat) :
    (formatX op fld idx).getLsbD i =
      if i < 9 then idx.getLsbD i
      else if i < 20 then false
      else if i < 24 then fld.getLsbD (i - 20)
      else op.getLsbD (i - 24) := by
  have h : (formatX op fld idx).getLsbD i = @BitVec.getLsbD (8 + 4 + 11 + 9) (op ++ fld ++ 0#11 ++ idx) i := rfl
  rw [h]
  simp only [BitVec.getLsbD_append, BitVec.getLsbD_zero, Nat.sub_sub]
  repeat' split
  all_goals first | rfl | omega

/-- The bits of a format N word. -/
theorem formatN_getLsbD (op : BitVec 8) (flag : Bool) (i : Nat) :
    (formatN op flag).getLsbD i =
      if i = 0 then flag else if i < 24 then false else op.getLsbD (i - 24) := by
  have h : (formatN op flag).getLsbD i = @BitVec.getLsbD (8 + 23 + 1) (op ++ 0#23 ++ BitVec.ofBool flag) i := rfl
  rw [h]
  simp only [BitVec.getLsbD_append, BitVec.getLsbD_zero, Nat.sub_sub]
  repeat' split
  all_goals first | rfl | omega | skip
  · rw [show i = 0 by omega]; simp

/-- Every field of a format C word reads back. -/
theorem formatC_fields (op : BitVec 8) (io : Layout) (len : BitVec 7) (start : BitVec 9) :
    wordOp (formatC op io len start) = op ∧ wordStart (formatC op io len start) = start ∧
      wordLen (formatC op io len start) = len ∧ wordIo (formatC op io len start) = io ∧
      zeroC (formatC op io len start) = true := by
  refine ⟨?_, ?_, ?_, ?_, ?_⟩
  · apply BitVec.eq_of_getLsbD_eq; intro i hi
    simp only [wordOp, BitVec.getLsbD_extractLsb', formatC_getLsbD]
    interval_cases i <;> simp
  · apply BitVec.eq_of_getLsbD_eq; intro i hi
    simp only [wordStart, BitVec.getLsbD_extractLsb', formatC_getLsbD]
    interval_cases i <;> simp
  · apply BitVec.eq_of_getLsbD_eq; intro i hi
    simp only [wordLen, BitVec.getLsbD_extractLsb', formatC_getLsbD]
    interval_cases i <;> simp
  · simp only [wordIo, formatC_getLsbD]
    cases io <;> simp
  · unfold zeroC
    rw [beq_iff_eq]
    apply BitVec.eq_of_getLsbD_eq; intro i hi
    simp only [BitVec.getLsbD_extractLsb', formatC_getLsbD]
    interval_cases i <;> simp

/-- Every field of a format X word reads back. -/
theorem formatX_fields (op : BitVec 8) (fld : BitVec 4) (idx : BitVec 9) :
    wordOp (formatX op fld idx) = op ∧ wordFld (formatX op fld idx) = fld ∧ wordIdx (formatX op fld idx) = idx ∧
      zeroX (formatX op fld idx) = true := by
  refine ⟨?_, ?_, ?_, ?_⟩
  · apply BitVec.eq_of_getLsbD_eq; intro i hi
    simp only [wordOp, BitVec.getLsbD_extractLsb', formatX_getLsbD]
    interval_cases i <;> simp
  · apply BitVec.eq_of_getLsbD_eq; intro i hi
    simp only [wordFld, BitVec.getLsbD_extractLsb', formatX_getLsbD]
    interval_cases i <;> simp
  · apply BitVec.eq_of_getLsbD_eq; intro i hi
    simp only [wordIdx, BitVec.getLsbD_extractLsb', formatX_getLsbD]
    interval_cases i <;> simp
  · unfold zeroX
    rw [beq_iff_eq]
    apply BitVec.eq_of_getLsbD_eq; intro i hi
    simp only [BitVec.getLsbD_extractLsb', formatX_getLsbD]
    interval_cases i <;> simp

/-- Every field of a format N word reads back. -/
theorem formatN_fields (op : BitVec 8) (flag : Bool) :
    wordOp (formatN op flag) = op ∧ wordFlag (formatN op flag) = flag ∧ zeroN (formatN op flag) = true := by
  refine ⟨?_, ?_, ?_⟩
  · apply BitVec.eq_of_getLsbD_eq; intro i hi
    simp only [wordOp, BitVec.getLsbD_extractLsb', formatN_getLsbD]
    interval_cases i <;> simp
  · simp only [wordFlag, formatN_getLsbD, if_true]
  · unfold zeroN
    rw [beq_iff_eq]
    apply BitVec.eq_of_getLsbD_eq; intro i hi
    simp only [BitVec.getLsbD_extractLsb', formatN_getLsbD]
    interval_cases i <;> simp

end Sys2Proof
end

