-- ==== Sys2Proof/Laws/Memory.lean ====
section
/-!
SUPPORT. The buffer cells: reads after a write, the canonical form, and that two canonical lists with the same bytes are
equal.
-/

namespace Sys2Proof.Machine

@[simp] theorem memByte_nil (k : Nat) : memByte [] k = 0#8 := rfl

theorem memByte_memErase_self (m : List Host.Cell) (k : Nat) : memByte (memErase m k) k = unlistedByte := by
  induction m with
  | nil => rfl
  | cons c m ih =>
    obtain ⟨a, b⟩ := c
    by_cases h : a = k
    · simpa [memErase, h] using ih
    · simpa [memErase, memByte, h] using ih

theorem memByte_memErase_of_ne (m : List Host.Cell) (k n : Nat) (hn : n ≠ k) :
    memByte (memErase m k) n = memByte m n := by
  induction m with
  | nil => rfl
  | cons c m ih =>
    obtain ⟨a, b⟩ := c
    by_cases h : a = k
    · subst h
      simpa [memErase, memByte, Ne.symm hn] using ih
    · by_cases h' : a = n <;> simp [memErase, memByte, h, h', ih]
      subst h'; simp [hn, memByte]

theorem memByte_memInsert (m : List Host.Cell) (k n : Nat) (v : Byte) (hm : ∀ c ∈ m, c.1 ≠ k) :
    memByte (memInsert m k v) n = if n = k then v else memByte m n := by
  induction m with
  | nil =>
    by_cases h : n = k
    · simp [memInsert, memByte, h]
    · simp [memInsert, memByte, h, Ne.symm h]
  | cons c m ih =>
    obtain ⟨a, b⟩ := c
    have ha : a ≠ k := hm (a, b) (by simp)
    have ih' := ih (fun c hc => hm c (by simp [hc]))
    by_cases hlt : k < a
    · by_cases h : n = k
      · simp [memInsert, memByte, hlt, h]
      · simp [memInsert, memByte, hlt, h, Ne.symm h]
    · by_cases h : a = n
      · subst h; simp [memInsert, memByte, hlt, ha]
      · simp [memInsert, memByte, hlt, h, ih']

theorem fst_ne_of_mem_memErase (m : List Host.Cell) (k : Nat) : ∀ c ∈ memErase m k, c.1 ≠ k := by
  induction m with
  | nil => simp [memErase]
  | cons c m ih =>
    obtain ⟨a, b⟩ := c
    by_cases h : a = k
    · simpa [memErase, h] using ih
    · intro c hc
      simp only [memErase, h, if_false, List.mem_cons] at hc
      rcases hc with rfl | hc
      · exact h
      · exact ih c hc

/-- Every byte after a write: the written one at its address, the old one everywhere else. -/
theorem memByte_memSet (m : List Host.Cell) (k n : Nat) (v : Byte) :
    memByte (memSet m k v) n = if n = k then v else memByte m n := by
  by_cases hv : v = unlistedByte
  · by_cases h : n = k
    · subst h; simp [memSet, hv, memByte_memErase_self]
    · simp [memSet, hv, h, memByte_memErase_of_ne m k n h]
  · rw [memSet, if_neg hv, memByte_memInsert _ _ _ _ (fst_ne_of_mem_memErase m k)]
    by_cases h : n = k
    · simp [h]
    · simp [h, memByte_memErase_of_ne m k n h]

@[simp] theorem memByte_memSet_self (m : List Host.Cell) (k : Nat) (v : Byte) : memByte (memSet m k v) k = v := by
  simp [memByte_memSet]

theorem memByte_memSet_of_ne (m : List Host.Cell) (k n : Nat) (v : Byte) (h : n ≠ k) :
    memByte (memSet m k v) n = memByte m n := by
  simp [memByte_memSet, h]

theorem memErase_sublist (m : List Host.Cell) (k : Nat) : (memErase m k).Sublist m := by
  induction m with
  | nil => simp [memErase]
  | cons c m ih =>
    obtain ⟨a, b⟩ := c
    by_cases h : a = k
    · simpa [memErase, h] using ih.cons (a, b)
    · simpa [memErase, h] using ih.cons_cons (a, b)

theorem mem_memInsert (m : List Host.Cell) (k : Nat) (v : Byte) (c : Host.Cell) :
    c ∈ memInsert m k v ↔ c = (k, v) ∨ c ∈ m := by
  induction m with
  | nil => simp [memInsert]
  | cons d m ih =>
    obtain ⟨a, b⟩ := d
    by_cases hlt : k < a
    · simp [memInsert, hlt]
    · simp only [memInsert, hlt, if_false, List.mem_cons, ih]
      tauto

theorem memInsert_pairwise (m : List Host.Cell) (k : Nat) (v : Byte) (hm : ∀ c ∈ m, c.1 ≠ k)
    (hp : m.Pairwise (fun c d => c.1 < d.1)) : (memInsert m k v).Pairwise (fun c d => c.1 < d.1) := by
  induction m with
  | nil => simp [memInsert]
  | cons d m ih =>
    obtain ⟨a, b⟩ := d
    have hd := List.pairwise_cons.mp hp
    have ha : a ≠ k := hm (a, b) (by simp)
    by_cases hlt : k < a
    · simp only [memInsert, hlt, if_true]
      refine List.pairwise_cons.mpr ⟨?_, hp⟩
      intro c hc
      rcases List.mem_cons.mp hc with rfl | hc
      · exact hlt
      · exact lt_trans hlt (hd.1 c hc)
    · simp only [memInsert, hlt, if_false]
      refine List.pairwise_cons.mpr ⟨?_, ih (fun c hc => hm c (by simp [hc])) hd.2⟩
      intro c hc
      rcases (mem_memInsert m k v c).mp hc with rfl | hc
      · show a < k
        omega
      · exact hd.1 c hc

/-- A write keeps the canonical form. -/
theorem memSet_wf (m : List Host.Cell) (k : Nat) (v : Byte) (h : Memory.wf m) : Memory.wf (memSet m k v) := by
  have hs := memErase_sublist m k
  have hp : (memErase m k).Pairwise (fun c d => c.1 < d.1) := h.1.sublist hs
  have hz : ∀ c ∈ memErase m k, c.2 ≠ unlistedByte := fun c hc => h.2 c (hs.subset hc)
  by_cases hv : v = unlistedByte
  · rw [memSet, if_pos hv]
    exact ⟨hp, hz⟩
  · rw [memSet, if_neg hv]
    refine ⟨memInsert_pairwise _ _ _ (fst_ne_of_mem_memErase m k) hp, ?_⟩
    intro c hc
    rcases (mem_memInsert _ _ _ c).mp hc with rfl | hc
    · exact hv
    · exact hz c hc

/-- A write to a cell that exists lists only cells that exist. -/
theorem memSet_inRange (m : List Host.Cell) (k : Nat) (v : Byte) (h : Memory.inRange m) (hk : k < Config.bufMax) :
    Memory.inRange (memSet m k v) := by
  have hs := memErase_sublist m k
  intro c hc
  by_cases hv : v = unlistedByte
  · rw [memSet, if_pos hv] at hc
    exact h c (hs.subset hc)
  · rw [memSet, if_neg hv] at hc
    rcases (mem_memInsert _ _ _ c).mp hc with rfl | hc
    · exact hk
    · exact h c (hs.subset hc)

theorem memByte_of_mem (m : List Host.Cell) (hp : m.Pairwise (fun c d => c.1 < d.1)) (c : Host.Cell) (hc : c ∈ m) :
    memByte m c.1 = c.2 := by
  induction m with
  | nil => simp at hc
  | cons d m ih =>
    obtain ⟨a, b⟩ := d
    have hd := List.pairwise_cons.mp hp
    rcases List.mem_cons.mp hc with rfl | hc
    · simp [memByte]
    · have hlt : a < c.1 := hd.1 c hc
      simp only [memByte, hlt.ne, if_false]
      exact ih hd.2 hc

theorem memByte_eq_unlisted (m : List Host.Cell) (k : Nat) (h : ∀ c ∈ m, c.1 ≠ k) : memByte m k = unlistedByte := by
  induction m with
  | nil => rfl
  | cons d m ih =>
    obtain ⟨a, b⟩ := d
    have ha : a ≠ k := h (a, b) (by simp)
    simp only [memByte, ha, if_false]
    exact ih (fun c hc => h c (by simp [hc]))

/-- Two lists in canonical form with the same bytes are the same list. -/
theorem memory_ext (m n : List Host.Cell) (hm : Memory.wf m) (hn : Memory.wf n)
    (h : ∀ k, memByte m k = memByte n k) : m = n := by
  have key : ∀ (x y : List Host.Cell), Memory.wf x → Memory.wf y → (∀ k, memByte x k = memByte y k) →
      ∀ c ∈ x, c ∈ y := by
    intro x y hx hy hxy c hc
    have hb : memByte y c.1 = c.2 := (hxy c.1).symm.trans (memByte_of_mem x hx.1 c hc)
    by_contra hno
    have hmem : ∃ d ∈ y, d.1 = c.1 := by
      by_contra hall
      push Not at hall
      exact hx.2 c hc (hb.symm.trans (memByte_eq_unlisted y c.1 hall))
    obtain ⟨d, hd, hdc⟩ := hmem
    have : memByte y d.1 = d.2 := memByte_of_mem y hy.1 d hd
    rw [hdc, hb] at this
    exact hno (by rwa [show c = d from Prod.ext hdc.symm this])
  have hnd : ∀ x : List Host.Cell, Memory.wf x → x.Nodup := fun x hx =>
    hx.1.imp (fun {a b} hab heq => by rw [heq] at hab; exact lt_irrefl _ hab)
  have hperm : m.Perm n := (List.perm_ext_iff_of_nodup (hnd m hm) (hnd n hn)).mpr
    (fun c => ⟨key m n hm hn h c, key n m hn hm (fun k => (h k).symm) c⟩)
  exact hperm.eq_of_pairwise (fun a b _ _ hab hba => absurd hab (lt_asymm hba)) hm.1 hn.1

end Sys2Proof.Machine
end

