-- ==== Sys2Proof/Laws/Fields.lean ====
section
/-!
SUPPORT. The bits a field takes: what `setBit`, `Geom.pos`, `Geom.splice`, `Geom.gather` and `insertCells` do, one lemma
each, which later proofs cite instead of unfolding them.
-/

namespace Sys2Proof.Machine

/-- Replacing a bit changes that bit alone. -/
theorem getLsbD_setBit {w : Nat} (x : BitVec w) (j i : Nat) (b : Bool) :
    (setBit x j b).getLsbD i = if i = j ∧ i < w then b else x.getLsbD i := by
  cases b
  · simp only [setBit, Bool.false_eq_true, if_false, BitVec.getLsbD_and, BitVec.getLsbD_not, BitVec.getLsbD_twoPow]
    by_cases h : i = j
    · subst h
      by_cases h' : i < w
      · simp [h']
      · simp [h', BitVec.getLsbD_of_ge x i (by omega)]
    · by_cases h' : i < w
      · simp [h, h', Ne.symm h]
      · simp [h, h', BitVec.getLsbD_of_ge x i (by omega)]
  · simp only [setBit, if_true, BitVec.getLsbD_or, BitVec.getLsbD_twoPow]
    by_cases h : i = j
    · subst h
      by_cases h' : i < w
      · simp [h']
      · simp [h', BitVec.getLsbD_of_ge x i (by omega)]
    · simp [h, Ne.symm h]

/-- A position is one of the eight places of a byte. -/
theorem Geom.pos_lt_eight (g : Geom) (i : Nat) : (g.pos i).2 < 8 := by
  unfold Geom.pos
  cases g.layout <;> simp only <;> omega

/-- Different bits of a field have different positions. -/
theorem Geom.pos_injective (g : Geom) (i j : Nat) (hi : i < g.len) (hj : j < g.len) (h : g.pos i = g.pos j) :
    i = j := by
  unfold Geom.pos at h
  cases hl : g.layout <;> simp only [hl, Prod.mk.injEq] at h <;> omega

/-- The bytes of a field are those of its span. -/
theorem Geom.pos_mem_span (g : Geom) (i : Nat) (hi : i < g.len) : (g.pos i).1 ∈ g.span := by
  rw [Geom.span, List.mem_range'_1]
  unfold Geom.pos Geom.nbytes Geom.byteIndex Geom.bitIndex
  cases g.layout <;> simp only <;> omega

theorem Geom.fits_iff (g : Geom) (blen : Nat) : g.fits blen = true ↔ ∀ k ∈ g.span, k < blen := by
  simp [Geom.fits]

/-- A place that is no position of the field keeps its bit (R49). -/
theorem Geom.splice_uncovered (g : Geom) (v : BitVec 64) (k j : Nat) (old : Byte)
    (h : ∀ i, i < g.len → g.pos i ≠ (k, j)) : (g.splice v k old).getLsbD j = old.getLsbD j := by
  unfold Geom.splice
  have key : ∀ (l : List Nat) (x : Byte), (∀ i ∈ l, g.pos i ≠ (k, j)) →
      (l.foldl (fun new i => if (g.pos i).1 = k then setBit new (g.pos i).2 (v.getLsbD i) else new) x).getLsbD j
        = x.getLsbD j := by
    intro l
    induction l with
    | nil => intro x _; rfl
    | cons i l ih =>
      intro x hl
      rw [List.foldl_cons, ih _ (fun i hi => hl i (by simp [hi]))]
      by_cases hk : (g.pos i).1 = k
      · have hne : j ≠ (g.pos i).2 := fun hh => hl i (by simp) (Prod.ext hk hh.symm)
        simp [hk, getLsbD_setBit, hne]
      · simp [hk]
  exact key _ _ (fun i hi => h i (List.mem_range.mp hi))

/-- The place of signal bit `i` takes bit `i` of the value (R49). -/
theorem Geom.splice_covered (g : Geom) (v : BitVec 64) (k j i : Nat) (old : Byte) (hi : i < g.len)
    (h : g.pos i = (k, j)) : (g.splice v k old).getLsbD j = v.getLsbD i := by
  unfold Geom.splice
  have hj : j < 8 := by have := g.pos_lt_eight i; rw [h] at this; exact this
  have key : ∀ (n : Nat) (x : Byte), n ≤ g.len → i < n →
      ((List.range n).foldl (fun new i => if (g.pos i).1 = k then setBit new (g.pos i).2 (v.getLsbD i) else new)
        x).getLsbD j = v.getLsbD i := by
    intro n
    induction n with
    | zero => intro x _ h0; omega
    | succ n ih =>
      intro x hn hin
      rw [List.range_succ, List.foldl_append, List.foldl_cons, List.foldl_nil]
      by_cases hin' : i = n
      · subst hin'
        simp only [h, if_true, getLsbD_setBit, hj, and_self]
      · have hne : g.pos n ≠ (k, j) := fun hh =>
          hin' (g.pos_injective i n hi (by omega) (h.trans hh.symm))
        by_cases hk : (g.pos n).1 = k
        · have : j ≠ (g.pos n).2 := fun hh => hne (Prod.ext hk hh.symm)
          simp only [hk, if_true, getLsbD_setBit, this, false_and, if_false]
          exact ih x (by omega) (by omega)
        · simp only [hk, if_false]
          exact ih x (by omega) (by omega)
  exact key g.len old (le_refl _) hi

/-- Every bit of an extracted value (R48): the bit at its position below the length, zero above it. -/
theorem Geom.gather_getLsbD (g : Geom) (byte : Nat → Byte) (i : Nat) :
    (g.gather byte).getLsbD i =
      (decide (i < g.len ∧ i < 64) && (byte (g.pos i).1).getLsbD (g.pos i).2) := by
  unfold Geom.gather
  have key : ∀ n : Nat,
      ((List.range n).foldl (fun v i => setBit v i ((byte (g.pos i).1).getLsbD (g.pos i).2)) 0#64).getLsbD i =
        (decide (i < n ∧ i < 64) && (byte (g.pos i).1).getLsbD (g.pos i).2) := by
    intro n
    induction n with
    | zero => simp
    | succ n ih =>
      rw [List.range_succ, List.foldl_append, List.foldl_cons, List.foldl_nil, getLsbD_setBit, ih]
      by_cases h : i = n
      · subst h
        by_cases h64 : i < 64 <;> simp [h64]
      · have : (i < n + 1 ∧ i < 64) ↔ (i < n ∧ i < 64) := by omega
        simp only [h, false_and, if_false, this]
  exact key g.len

/-- An extracted value depends on the bytes of the span alone. -/
theorem Geom.gather_congr (g : Geom) (a b : Nat → Byte) (h : ∀ k ∈ g.span, a k = b k) : g.gather a = g.gather b := by
  apply BitVec.eq_of_getLsbD_eq
  intro i _
  rw [g.gather_getLsbD, g.gather_getLsbD]
  by_cases hi : i < g.len
  · rw [h _ (g.pos_mem_span i hi)]
  · simp [hi]

/-- Every byte after the span bytes that `writes` selects have taken their new values. -/
theorem memByte_insertCells (m : List Host.Cell) (g : Geom) (v : BitVec 64) (writes : Nat → Bool) (n : Nat) :
    memByte (insertCells m g v writes) n =
      if n ∈ g.span ∧ writes n = true then g.splice v n (memByte m n) else memByte m n := by
  unfold insertCells
  have key : ∀ (l : List Nat) (x : List Host.Cell), l.Nodup →
      memByte (l.foldl (fun m k => if writes k then memSet m k (g.splice v k (memByte m k)) else m) x) n =
        if n ∈ l ∧ writes n = true then g.splice v n (memByte x n) else memByte x n := by
    intro l
    induction l with
    | nil => intro x _; simp
    | cons k l ih =>
      intro x hl
      have hkl := List.nodup_cons.mp hl
      rw [List.foldl_cons, ih _ hkl.2]
      by_cases hk : n = k
      · subst hk
        by_cases hw : writes n = true <;> simp [hw, hkl.1]
      · by_cases hw : writes k = true <;> simp [hw, hk, memByte_memSet]
  exact key g.span m List.nodup_range'

/-- An insert keeps the canonical form of the cells. -/
theorem insertCells_wf (m : List Host.Cell) (g : Geom) (v : BitVec 64) (writes : Nat → Bool) (h : Memory.wf m) :
    Memory.wf (insertCells m g v writes) := by
  unfold insertCells
  generalize g.span = l
  induction l generalizing m with
  | nil => exact h
  | cons k l ih =>
    rw [List.foldl_cons]
    apply ih
    split
    · exact memSet_wf _ _ _ h
    · exact h

/-- An insert whose written bytes exist lists only cells that exist. -/
theorem insertCells_inRange (m : List Host.Cell) (g : Geom) (v : BitVec 64) (writes : Nat → Bool)
    (h : Memory.inRange m) (hw : ∀ k ∈ g.span, writes k = true → k < Config.bufMax) :
    Memory.inRange (insertCells m g v writes) := by
  unfold insertCells
  revert hw
  generalize g.span = l
  intro hw
  induction l generalizing m with
  | nil => exact h
  | cons k l ih =>
    rw [List.foldl_cons]
    refine ih _ ?_ (fun k hk => hw k (by simp [hk]))
    by_cases hk : writes k = true
    · rw [if_pos hk]
      exact memSet_inRange _ _ _ h (hw k (by simp) hk)
    · rw [if_neg hk]
      exact h

end Sys2Proof.Machine
end

