-- ==== Sys2Proof/Laws/State.lean ====
section
/-!
SUPPORT. One lemma per field per update of the state, so that no later proof unfolds a record update.
-/

namespace Sys2Proof.Machine

@[simp] theorem State.setBuf_buf (s : State) (m : List Host.Cell) : (s.setBuf m).buf = m := rfl
@[simp] theorem State.setBuf_blen (s : State) (m : List Host.Cell) : (s.setBuf m).blen = s.blen := rfl
@[simp] theorem State.setBuf_msgid (s : State) (m : List Host.Cell) : (s.setBuf m).msgid = s.msgid := rfl
@[simp] theorem State.setBuf_fsr (s : State) (m : List Host.Cell) : (s.setBuf m).fsr = s.fsr := rfl
@[simp] theorem State.setBuf_sig (s : State) (m : List Host.Cell) : (s.setBuf m).sig = s.sig := rfl
@[simp] theorem State.setBuf_input (s : State) (m : List Host.Cell) : (s.setBuf m).input = s.input := rfl
@[simp] theorem State.setBuf_output (s : State) (m : List Host.Cell) : (s.setBuf m).output = s.output := rfl
@[simp] theorem State.setBuf_draws (s : State) (m : List Host.Cell) : (s.setBuf m).draws = s.draws := rfl

@[simp] theorem State.setBlen_buf (s : State) (n : BitVec 7) : (s.setBlen n).buf = s.buf := rfl
@[simp] theorem State.setBlen_blen (s : State) (n : BitVec 7) : (s.setBlen n).blen = n := rfl
@[simp] theorem State.setBlen_msgid (s : State) (n : BitVec 7) : (s.setBlen n).msgid = s.msgid := rfl
@[simp] theorem State.setBlen_fsr (s : State) (n : BitVec 7) : (s.setBlen n).fsr = s.fsr := rfl
@[simp] theorem State.setBlen_sig (s : State) (n : BitVec 7) : (s.setBlen n).sig = s.sig := rfl
@[simp] theorem State.setBlen_input (s : State) (n : BitVec 7) : (s.setBlen n).input = s.input := rfl
@[simp] theorem State.setBlen_output (s : State) (n : BitVec 7) : (s.setBlen n).output = s.output := rfl
@[simp] theorem State.setBlen_draws (s : State) (n : BitVec 7) : (s.setBlen n).draws = s.draws := rfl

@[simp] theorem State.setMsgid_buf (s : State) (v : BitVec 32) : (s.setMsgid v).buf = s.buf := rfl
@[simp] theorem State.setMsgid_blen (s : State) (v : BitVec 32) : (s.setMsgid v).blen = s.blen := rfl
@[simp] theorem State.setMsgid_msgid (s : State) (v : BitVec 32) : (s.setMsgid v).msgid = v := rfl
@[simp] theorem State.setMsgid_fsr (s : State) (v : BitVec 32) : (s.setMsgid v).fsr = s.fsr := rfl
@[simp] theorem State.setMsgid_sig (s : State) (v : BitVec 32) : (s.setMsgid v).sig = s.sig := rfl
@[simp] theorem State.setMsgid_input (s : State) (v : BitVec 32) : (s.setMsgid v).input = s.input := rfl
@[simp] theorem State.setMsgid_output (s : State) (v : BitVec 32) : (s.setMsgid v).output = s.output := rfl
@[simp] theorem State.setMsgid_draws (s : State) (v : BitVec 32) : (s.setMsgid v).draws = s.draws := rfl

@[simp] theorem State.setFsr_buf (s : State) (f : BitVec 64) : (s.setFsr f).buf = s.buf := rfl
@[simp] theorem State.setFsr_blen (s : State) (f : BitVec 64) : (s.setFsr f).blen = s.blen := rfl
@[simp] theorem State.setFsr_msgid (s : State) (f : BitVec 64) : (s.setFsr f).msgid = s.msgid := rfl
@[simp] theorem State.setFsr_fsr (s : State) (f : BitVec 64) : (s.setFsr f).fsr = f := rfl
@[simp] theorem State.setFsr_sig (s : State) (f : BitVec 64) : (s.setFsr f).sig = s.sig := rfl
@[simp] theorem State.setFsr_input (s : State) (f : BitVec 64) : (s.setFsr f).input = s.input := rfl
@[simp] theorem State.setFsr_output (s : State) (f : BitVec 64) : (s.setFsr f).output = s.output := rfl
@[simp] theorem State.setFsr_draws (s : State) (f : BitVec 64) : (s.setFsr f).draws = s.draws := rfl

@[simp] theorem State.setSig_buf (s : State) (t : List Slot) : (s.setSig t).buf = s.buf := rfl
@[simp] theorem State.setSig_blen (s : State) (t : List Slot) : (s.setSig t).blen = s.blen := rfl
@[simp] theorem State.setSig_msgid (s : State) (t : List Slot) : (s.setSig t).msgid = s.msgid := rfl
@[simp] theorem State.setSig_fsr (s : State) (t : List Slot) : (s.setSig t).fsr = s.fsr := rfl
@[simp] theorem State.setSig_sig (s : State) (t : List Slot) : (s.setSig t).sig = t := rfl
@[simp] theorem State.setSig_input (s : State) (t : List Slot) : (s.setSig t).input = s.input := rfl
@[simp] theorem State.setSig_output (s : State) (t : List Slot) : (s.setSig t).output = s.output := rfl
@[simp] theorem State.setSig_draws (s : State) (t : List Slot) : (s.setSig t).draws = s.draws := rfl

@[simp] theorem State.setInput_buf (s : State) (l : List HostInput) : (s.setInput l).buf = s.buf := rfl
@[simp] theorem State.setInput_blen (s : State) (l : List HostInput) : (s.setInput l).blen = s.blen := rfl
@[simp] theorem State.setInput_msgid (s : State) (l : List HostInput) : (s.setInput l).msgid = s.msgid := rfl
@[simp] theorem State.setInput_fsr (s : State) (l : List HostInput) : (s.setInput l).fsr = s.fsr := rfl
@[simp] theorem State.setInput_sig (s : State) (l : List HostInput) : (s.setInput l).sig = s.sig := rfl
@[simp] theorem State.setInput_input (s : State) (l : List HostInput) : (s.setInput l).input = l := rfl
@[simp] theorem State.setInput_output (s : State) (l : List HostInput) : (s.setInput l).output = s.output := rfl
@[simp] theorem State.setInput_draws (s : State) (l : List HostInput) : (s.setInput l).draws = s.draws := rfl

@[simp] theorem State.emit_buf (s : State) (r : Response) : (s.emit r).buf = s.buf := rfl
@[simp] theorem State.emit_blen (s : State) (r : Response) : (s.emit r).blen = s.blen := rfl
@[simp] theorem State.emit_msgid (s : State) (r : Response) : (s.emit r).msgid = s.msgid := rfl
@[simp] theorem State.emit_fsr (s : State) (r : Response) : (s.emit r).fsr = s.fsr := rfl
@[simp] theorem State.emit_sig (s : State) (r : Response) : (s.emit r).sig = s.sig := rfl
@[simp] theorem State.emit_input (s : State) (r : Response) : (s.emit r).input = s.input := rfl
@[simp] theorem State.emit_output (s : State) (r : Response) : (s.emit r).output = s.output ++ [r] := rfl
@[simp] theorem State.emit_draws (s : State) (r : Response) : (s.emit r).draws = s.draws := rfl

@[simp] theorem State.nextDraw_buf (s : State) : s.nextDraw.buf = s.buf := rfl
@[simp] theorem State.nextDraw_blen (s : State) : s.nextDraw.blen = s.blen := rfl
@[simp] theorem State.nextDraw_msgid (s : State) : s.nextDraw.msgid = s.msgid := rfl
@[simp] theorem State.nextDraw_fsr (s : State) : s.nextDraw.fsr = s.fsr := rfl
@[simp] theorem State.nextDraw_sig (s : State) : s.nextDraw.sig = s.sig := rfl
@[simp] theorem State.nextDraw_input (s : State) : s.nextDraw.input = s.input := rfl
@[simp] theorem State.nextDraw_output (s : State) : s.nextDraw.output = s.output := rfl
@[simp] theorem State.nextDraw_draws (s : State) : s.nextDraw.draws = s.draws + 1 := rfl

@[simp] theorem State.setSlot_buf (s : State) (k : Nat) (g : Slot) : (s.setSlot k g).buf = s.buf := rfl
@[simp] theorem State.setSlot_blen (s : State) (k : Nat) (g : Slot) : (s.setSlot k g).blen = s.blen := rfl
@[simp] theorem State.setSlot_msgid (s : State) (k : Nat) (g : Slot) : (s.setSlot k g).msgid = s.msgid := rfl
@[simp] theorem State.setSlot_fsr (s : State) (k : Nat) (g : Slot) : (s.setSlot k g).fsr = s.fsr := rfl
@[simp] theorem State.setSlot_sig (s : State) (k : Nat) (g : Slot) : (s.setSlot k g).sig = s.sig.set k g := rfl
@[simp] theorem State.setSlot_input (s : State) (k : Nat) (g : Slot) : (s.setSlot k g).input = s.input := rfl
@[simp] theorem State.setSlot_output (s : State) (k : Nat) (g : Slot) : (s.setSlot k g).output = s.output := rfl
@[simp] theorem State.setSlot_draws (s : State) (k : Nat) (g : Slot) : (s.setSlot k g).draws = s.draws := rfl

@[simp] theorem State.takeFault_buf (s : State) (op : BitVec 8) (c : Cause) (idx : BitVec 9) : (s.takeFault op c idx).buf = s.buf := rfl
@[simp] theorem State.takeFault_blen (s : State) (op : BitVec 8) (c : Cause) (idx : BitVec 9) : (s.takeFault op c idx).blen = s.blen := rfl
@[simp] theorem State.takeFault_msgid (s : State) (op : BitVec 8) (c : Cause) (idx : BitVec 9) : (s.takeFault op c idx).msgid = s.msgid := rfl
@[simp] theorem State.takeFault_fsr (s : State) (op : BitVec 8) (c : Cause) (idx : BitVec 9) : (s.takeFault op c idx).fsr = recordFault s.fsr (faultInfo op c idx) := rfl
@[simp] theorem State.takeFault_sig (s : State) (op : BitVec 8) (c : Cause) (idx : BitVec 9) : (s.takeFault op c idx).sig = s.sig := rfl
@[simp] theorem State.takeFault_input (s : State) (op : BitVec 8) (c : Cause) (idx : BitVec 9) : (s.takeFault op c idx).input = s.input := rfl
@[simp] theorem State.takeFault_output (s : State) (op : BitVec 8) (c : Cause) (idx : BitVec 9) : (s.takeFault op c idx).output = s.output ++ [faultResponse op c idx] := rfl
@[simp] theorem State.takeFault_draws (s : State) (op : BitVec 8) (c : Cause) (idx : BitVec 9) : (s.takeFault op c idx).draws = s.draws := rfl

@[simp] theorem State.resetBlock_buf (s : State) : s.resetBlock.buf = [] := rfl
@[simp] theorem State.resetBlock_blen (s : State) : s.resetBlock.blen = Config.resetBlen := rfl
@[simp] theorem State.resetBlock_msgid (s : State) : s.resetBlock.msgid = 0#32 := rfl
@[simp] theorem State.resetBlock_fsr (s : State) : s.resetBlock.fsr = 0#64 := rfl
@[simp] theorem State.resetBlock_sig (s : State) : s.resetBlock.sig = List.replicate s.sig.length emptySlot := rfl
@[simp] theorem State.resetBlock_input (s : State) : s.resetBlock.input = s.input := rfl
@[simp] theorem State.resetBlock_output (s : State) : s.resetBlock.output = s.output := rfl
@[simp] theorem State.resetBlock_draws (s : State) : s.resetBlock.draws = s.draws := rfl

end Sys2Proof.Machine
end

