-- ==== Sys2Proof/Laws/Ops.lean ====
section
/-!
SUPPORT. One lemma per shared operation: everything it can do, so that a later proof cites it instead of unfolding it.
-/

namespace Sys2Proof.Machine

/-! ## Byte and field primitives -/

/-- `MemRead` gives the byte below `BLEN` and `IndexFault` elsewhere (R16). -/
theorem memRead_cases (s : State) (k : Nat) :
    (k < s.blen.toNat ∧ memRead s k = .ok (s.byte k)) ∨ (s.blen.toNat ≤ k ∧ memRead s k = .error .index) := by
  unfold memRead
  split
  · exact .inl ⟨‹_›, rfl⟩
  · exact .inr ⟨by omega, rfl⟩

/-- `MemWrite` writes the byte below `BLEN` and gives `IndexFault` elsewhere (R16). -/
theorem memWrite_cases (s : State) (k : Nat) (v : Byte) :
    (k < s.blen.toNat ∧ memWrite s k v = .ok (s.setBuf (memSet s.buf k v))) ∨
      (s.blen.toNat ≤ k ∧ memWrite s k v = .error .index) := by
  unfold memWrite
  split
  · exact .inl ⟨‹_›, rfl⟩
  · exact .inr ⟨by omega, rfl⟩

/-- `ExtractField` gathers a field that fits and gives `IndexFault` of one that does not (R48). -/
theorem extractField_cases (s : State) (g : Geom) :
    (g.fits s.blen.toNat = true ∧ extractField s g = .ok (g.gather s.byte)) ∨
      (g.fits s.blen.toNat = false ∧ extractField s g = .error .index) := by
  unfold extractField
  cases h : g.fits s.blen.toNat
  · exact .inr ⟨rfl, by simp⟩
  · exact .inl ⟨rfl, by simp⟩

/-- `InsertField` writes the whole span of a field that fits; of one that does not it gives `IndexFault` with some of the
in-range bytes written and a draw taken (R49, R86). -/
theorem insertField_cases (s : State) (g : Geom) (v : BitVec 64) :
    (g.fits s.blen.toNat = true ∧ insertField s g v = .ok (s.setBuf (insertCells s.buf g v (fun _ => true)))) ∨
      (g.fits s.blen.toNat = false ∧
        insertField s g v = .error (.index, (s.setBuf (insertCells s.buf g v (faultedWrites s))).nextDraw)) := by
  unfold insertField
  cases h : g.fits s.blen.toNat
  · exact .inr ⟨rfl, by simp⟩
  · exact .inl ⟨rfl, by simp⟩

/-- A faulting insert writes no byte at or above `BLEN`. -/
theorem faultedWrites_lt (s : State) (k : Nat) (h : faultedWrites s k = true) : k < s.blen.toNat := by
  unfold faultedWrites at h
  simp only [Bool.and_eq_true, decide_eq_true_eq] at h
  exact h.1

/-! ## Slots -/

/-- A slot that exists and is valid. -/
theorem validSlot_eq_some (s : State) (k : Nat) (g : Slot) :
    s.validSlot k = some g ↔ s.sig[k]? = some g ∧ g.valid = true := by
  unfold State.validSlot
  cases h : s.sig[k]? with
  | none => simp
  | some x =>
    cases hx : x.valid <;> simp only [hx, Bool.false_eq_true, if_false, if_true]
    · constructor
      · intro hh; cases hh
      · rintro ⟨h1, h2⟩; cases h1; rw [hx] at h2; cases h2
    · constructor
      · intro hh; cases hh; exact ⟨rfl, hx⟩
      · rintro ⟨h1, _⟩; exact h1

/-- A slot that does not exist or is not valid. -/
theorem validSlot_eq_none (s : State) (k : Nat) :
    s.validSlot k = none ↔ s.sig.length ≤ k ∨ ∃ g, s.sig[k]? = some g ∧ g.valid = false := by
  unfold State.validSlot
  cases h : s.sig[k]? with
  | none => simpa using List.getElem?_eq_none_iff.mp h
  | some x =>
    have hlt : k < s.sig.length := (List.getElem?_eq_some_iff.mp h).1
    cases hx : x.valid <;> simp [hx, hlt]

/-- `LookupSlot` (R101). -/
theorem lookupSlot_cases (s : State) (idx : BitVec 9) :
    (∃ g, s.sig[idx.toNat]? = some g ∧ g.valid = true ∧ lookupSlot s idx = .ok g) ∨
      ((s.sig.length ≤ idx.toNat ∨ ∃ g, s.sig[idx.toNat]? = some g ∧ g.valid = false) ∧
        lookupSlot s idx = .error .lookup) := by
  unfold lookupSlot
  cases h : s.validSlot idx.toNat with
  | none => exact .inr ⟨(validSlot_eq_none s _).mp h, rfl⟩
  | some g =>
    obtain ⟨h1, h2⟩ := (validSlot_eq_some s _ g).mp h
    exact .inl ⟨g, h1, h2, rfl⟩

/-! ## Conversions -/

/-- `Scale` gives the truncated sum when the product and the sum are finite, else `NumericFault` (R91). -/
theorem scale_cases (raw : BitVec 64) (factor offset : F64) :
    (F64.isFinite (fmul (f64OfU64 raw) factor) = true ∧
        F64.isFinite (fadd (fmul (f64OfU64 raw) factor) offset) = true ∧
        scale raw factor offset = .ok (ftrunc (fadd (fmul (f64OfU64 raw) factor) offset))) ∨
      ((F64.isFinite (fmul (f64OfU64 raw) factor) = false ∨
          F64.isFinite (fadd (fmul (f64OfU64 raw) factor) offset) = false) ∧
        scale raw factor offset = .error .numeric) := by
  unfold scale
  cases h1 : F64.isFinite (fmul (f64OfU64 raw) factor)
  · exact .inr ⟨.inl rfl, by simp [h1]⟩
  · cases h2 : F64.isFinite (fadd (fmul (f64OfU64 raw) factor) offset)
    · exact .inr ⟨.inr rfl, by simp [h1, h2]⟩
    · exact .inl ⟨rfl, rfl, by simp [h1, h2]⟩

/-- What `Unscale` gives when it succeeds (R92): the truncated quotient, in range. -/
theorem unscale_ok (p factor offset : F64) (len : Nat) (r : BitVec 64) (h : unscale p factor offset len = .ok r) :
    F64.isFinite p = true ∧ F64.isZero factor = false ∧ F64.isFinite (fsub p offset) = true ∧
      F64.isFinite (fdiv (fsub p offset) factor) = true ∧ 0 ≤ intOfF64 (fdiv (fsub p offset) factor) ∧
      intOfF64 (fdiv (fsub p offset) factor) ≤ 2 ^ len - 1 ∧
      r = BitVec.ofNat 64 (intOfF64 (fdiv (fsub p offset) factor)).toNat := by
  unfold unscale at h
  split at h
  · cases h
  split at h
  · cases h
  simp only at h
  split at h
  · cases h
  split at h
  · cases h
  split at h
  · cases h
  rename_i h1 h2 h3 h4 h5
  push Not at h5
  cases h
  refine ⟨?_, ?_, ?_, ?_, h5.1, h5.2, rfl⟩
  · simpa using h1
  · simpa using h2
  · simpa using h3
  · simpa using h4

/-- `Unscale` raises only `NumericFault` and `RangeFault` (R92). -/
theorem unscale_error (p factor offset : F64) (len : Nat) (c : Cause) (h : unscale p factor offset len = .error c) :
    c = .numeric ∨ c = .range := by
  unfold unscale at h
  split at h
  · cases h; exact .inl rfl
  split at h
  · cases h; exact .inl rfl
  simp only at h
  split at h
  · cases h; exact .inl rfl
  split at h
  · cases h; exact .inl rfl
  split at h
  · cases h; exact .inr rfl
  · cases h

/-- The raw setter's path: both fields of the slot, or `NumericFault` with the state as it was. -/
theorem storeRaw_cases (k : Nat) (g : Slot) (v : BitVec 64) (s : State) :
    (∃ ph, scale v g.factor g.offset = .ok ph ∧ storeRaw k g v s = .ok (s.setSlot k { g with raw := v, phys := ph })) ∨
      (scale v g.factor g.offset = .error .numeric ∧ storeRaw k g v s = .error (.numeric, s)) := by
  unfold storeRaw
  rcases scale_cases v g.factor g.offset with ⟨_, _, h⟩ | ⟨_, h⟩
  · exact .inl ⟨_, h, by rw [h]⟩
  · exact .inr ⟨h, by rw [h]⟩

/-! ## Ending a command -/

/-- A command that ends always gives a next state: with the value, or with the fault taken (R61, R138). -/
theorem complete_cases (op : BitVec 8) (e : Effect) :
    (∃ v s, e = .respond v s ∧ complete op e = .next (s.emit (okResponse v))) ∨
      (∃ c idx s, e = .raise c idx s ∧ complete op e = .next (s.takeFault op c idx)) := by
  cases e with
  | respond v s => exact .inl ⟨v, s, rfl, rfl⟩
  | raise c idx s => exact .inr ⟨c, idx, s, rfl, rfl⟩

@[simp] theorem complete_respond (op : BitVec 8) (v : Data) (s : State) :
    complete op (.respond v s) = .next (s.emit (okResponse v)) := rfl

@[simp] theorem complete_raise (op : BitVec 8) (c : Cause) (idx : BitVec 9) (s : State) :
    complete op (.raise c idx s) = .next (s.takeFault op c idx) := rfl

/-! ## Iteration -/

/-- What holds of the state before an iteration and is kept by every slot's processing, whether it ends or faults, holds
after the iteration (R110). -/
theorem forValidSlots_induct (P : State → Prop) (body : Nat → Slot → State → Except (Cause × State) State)
    (ok : ∀ k g s t, P s → s.validSlot k = some g → body k g s = .ok t → P t)
    (err : ∀ k g s c t, P s → s.validSlot k = some g → body k g s = .error (c, t) → P t) :
    ∀ (ks : List Nat) (s : State), P s →
      (∃ t, forValidSlots body ks s = .respond 0#64 t ∧ P t) ∨
        (∃ k c t, k ∈ ks ∧ forValidSlots body ks s = .raise c (BitVec.ofNat 9 k) t ∧ P t) := by
  intro ks
  induction ks with
  | nil => intro s hs; exact .inl ⟨s, rfl, hs⟩
  | cons k ks ih =>
    intro s hs
    unfold forValidSlots
    cases hv : s.validSlot k with
    | none =>
      rcases ih s hs with h | ⟨j, c, t, hj, h⟩
      · exact .inl h
      · exact .inr ⟨j, c, t, by simp [hj], h⟩
    | some g =>
      cases hb : body k g s with
      | ok t =>
        rcases ih t (ok k g s t hs hv hb) with h | ⟨j, c, u, hj, h⟩
        · exact .inl (by simpa [hb] using h)
        · exact .inr ⟨j, c, u, by simp [hj], by simpa [hb] using h⟩
      | error e =>
        obtain ⟨c, t⟩ := e
        exact .inr ⟨k, c, t, by simp, by simp [hb], err k g s c t hs hv hb⟩

/-- Processing two runs of slots is processing the first and then, unless it faulted, the second. -/
theorem forValidSlots_append (body : Nat → Slot → State → Except (Cause × State) State) (xs ys : List Nat) (s : State) :
    forValidSlots body (xs ++ ys) s =
      match forValidSlots body xs s with
      | .respond _ t => forValidSlots body ys t
      | .raise c idx t => .raise c idx t := by
  induction xs generalizing s with
  | nil => rfl
  | cons k xs ih =>
    simp only [List.cons_append, forValidSlots]
    cases s.validSlot k with
    | none => exact ih s
    | some g =>
      cases hb : body k g s with
      | ok t => simpa [hb] using ih t
      | error e => simp [hb]

end Sys2Proof.Machine
end

