-- ==== Sys2Proof/Laws/Exec.lean ====
section
/-!
SUPPORT. Every command's meaning ends in `complete` with the command's own opcode byte, so that it always gives a next
state.
-/

namespace Sys2Proof.Machine

/-- A command's execution is the end of its pseudocode, under its own opcode byte. -/
theorem exec_eq_complete (i : Instr) (s : State) : ∃ e, exec i s = complete i.opcode e := by
  cases i <;> exact ⟨_, rfl⟩

/-- A step with a command that spells an instruction is its execution. -/
theorem step_command (s : State) (w : CmdWord) (d : Data) (rest : List HostInput) (i : Instr)
    (hs : s.input = .command w d :: rest) (hd : fetchCommand w d = .ok i) : step s = exec i (s.setInput rest) := by
  unfold step
  rw [hs]
  simp only [hd]

/-- A step with a word that spells no command raises `IllegalCommand`. -/
theorem step_illegal (s : State) (w : CmdWord) (d : Data) (rest : List HostInput) (e : Illegal)
    (hs : s.input = .command w d :: rest) (hd : fetchCommand w d = .error e) :
    step s = raiseIllegal w (s.setInput rest) := by
  unfold step
  rw [hs]
  simp only [hd]

end Sys2Proof.Machine
end

