-- ==== Sys2Proof/Laws/PerInstr.lean ====
section
/-!
SUPPORT. The per-instruction family EncodesItsRow: the word a command is encoded as spells the command's row of the
opcode table (R64), and its top byte is the command's opcode.
-/

namespace Sys2Proof.Laws

/-- The command's word matches its row's `match` and `mask` and carries its opcode (R64). -/
def EncodesItsRow.Statement (i : Instr) : Prop :=
  spells (encodeWord i) i.row = true ∧ wordOp (encodeWord i) = i.opcode

theorem spells_formatC_setd (io : Layout) (len : BitVec 7) (start : BitVec 9) :
    spells (formatC opSetd io len start) (0x01000000#32, 0xFFFE0000#32) = true := by
  unfold spells
  rw [beq_iff_eq]
  apply BitVec.eq_of_getLsbD_eq; intro i hi
  simp only [BitVec.getLsbD_and, formatC_getLsbD]
  interval_cases i <;> simp [opSetd]

theorem spells_formatC_getd (io : Layout) (len : BitVec 7) (start : BitVec 9) :
    spells (formatC opGetd io len start) (0x02000000#32, 0xFFFE0000#32) = true := by
  unfold spells
  rw [beq_iff_eq]
  apply BitVec.eq_of_getLsbD_eq; intro i hi
  simp only [BitVec.getLsbD_and, formatC_getLsbD]
  interval_cases i <;> simp [opGetd]

/-- A format X word with `fld` zero, masked with 0xFFFFFE00, is its opcode byte alone. -/
theorem formatX_masked (op : BitVec 8) (idx : BitVec 9) :
    formatX op 0#4 idx &&& 0xFFFFFE00#32 = formatX op 0#4 0#9 := by
  apply BitVec.eq_of_getLsbD_eq; intro i hi
  simp only [BitVec.getLsbD_and, formatX_getLsbD]
  interval_cases i <;> simp

/-- A format X word masked with 0xFF0FFE00 is its opcode byte alone. -/
theorem formatX_masked_fld (op : BitVec 8) (fld : BitVec 4) (idx : BitVec 9) :
    formatX op fld idx &&& 0xFF0FFE00#32 = formatX op 0#4 0#9 := by
  apply BitVec.eq_of_getLsbD_eq; intro i hi
  simp only [BitVec.getLsbD_and, formatX_getLsbD]
  interval_cases i <;> simp

theorem EncodesItsRow.setd (start : BitVec 9) (len : BitVec 7) (io : Layout) (value : Data) :
    EncodesItsRow.Statement (.setd start len io value) :=
  ⟨spells_formatC_setd io len start, (formatC_fields _ _ _ _).1⟩

theorem EncodesItsRow.getd (start : BitVec 9) (len : BitVec 7) (io : Layout) :
    EncodesItsRow.Statement (.getd start len io) :=
  ⟨spells_formatC_getd io len start, (formatC_fields _ _ _ _).1⟩

/-- A format X command with `fld` zero spells its row. -/
theorem spells_formatX (op : BitVec 8) (idx : BitVec 9) (pat : CmdWord) (h : formatX op 0#4 0#9 = pat) :
    spells (formatX op 0#4 idx) (pat, 0xFFFFFE00#32) = true := by
  unfold spells
  rw [beq_iff_eq]
  exact (formatX_masked op idx).trans h

/-- A format X command with a field selector spells its row. -/
theorem spells_formatX_fld (op : BitVec 8) (fld : BitVec 4) (idx : BitVec 9) (pat : CmdWord)
    (h : formatX op 0#4 0#9 = pat) : spells (formatX op fld idx) (pat, 0xFF0FFE00#32) = true := by
  unfold spells
  rw [beq_iff_eq]
  exact (formatX_masked_fld op fld idx).trans h

theorem EncodesItsRow.wrb (idx : BitVec 9) (data : Data) : EncodesItsRow.Statement (.wrb idx data) :=
  ⟨spells_formatX opWrb idx _ (by decide), (formatX_fields _ _ _).1⟩

theorem EncodesItsRow.rdb (idx : BitVec 9) : EncodesItsRow.Statement (.rdb idx) :=
  ⟨spells_formatX opRdb idx _ (by decide), (formatX_fields _ _ _).1⟩

theorem EncodesItsRow.wrcr (cr : BitVec 9) (value : Data) : EncodesItsRow.Statement (.wrcr cr value) :=
  ⟨spells_formatX opWrcr cr _ (by decide), (formatX_fields _ _ _).1⟩

theorem EncodesItsRow.rdcr (cr : BitVec 9) : EncodesItsRow.Statement (.rdcr cr) :=
  ⟨spells_formatX opRdcr cr _ (by decide), (formatX_fields _ _ _).1⟩

theorem EncodesItsRow.sigdef (slot : BitVec 9) (geom : Data) : EncodesItsRow.Statement (.sigdef slot geom) :=
  ⟨spells_formatX opSigdef slot _ (by decide), (formatX_fields _ _ _).1⟩

theorem EncodesItsRow.sigwr (fld : BitVec 4) (slot : BitVec 9) (value : Data) :
    EncodesItsRow.Statement (.sigwr fld slot value) :=
  ⟨spells_formatX_fld opSigwr fld slot _ (by decide), (formatX_fields _ _ _).1⟩

theorem EncodesItsRow.sigrd (fld : BitVec 4) (slot : BitVec 9) : EncodesItsRow.Statement (.sigrd fld slot) :=
  ⟨spells_formatX_fld opSigrd fld slot _ (by decide), (formatX_fields _ _ _).1⟩

theorem EncodesItsRow.setv (slot : BitVec 9) (raw : Data) : EncodesItsRow.Statement (.setv slot raw) :=
  ⟨spells_formatX opSetv slot _ (by decide), (formatX_fields _ _ _).1⟩

theorem EncodesItsRow.setp (slot : BitVec 9) (phys : F64) : EncodesItsRow.Statement (.setp slot phys) :=
  ⟨spells_formatX opSetp slot _ (by decide), (formatX_fields _ _ _).1⟩

theorem EncodesItsRow.upds : EncodesItsRow.Statement .upds := by
  unfold EncodesItsRow.Statement
  decide

theorem EncodesItsRow.updr : EncodesItsRow.Statement .updr := by
  unfold EncodesItsRow.Statement
  decide

theorem EncodesItsRow.chkm (checkData : Bool) : EncodesItsRow.Statement (.chkm checkData) := by
  unfold EncodesItsRow.Statement
  cases checkData <;> decide

theorem EncodesItsRow.rstd : EncodesItsRow.Statement .rstd := by
  unfold EncodesItsRow.Statement
  decide

end Sys2Proof.Laws
end

