-- ==== Sys2Proof/Tests/Slice0.lean ====
section
/-!
SUPPORT. The model's own tests: the smoke tests of `wellFormed`, decoding of words written out from the encoding tables,
one or two vectors of `95_test_vectors.md` per command (the vector's name stands in the test's comment), and a witness
for the hypotheses of every statement that has some.
-/

namespace Sys2Proof.Tests

open Sys2Proof Sys2Proof.Machine

/-! ## Helpers -/

/-- The state after a command. -/
def after (i : Instr) (s : State) : State :=
  match exec i s with
  | .next t => t
  | .fault _ => s
  | .refused _ => s

/-- The state after one step. -/
def afterStep (s : State) : State :=
  match step s with
  | .next t => t
  | .fault _ => s
  | .refused _ => s

theorem exec_after (i : Instr) (s : State) : exec i s = .next (after i s) := by
  obtain ⟨e, he⟩ := exec_eq_complete i s
  rcases complete_cases i.opcode e with ⟨v, t, _, h⟩ | ⟨c, idx, t, _, h⟩ <;> simp [after, he, h]

/-- The last response. -/
def last (s : State) : Option Response := s.output.getLast?

/-- Slot 0 of a block. -/
def slot0 (s : State) : Option Slot := s.sig[0]?

/-- The slot of section 2.2: start 0, length 8, Intel, unsigned, factor 0.5, offset -40.0. -/
def speed : Slot :=
  { valid := true, start := 0#9, len := 8#7, layout := .intel, isSign := true, factor := 0x3FE0000000000000#64,
    offset := 0xC044000000000000#64, min := 0#64, max := 0#64, dflt := 80#64, raw := 105#64,
    phys := 0x4028000000000000#64 }

/-- A slot that does not fit eight bytes: start 60, length 5, Intel, neutral scaling, raw 31. -/
def misfit : Slot :=
  { speed with start := 60#9, len := 5#7, factor := 0x3FF0000000000000#64, offset := 0#64, dflt := 0#64, raw := 31#64,
               phys := 0x403F000000000000#64 }

/-- A 64-bit slot whose scaled value overflows: factor 1e300, every value 2^64 - 1. -/
def huge : Slot :=
  { speed with len := 64#7, factor := 0x7E37E43C8800759C#64, offset := 0#64, dflt := 0xFFFFFFFFFFFFFFFF#64 }

/-- A block with the given slots and bytes 0 and 7 of the buffer. -/
def block (slots : List Slot) (b0 b7 : Byte) : State :=
  { State.resetOf 0 with sig := slots, buf := memSet (memSet [] 0 b0) 7 b7 }

/-- The block with the slot of section 2.2 and an invalid slot. -/
def two : State := block [speed, emptySlot] 0x69#8 0#8

/-! ## WellFormed: an ill-formed term for each check -/

theorem test_wf_len_zero : (Instr.setd 0#9 0#7 .intel 0#64).wellFormed = false := by decide
theorem test_wf_len_65 : (Instr.getd 0#9 65#7 .intel).wellFormed = false := by decide
theorem test_wf_value_too_wide : (Instr.setd 0#9 4#7 .intel 16#64).wellFormed = false := by decide
theorem test_wf_byte_256 : (Instr.wrb 0#9 256#64).wellFormed = false := by decide
theorem test_wf_rdcr_4 : (Instr.rdcr 4#9).wellFormed = false := by decide
theorem test_wf_wrcr_blen_65 : (Instr.wrcr 0#9 65#64).wellFormed = false := by decide
theorem test_wf_wrcr_msgid_wide : (Instr.wrcr 1#9 0x100000000#64).wellFormed = false := by decide
theorem test_wf_wrcr_caps : (Instr.wrcr 3#9 0#64).wellFormed = false := by decide
theorem test_wf_geom_reserved : (Instr.sigdef 0#9 0x71000#64).wellFormed = false := by decide
theorem test_wf_geom_len_zero : (Instr.sigdef 0#9 0x30000#64).wellFormed = false := by decide
theorem test_wf_sigwr_geom : (Instr.sigwr 0#4 0#9 0#64).wellFormed = false := by decide
theorem test_wf_sigrd_8 : (Instr.sigrd 8#4 0#9).wellFormed = false := by decide
theorem test_wf_len_64 : (Instr.setd 0#9 64#7 .intel 0xFFFFFFFFFFFFFFFF#64).wellFormed = true := by decide

/-! ## Decoding: words written out bit by bit from R62 to R64 -/

/-- op 00000001, zero 0000000, io 0, len 0001100, start 000000011. -/
theorem test_decode_setd :
    decode 0b00000001000000000001100000000011#32 0xABC#64 = .ok (.setd 3#9 12#7 .motorola 0xABC#64) := by decide
/-- op 00000010, zero 0000000, io 1, len 1000000, start 111110100. -/
theorem test_decode_getd :
    decode 0b00000010000000011000000111110100#32 7#64 = .ok (.getd 500#9 64#7 .intel) := by decide
/-- op 00010000, fld 0000, zero 00000000000, idx 000001000. -/
theorem test_decode_wrb : decode 0b00010000000000000000000000001000#32 5#64 = .ok (.wrb 8#9 5#64) := by decide
theorem test_decode_rdb : decode 0b00010001000000000000000111111111#32 5#64 = .ok (.rdb 511#9) := by decide
theorem test_decode_wrcr : decode 0b00011000000000000000000000000001#32 5#64 = .ok (.wrcr 1#9 5#64) := by decide
theorem test_decode_rdcr : decode 0b00011001000000000000000000000011#32 5#64 = .ok (.rdcr 3#9) := by decide
theorem test_decode_sigdef : decode 0b00100000000000000000000000000101#32 5#64 = .ok (.sigdef 5#9 5#64) := by decide
/-- op 00100001, fld 0101, zero 00000000000, idx 000000001. -/
theorem test_decode_sigwr : decode 0b00100001010100000000000000000001#32 9#64 = .ok (.sigwr 5#4 1#9 9#64) := by decide
theorem test_decode_sigrd : decode 0b00100010011100000000000100000000#32 9#64 = .ok (.sigrd 7#4 256#9) := by decide
theorem test_decode_setv : decode 0b00101000000000000000000000000011#32 9#64 = .ok (.setv 3#9 9#64) := by decide
theorem test_decode_setp : decode 0b00101001000000000000000000000011#32 9#64 = .ok (.setp 3#9 9#64) := by decide
theorem test_decode_upds : decode 0b00110000000000000000000000000000#32 9#64 = .ok .upds := by decide
theorem test_decode_updr : decode 0b00110001000000000000000000000000#32 9#64 = .ok .updr := by decide
theorem test_decode_chkm : decode 0b00110010000000000000000000000001#32 9#64 = .ok (.chkm true) := by decide
theorem test_decode_rstd : decode 0b00110011000000000000000000000000#32 9#64 = .ok .rstd := by decide
/-- K15: `WRB` with `fld` 1. -/
theorem test_decode_wrb_fld : decode 0x10100000#32 0#64 = .error (.reservedBits 0x10#8) := by decide
/-- K16. -/
theorem test_decode_zero : decode 0#32 0#64 = .error (.undefinedOpcode 0#8) := by decide
theorem test_rows_in_order : rows.map (fun r => (r.1.extractLsb' 24 8 : BitVec 8)) =
    [opSetd, opGetd, opWrb, opRdb, opWrcr, opRdcr, opSigdef, opSigwr, opSigrd, opSetv, opSetp, opUpds, opUpdr, opChkm,
      opRstd] := by decide

/-! ## Commands: vectors of 95_test_vectors.md -/

/-- V5. -/
theorem test_setd_v5 : (after (.setd 4#9 12#7 .intel 0xABC#64) State.reset).buf = [(0, 0xC0#8), (1, 0xAB#8)] := by
  decide
/-- V12. -/
theorem test_setd_v12 : (after (.setd 12#9 10#7 .motorola 0x3FF#64) State.reset).buf = [(1, 0x1F#8), (2, 0xF8#8)] := by
  decide
/-- V26: byte 7 is 00 or F0, whatever the draw. -/
theorem test_setd_v26 :
    ((after (.setd 60#9 5#7 .intel 0x1F#64) State.reset).byte 7 = 0#8 ∨
      (after (.setd 60#9 5#7 .intel 0x1F#64) State.reset).byte 7 = 0xF0#8) ∧
    last (after (.setd 60#9 5#7 .intel 0x1F#64) State.reset) = some ⟨true, 1#4, 0x101#64⟩ := by
  refine ⟨?_, by decide⟩
  have h7 : (after (.setd 60#9 5#7 .intel 0x1F#64) State.reset).byte 7 =
      memByte (insertCells [] (codecGeom 60#9 5#7 .intel) 0x1F#64 (faultedWrites State.reset)) 7 := rfl
  rw [h7, memByte_insertCells]
  split
  · exact .inr (by decide)
  · exact .inl rfl
/-- Section 2.1, cross-layout read after V6. -/
theorem test_getd_cross_layout :
    last (after (.getd 4#9 12#7 .intel) (after (.setd 3#9 12#7 .motorola 0xABC#64) State.reset)) =
      some ⟨false, 0#4, 0xBC0#64⟩ := by decide
/-- V44. -/
theorem test_getd_v44 : last (after (.getd 59#9 9#7 .motorola) State.reset) = some ⟨true, 1#4, 0x201#64⟩ := by decide
/-- K1 and K2. -/
theorem test_wrb_rdb : last (after (.rdb 0#9) (after (.wrb 0#9 0x7B#64) State.reset)) = some ⟨false, 0#4, 0x7B#64⟩ := by
  decide
/-- K5: the value is tested before the index. -/
theorem test_wrb_k5 : last (after (.wrb 8#9 0x100#64) State.reset) = some ⟨true, 4#4, 0x81004#64⟩ := by decide
/-- K14: the hidden cell keeps its value. -/
theorem test_hidden_cell :
    last (after (.rdb 10#9) (after (.wrcr 0#9 16#64) (after (.wrcr 0#9 8#64) (after (.wrb 10#9 0xAA#64)
      (after (.wrcr 0#9 64#64) State.reset))))) = some ⟨false, 0#4, 0xAA#64⟩ := by decide
/-- K9 and K11. -/
theorem test_wrcr_refused :
    last (after (.wrcr 0#9 65#64) State.reset) = some ⟨true, 6#4, 0x1806#64⟩ ∧
      last (after (.wrcr 3#9 0#64) State.reset) = some ⟨true, 6#4, 0x31806#64⟩ := by decide
/-- K7. -/
theorem test_rdcr_caps : last (after (.rdcr 3#9) State.reset) = some ⟨false, 0#4, 0x10400040#64⟩ := by decide
/-- Example of R95 and R97. -/
theorem test_sigdef_sigrd :
    last (after (.sigrd 0#4 0#9) (after (.sigdef 0#9 0x31000#64) State.reset)) = some ⟨false, 0#4, 0x31000#64⟩ := by
  decide
/-- A36. -/
theorem test_sigdef_a36 : last (after (.sigdef 64#9 0x31000#64) State.reset) = some ⟨true, 5#4, 0x402005#64⟩ := by decide
/-- A25: `PHYS` is computed again from `RAW`. -/
theorem test_sigwr_a25 :
    (slot0 (after (.sigwr 2#4 0#9 0xC044000000000000#64) (after (.setp 0#9 0x4029000000000000#64) two))).map Slot.phys =
      some 0x4028000000000000#64 := by decide +kernel
/-- A31. -/
theorem test_sigwr_a31 : last (after (.sigwr 5#4 0#9 0x100#64) two) = some ⟨true, 2#4, 0x2102#64⟩ := by decide
/-- A20. -/
theorem test_setv_a20 :
    (slot0 (after (.setv 0#9 105#64) two)).map (fun g => (g.raw, g.phys)) = some (105#64, 0x4028000000000000#64) := by
  decide +kernel
/-- A21. -/
theorem test_setv_a21 : last (after (.setv 0#9 256#64) two) = some ⟨true, 2#4, 0x2802#64⟩ := by decide
/-- A26: a quotient between -1 and 0 gives 0. -/
theorem test_setp_a26 :
    (slot0 (after (.setp 0#9 0xC044266666666666#64) two)).map (fun g => (g.raw, g.phys)) =
      some (0#64, 0xC044266666666666#64) := by decide +kernel
/-- A24. -/
theorem test_setp_a24 : last (after (.setp 0#9 0x4059000000000000#64) two) = some ⟨true, 2#4, 0x2902#64⟩ := by
  decide +kernel
/-- B11: the rounded quotient is just below 3. -/
theorem test_unscale_b11 : unscale 0x3FD3333333333333#64 0x3FB999999999999A#64 0#64 8 = .ok 2#64 := by decide +kernel
/-- A6: the truncated zero is +0.0. -/
theorem test_scale_a6 : scale 79#64 0x3FE0000000000000#64 0xC044000000000000#64 = .ok 0#64 := by decide +kernel
/-- A10 and A12. -/
theorem test_scale_a10 : scale 0x20000000000001#64 0x3FF0000000000000#64 0#64 = .ok 0x4340000000000000#64 := by
  decide +kernel
theorem test_scale_a12 : scale 0xFFFFFFFFFFFFFFFF#64 0x7E37E43C8800759C#64 0#64 = .error .numeric := by decide +kernel
/-- M5: the higher slot's bits win. -/
theorem test_upds_m5 :
    (after .upds (block [{ speed with raw := 0xFF#64 }, { speed with start := 4#9, raw := 0#64 }] 0#8 0#8)).buf =
      [(0, 0x0F#8)] := by decide
/-- M7: slot 0 is encoded before the fault of slot 1. -/
theorem test_upds_m7 :
    last (after .upds (block [speed, misfit] 0#8 0#8)) = some ⟨true, 1#4, 0x13001#64⟩ ∧
      (after .upds (block [speed, misfit] 0#8 0#8)).sig = [speed, misfit] := by decide
/-- M8, slot 0. -/
theorem test_updr_m8 :
    (slot0 (after .updr (block [{ speed with raw := 0#64 }] 0x69#8 0#8))).map (fun g => (g.raw, g.phys)) =
      some (105#64, 0x4028000000000000#64) := by decide +kernel
/-- M9: an overflow leaves the slot as it was. -/
theorem test_updr_m9 :
    last (after .updr (block [{ huge with raw := 0#64 }] 0#8 0xFF#8)) = some ⟨true, 7#4, 0x3107#64⟩ ∧
      slot0 (after .updr (block [{ huge with raw := 0#64 }] 0#8 0xFF#8)) = some { huge with raw := 0#64 } := by
  decide +kernel
/-- M2 and M3. -/
theorem test_chkm :
    last (after (.chkm true) { State.reset with msgid := 0x7FF#32 }) = some ⟨false, 0#4, 0#64⟩ ∧
      last (after (.chkm false) { State.reset with msgid := 0x800#32 }) = some ⟨true, 3#4, 0x3203#64⟩ := by decide
/-- M10. -/
theorem test_rstd_m10 :
    (slot0 (after .rstd two)).map (fun g => (g.raw, g.phys)) = some (80#64, 0#64) ∧ (after .rstd two).buf = two.buf := by
  decide +kernel
/-- Section 2.6, steps 2, 3 and 6. -/
theorem test_fsr :
    (after (.setv 1#9 1#64) (after (.setp 0#9 0x4059000000000000#64) two)).fsr = 0x80002902#64 ∧
      (after (.wrcr 2#9 0x1234#64) (after (.setv 1#9 1#64) two)).fsr = 0#64 := by decide +kernel
/-- P4 step 14: the word 0. -/
theorem test_step_illegal :
    last (afterStep (State.reset.withFetchWord 32 0)) = some ⟨true, 8#4, 8#64⟩ := by decide
/-- The example of R120 through the port, its data operand above the word. -/
theorem test_step_wrb : (afterStep (State.reset.withFetchWord 96 (0x10000000 + 0x7B * 2 ^ 32))).buf = [(0, 0x7B#8)] := by
  decide
theorem test_decodeTableWord : decodeTableWord 32 0x32000001 = some (.chkm true) := by decide

/-! ## Witnesses: the hypotheses of every statement that has some, met by one state and operands -/

/-- A second valid slot that shares no bit with `speed` and fills the last byte: start 60, length 4. -/
def tail : Slot := { speed with start := 60#9, len := 4#7, raw := 15#64, dflt := 15#64, phys := 0xC040000000000000#64 }

/-- Two valid slots that do not overlap. -/
def pair : State := block [speed, tail] 0x69#8 0xF0#8

/-- A valid 64-bit slot with a scaled value that overflows, after one that does not. -/
def overflowing : State := block [speed, huge] 0x69#8 0xFF#8

/-- `two` with inputs to present. -/
def twoWith (l : List HostInput) : State := { two with input := l }

/-- What is left of `pair`'s slot 1 is refused: its span does not fit. -/
def misfitting : State := block [speed, misfit] 0#8 0#8

theorem witness_EncodeOfDecode : decode 0x01011000#32 0x32#64 = .ok (.setd 0#9 8#7 .intel 0x32#64) := by decide
theorem witness_DecodeAgreesWithMatchMask :
    decode 0x21500001#32 0#64 = .ok (.sigwr 5#4 1#9 0#64) ∧ ∃ r ∈ rows, spells 0x21500001#32 r = true := by decide
theorem witness_UnspelledWordsRejectedByName_reserved : ∀ r ∈ rows, spells 0x30000001#32 r = false :=
  fun r hr => eq_of_beq (List.all_eq_true.mp (by decide : rows.all (fun r => spells 0x30000001#32 r == false) = true) r hr)
theorem witness_UnspelledWordsRejectedByName_undefined : ∀ r ∈ rows, spells 0x34000000#32 r = false :=
  fun r hr => eq_of_beq (List.all_eq_true.mp (by decide : rows.all (fun r => spells 0x34000000#32 r == false) = true) r hr)
theorem witness_StepRunsDecodedCommand :
    (twoWith [.command 0x28000000#32 105#64]).input = .command 0x28000000#32 105#64 :: [] ∧
      decode 0x28000000#32 105#64 = .ok (.setv 0#9 105#64) := by decide
theorem witness_StepOnIllegalWord :
    (twoWith [.command 0x34000000#32 0#64]).input = .command 0x34000000#32 0#64 :: [] ∧
      decode 0x34000000#32 0#64 = .error (.undefinedOpcode 0x34#8) := by decide
theorem witness_StepOnReset :
    (twoWith [.reset (some (0x30000000#32, 0#64))]).input = .reset (some (0x30000000#32, 0#64)) :: [] := rfl
theorem witness_StepIdlesWithoutInput : two.input = [] := rfl
theorem witness_ResetValues : (512 : Nat) ≤ 512 := by decide
theorem witness_ResetMeetsInvariant : (1 : Nat) ≤ 1 ∧ (1 : Nat) ≤ 512 ∧ (512 : Nat) ≤ 512 := by decide
theorem witness_StepKeepsInvariant : two.inv ∧ step (twoWith []) = .next (twoWith []) ∧
    (twoWith [.command 0x33000000#32 0#64]).inv ∧
    ∃ t, step (twoWith [.command 0x33000000#32 0#64]) = .next t := by
  refine ⟨by decide +kernel, rfl, by decide +kernel, after .rstd two, ?_⟩
  rw [step_command (i := .rstd) _ 0x33000000#32 0#64 [] rfl (by decide)]
  exact exec_after .rstd two
theorem witness_RunAnswersEveryCommand :
    (twoWith (presented [(0x33000000#32, 0#64), (0#32, 0#64)])).input = presented [(0x33000000#32, 0#64), (0#32, 0#64)] ∧
      0 ≤ [((0x33000000#32 : CmdWord), (0#64 : Data)), (0#32, 0#64)].length ∧
      2 ≤ [((0x33000000#32 : CmdWord), (0#64 : Data)), (0#32, 0#64)].length :=
  ⟨rfl, by decide, by decide⟩
theorem witness_CauseZeroIffRunFaultFree :
    (twoWith (presented [(0x33000000#32, 0#64)])).input = presented [(0x33000000#32, 0#64)] ∧
      two.noFaultRecorded ∧ (∀ c ∈ [((0x33000000#32 : CmdWord), (0#64 : Data))], ∀ v, decode c.1 c.2 ≠ .ok (.wrcr 2#9 v)) ∧
      ∃ t, Host.Core.run core 1 (twoWith (presented [(0x33000000#32, 0#64)])) = .next t := by
  refine ⟨rfl, by decide, ?_, after .rstd two, ?_⟩
  · intro c hc v
    rw [List.mem_singleton.mp hc, show decode 0x33000000#32 0#64 = .ok .rstd by decide]
    intro h
    cases h
  · have h : step (twoWith (presented [(0x33000000#32, 0#64)])) = .next (after .rstd two) := by
      rw [step_command (i := .rstd) _ 0x33000000#32 0#64 [] rfl (by decide)]
      exact exec_after .rstd two
    simp only [Host.Core.run, core, h]
theorem witness_PosFollowsTheLayouts :
    (Geom.mk 500 12 .intel).legal ∧ (Geom.mk 3 64 .motorola).legal ∧ (Geom.mk 500 12 .intel).layout = .intel ∧
      (Geom.mk 3 64 .motorola).layout = .motorola ∧ 10 + 1 < (Geom.mk 500 12 .intel).len ∧
      62 + 1 < (Geom.mk 3 64 .motorola).len := by decide
theorem witness_SpanIsTheBytesOfPos :
    (Geom.mk 3 64 .intel).legal ∧ (Geom.mk 4 1 .motorola).legal ∧ (Geom.mk 3 64 .intel).len > (Geom.mk 3 64 .intel).room ∧
      (Geom.mk 4 1 .motorola).len ≤ (Geom.mk 4 1 .motorola).room := by decide
theorem witness_RoomBoundary :
    (Geom.mk 60 4 .intel).legal ∧ (Geom.mk 60 4 .intel).len = (Geom.mk 60 4 .intel).room ∧
      (Geom.mk 60 4 .intel).byteIndex + 1 = 8 ∧ (Geom.mk 59 5 .motorola).legal ∧
      (Geom.mk 59 5 .motorola).len = (Geom.mk 59 5 .motorola).room + 1 := by decide
theorem witness_ChunkFormAgreesWithPos :
    (Geom.mk 4 64 .motorola).legal ∧ (0x8000000000000001#64).toNat ≤ 2 ^ (Geom.mk 4 64 .motorola).len - 1 := by decide
theorem witness_SetdWritesExactlyTheField :
    1 ≤ (4#7).toNat ∧ (4#7).toNat ≤ 64 ∧ (15#64).toNat ≤ 2 ^ (4#7).toNat - 1 ∧
      (codecGeom 60#9 4#7 .intel).fits State.reset.blen.toNat = true := by decide
theorem disjoint_bytes_0_and_1 : (Geom.mk 0 8 .intel).disjoint (Geom.mk 15 8 .motorola) := by
  rintro k j ⟨⟨i, hi, h⟩, ⟨i', hi', h'⟩⟩
  simp only [Geom.pos, Geom.byteIndex, Geom.bitIndex, Prod.mk.injEq] at hi hi' h h'
  omega
theorem witness_DisjointSetdCommute :
    Memory.wf State.reset.buf ∧ 1 ≤ (8#7).toNat ∧ (8#7).toNat ≤ 64 ∧ (255#64).toNat ≤ 2 ^ (8#7).toNat - 1 ∧
      (codecGeom 0#9 8#7 .intel).fits State.reset.blen.toNat = true ∧
      (codecGeom 15#9 8#7 .motorola).fits State.reset.blen.toNat = true ∧
      (codecGeom 0#9 8#7 .intel).disjoint (codecGeom 15#9 8#7 .motorola) :=
  ⟨by decide, by decide, by decide, by decide, by decide, by decide, disjoint_bytes_0_and_1⟩
theorem witness_SetdRefusesIllegalOperands :
    (0#7).toNat = 0 ∧ 64 < (65#7).toNat ∧ 2 ^ (4#7).toNat - 1 < (16#64).toNat := by decide
theorem witness_SetdIndexFaultLeavesOldOrNew :
    1 ≤ (5#7).toNat ∧ (5#7).toNat ≤ 64 ∧ (0x1F#64).toNat ≤ 2 ^ (5#7).toNat - 1 ∧
      (codecGeom 60#9 5#7 .intel).fits State.reset.blen.toNat = false ∧
      7 ∈ (codecGeom 60#9 5#7 .intel).span ∧ 7 < State.reset.blen.toNat := by decide
theorem witness_GetdReadsTheField :
    (0#7).toNat = 0 ∧ 64 < (65#7).toNat ∧ 1 ≤ (1#7).toNat ∧ (64#7).toNat ≤ 64 ∧
      (codecGeom 0#9 64#7 .intel).fits State.reset.blen.toNat = true ∧
      (codecGeom 1#9 64#7 .intel).fits State.reset.blen.toNat = false := by decide
theorem witness_SetdGetdRoundTrip :
    1 ≤ (64#7).toNat ∧ (64#7).toNat ≤ 64 ∧ (0xFFFFFFFFFFFFFFFF#64).toNat ≤ 2 ^ (64#7).toNat - 1 ∧
      (codecGeom 7#9 64#7 .motorola).fits State.reset.blen.toNat = true := by decide
theorem witness_WrbStoresOneByte :
    255 < (256#64).toNat ∧ (255#64).toNat ≤ 255 ∧ two.blen.toNat ≤ (8#9).toNat ∧ (7#9).toNat < two.blen.toNat := by decide
theorem witness_RdbReturnsTheByte : (7#9).toNat < two.blen.toNat ∧ ¬ (8#9).toNat < two.blen.toNat := by decide
theorem witness_WrcrWritesItsRegister :
    1 ≤ (64#64).toNat ∧ (64#64).toNat ≤ 64 ∧ ¬ (65#64).toNat ≤ 64 ∧ ¬ 1 ≤ (0#64).toNat ∧ (0xFFFFFFFF#64).toNat < 2 ^ 32 ∧
      ¬ (0x100000000#64).toNat < 2 ^ 32 ∧ (4#9 ≠ 0#9 ∧ 4#9 ≠ 1#9 ∧ 4#9 ≠ 2#9) := by decide
theorem witness_CapsIsConstant :
    (State.resetOf 512).sig.length ≤ 512 ∧ step two = .next two := ⟨by decide +kernel, rfl⟩
theorem witness_HiddenCellsUntouched :
    exec (.setd 60#9 4#7 .intel 15#64) two = .next (after (.setd 60#9 4#7 .intel 15#64) two) ∧ two.blen.toNat ≤ 8 :=
  ⟨exec_after _ _, by decide⟩
theorem witness_HiddenCellsUnread : ∀ k, k < two.blen.toNat → memByte (memSet two.buf 8 1#8) k = two.byte k := by decide
theorem witness_SigdefDefinesTheSlot :
    ¬ two.sig.length ≤ (1#9).toNat ∧ two.sig.length ≤ (2#9).toNat ∧ 2 ^ 18 ≤ (0x71000#64).toNat ∧
      (0x30000#64).toNat / 2 ^ 9 % 2 ^ 7 = 0 ∧ 64 < (0x8200#64).toNat / 2 ^ 9 % 2 ^ 7 ∧
      ¬ (2 ^ 18 ≤ (0x38000#64).toNat ∨ (0x38000#64).toNat / 2 ^ 9 % 2 ^ 7 = 0 ∨
          64 < (0x38000#64).toNat / 2 ^ 9 % 2 ^ 7) := by decide
theorem witness_SigwrWritesTheField :
    two.sig[(0#9).toNat]? = some speed ∧ speed.valid = true ∧ F64.isFinite 0x3FF0000000000000#64 = true ∧
      scaleFinite speed.raw 0x3FF0000000000000#64 speed.offset = true ∧
      scaleFinite speed.raw speed.factor 0x3FF0000000000000#64 = true ∧
      (255#64).toNat ≤ 2 ^ speed.len.toNat - 1 := by decide +kernel
theorem witness_SigwrFaultsInOrder :
    (0#4).toNat = 0 ∧ 5 < (6#4).toNat ∧ 1 ≤ (1#4).toNat ∧ (4#4).toNat ≤ 4 ∧ two.sig[(0#9).toNat]? = some speed ∧
      speed.valid = true ∧ F64.isFinite 0x7FF0000000000000#64 = false ∧ F64.isFinite 0x7FEFFFFFFFFFFFFF#64 = true ∧
      scaleFinite speed.raw 0x7FEFFFFFFFFFFFFF#64 speed.offset = false ∧
      2 ^ speed.len.toNat - 1 < (256#64).toNat := by decide +kernel
/-- The overflow of a written offset: the product is near the greatest `f64`. -/
theorem witness_SigwrFaultsInOrder_offset :
    F64.isFinite 0x7FEFFFFFFFFFFFFF#64 = true ∧
      scaleFinite 1#64 0x7FEFFFFFFFFFFFFF#64 0x7FEFFFFFFFFFFFFF#64 = false ∧
      (block [{ speed with raw := 1#64, factor := 0x7FEFFFFFFFFFFFFF#64 }] 0#8 0#8).sig[(0#9).toNat]? =
        some { speed with raw := 1#64, factor := 0x7FEFFFFFFFFFFFFF#64 } := by decide +kernel
theorem witness_SigrdReturnsTheField :
    7 < (8#4).toNat ∧ (7#4).toNat ≤ 7 ∧ two.sig[(0#9).toNat]? = some speed ∧ speed.valid = true ∧
      two.sig[(1#9).toNat]? = some emptySlot ∧ emptySlot.valid = false := by decide
theorem witness_MissingSlotRaisesLookupFault :
    two.sig.length ≤ (2#9).toNat ∧ two.sig[(1#9).toNat]? = some emptySlot ∧ emptySlot.valid = false ∧
      1 ≤ (1#4).toNat ∧ (5#4).toNat ≤ 5 ∧ (7#4).toNat ≤ 7 := by decide
theorem witness_SetvStoresRawAndScaled :
    two.sig[(0#9).toNat]? = some speed ∧ speed.valid = true ∧ two.sig[(1#9).toNat]? = some emptySlot ∧
      ¬ 2 ^ speed.len.toNat - 1 < (255#64).toNat ∧ 2 ^ speed.len.toNat - 1 < (256#64).toNat ∧
      scaleFinite 255#64 speed.factor speed.offset = true ∧
      F64.isFinite (fmul (f64OfU64 0xFFFFFFFFFFFFFFFF#64) huge.factor) = false := by decide +kernel
theorem witness_SetpStoresQuotientAndOperand :
    two.sig[(0#9).toNat]? = some speed ∧ speed.valid = true ∧
      (∀ g : Slot, two.sig[(2#9).toNat]? = some g → g.valid = false) ∧
      intOfF64 (quotient 0x4055E00000000000#64 speed.factor speed.offset) = 2 ^ speed.len.toNat - 1 ∧
      intOfF64 (quotient 0x4056000000000000#64 speed.factor speed.offset) = 2 ^ speed.len.toNat ∧
      intOfF64 (quotient 0xC044400000000000#64 speed.factor speed.offset) = -1 := by
  refine ⟨by decide, rfl, fun g h => ?_, by decide +kernel, by decide +kernel, by decide +kernel⟩
  simp [two, block] at h
theorem witness_SetpReadsBack :
    exec (.setp 0#9 0x4029000000000000#64) two = .next (after (.setp 0#9 0x4029000000000000#64) two) ∧
      (after (.setp 0#9 0x4029000000000000#64) two).output =
        two.output ++ [{ fault := false, cause := 0#4, data := 0#64 }] :=
  ⟨exec_after _ _, by decide +kernel⟩
theorem witness_RneIsNearest_finite : F64.isFinite (rne (2 ^ 53 + 1)) = true ∧ F64.isFinite 0x4340000000000001#64 = true ∧
    |F64.real 0x4340000000000001#64 - (2 ^ 53 + 1)| = |F64.real (rne (2 ^ 53 + 1)) - (2 ^ 53 + 1)| ∧
    F64.real 0x4340000000000001#64 ≠ F64.real (rne (2 ^ 53 + 1)) := by decide +kernel
theorem witness_RneIsNearest_infinite : F64.isFinite (rne (2 ^ 1024 - 2 ^ 970)) = false := by decide +kernel
theorem witness_FtruncIsExact : F64.isFinite 0xBFE0000000000000#64 = true ∧ intOfF64 0xBFE0000000000000#64 = 0 := by
  decide +kernel
theorem witness_RawConversionExactBelow2p53 : (0x1FFFFFFFFFFFFF#64).toNat < 2 ^ 53 := by decide
theorem witness_UpdsEncodesEverySlot : ∀ g ∈ pair.sig, g.valid = true → g.geom.fits pair.blen.toNat = true := by decide
theorem witness_UpdsStopsAtFirstMisfit :
    1 < 512 ∧ misfitting.sig[1]? = some misfit ∧ misfit.valid = true ∧
      misfit.geom.fits misfitting.blen.toNat = false ∧
      (∀ h ∈ misfitting.sig.take 1, h.valid = true → h.geom.fits misfitting.blen.toNat = true) ∧
      7 ∈ misfit.geom.span ∧ 7 < misfitting.blen.toNat := by decide
theorem witness_UpdrDecodesEverySlot :
    ∀ g ∈ pair.sig, g.valid = true →
      g.geom.fits pair.blen.toNat = true ∧ scaleFinite (g.geom.gather pair.byte) g.factor g.offset = true := by
  decide +kernel
theorem witness_UpdrStopsAtFirstFault :
    1 < 512 ∧ overflowing.sig[1]? = some huge ∧ huge.valid = true ∧
      scaleFinite (huge.geom.gather overflowing.byte) huge.factor huge.offset = false ∧
      (∀ h ∈ overflowing.sig.take 1, h.valid = true →
        h.geom.fits overflowing.blen.toNat = true ∧
          scaleFinite (h.geom.gather overflowing.byte) h.factor h.offset = true) := by decide +kernel
theorem witness_UpdrStopsAtFirstFault_index :
    1 < 512 ∧ misfitting.sig[1]? = some misfit ∧ misfit.geom.fits misfitting.blen.toNat = false ∧
      (∀ h ∈ misfitting.sig.take 1, h.valid = true →
        h.geom.fits misfitting.blen.toNat = true ∧
          scaleFinite (h.geom.gather misfitting.byte) h.factor h.offset = true) := by decide +kernel
theorem witness_RstdRestoresEverySlot :
    ∀ g ∈ pair.sig, g.valid = true → scaleFinite g.dflt g.factor g.offset = true := by decide +kernel
theorem witness_RstdStopsAtFirstOverflow :
    1 < 512 ∧ overflowing.sig[1]? = some huge ∧ huge.valid = true ∧ scaleFinite huge.dflt huge.factor huge.offset = false ∧
      (∀ h ∈ overflowing.sig.take 1, h.valid = true → scaleFinite h.dflt h.factor h.offset = true) := by decide +kernel
theorem witness_ChkmChecksTheIdentifier :
    ({ two with msgid := 0x7FF#32 } : State).msgid.toNat ≤ 0x7FF ∧
      ¬ ({ two with msgid := 0x800#32 } : State).msgid.toNat ≤ 0x7FF := by decide
theorem disjoint_speed_tail : speed.geom.disjoint tail.geom := by
  rintro k j ⟨⟨i, hi, h⟩, ⟨i', hi', h'⟩⟩
  simp [speed, tail, Slot.geom, Geom.pos] at hi hi' h h'
  omega
theorem witness_UpdsThenUpdrKeepsRaw :
    pair.inv ∧
      (∀ g ∈ pair.sig, g.valid = true →
        g.geom.fits pair.blen.toNat = true ∧ scaleFinite g.raw g.factor g.offset = true) ∧
      (∀ (n m : Nat) (g h : Slot), n ≠ m → pair.sig[n]? = some g → pair.sig[m]? = some h → g.valid = true →
        h.valid = true → g.geom.disjoint h.geom) := by
  refine ⟨by decide +kernel, by decide +kernel, ?_⟩
  have hs : pair.sig = [speed, tail] := rfl
  intro n m g h hne hg hh _ _
  rw [hs] at hg hh
  rcases n with _ | _ | n <;> rcases m with _ | _ | m <;> simp at hne hg hh
  · subst hg hh
    exact disjoint_speed_tail
  · subst hg hh
    exact fun k j hkj => disjoint_speed_tail k j ⟨hkj.2, hkj.1⟩
theorem witness_CausesEachCommandCanRaise :
    exec (.setd 0#9 0#7 .intel 0#64) two = .next (after (.setd 0#9 0#7 .intel 0#64) two) ∧
      (after (.setd 0#9 0#7 .intel 0#64) two).output = two.output ++ [faultResponse opSetd .operand 0#9] ∧
      canRaise .upds .index = true :=
  ⟨exec_after _ _, by decide, by decide⟩
theorem witness_ResponseAndRecordOfEveryCommand :
    (twoWith [.command 0x18000002#32 7#64]).input = .command 0x18000002#32 7#64 :: [] := rfl
theorem witness_FaultsArePrecise :
    exec (.setv 1#9 1#64) two = .next (after (.setv 1#9 1#64) two) ∧
      (after (.setv 1#9 1#64) two).output = two.output ++ [faultResponse opSetv .lookup 1#9] ∧
      worksOnOneObject (.setv 1#9 1#64) = true ∧ (faultResponse opSetd .operand 0#9).cause = 6#4 :=
  ⟨exec_after _ _, by decide, rfl, rfl⟩
theorem witness_ExecIgnoresFaultRecord : Instr.upds ≠ .rdcr 2#9 := by decide
theorem witness_SignFlagNeverRead :
    (block [speed] 0#8 0#8).eraseSign = (block [{ speed with isSign := false }] 0#8 0#8).eraseSign ∧
      block [speed] 0#8 0#8 ≠ block [{ speed with isSign := false }] 0#8 0#8 ∧
      ∀ slot, Instr.updr ≠ .sigrd 0#4 slot :=
  ⟨by decide, by decide, fun _ h => nomatch h⟩
theorem witness_BoundsNeverRead :
    (block [speed] 0#8 0#8).eraseBounds = (block [{ speed with max := f64One }] 0#8 0#8).eraseBounds ∧
      block [speed] 0#8 0#8 ≠ block [{ speed with max := f64One }] 0#8 0#8 ∧
      (∀ slot, Instr.updr ≠ .sigrd 3#4 slot) ∧ ∀ slot, Instr.updr ≠ .sigrd 4#4 slot :=
  ⟨by decide, by decide, fun _ h => (nomatch h), fun _ h => nomatch h⟩
theorem witness_WritesOfEachCommand :
    exec (.setv 0#9 7#64) two = .next (after (.setv 0#9 7#64) two) ∧ two.sig[0]? = some speed ∧
      (after (.setv 0#9 7#64) two).sig[0]? ≠ some speed ∧ (Instr.setv 0#9 7#64).opcode ≠ opSigdef :=
  ⟨exec_after _ _, by decide, by decide +kernel, by decide⟩
/-- The command that may change the buffer and not the count of draws. -/
theorem witness_WritesOfEachCommand_wrb :
    exec (.wrb 1#9 7#64) two = .next (after (.wrb 1#9 7#64) two) ∧ (after (.wrb 1#9 7#64) two).buf ≠ two.buf ∧
      (Instr.wrb 1#9 7#64).opcode ∉ [opSetd, opUpds] :=
  ⟨exec_after _ _, by decide, by decide⟩
theorem witness_LegalOperandsNeverRejected :
    exec (.wrb 8#9 255#64) two = .next (after (.wrb 8#9 255#64) two) ∧ (Instr.wrb 8#9 255#64).wellFormed = true ∧
      (after (.wrb 8#9 255#64) two).output = two.output ++ [faultResponse opWrb .index 8#9] ∧
      exec (.wrb 8#9 256#64) two = .next (after (.wrb 8#9 256#64) two) ∧ (Instr.wrb 8#9 256#64).wellFormed = false :=
  ⟨exec_after _ _, by decide, by decide, exec_after _ _, by decide⟩

end Sys2Proof.Tests
end

section
/-!
SUPPORT. Two executions side by side: when the ends of two commands' pseudocode, or of two slots' processing, are
related, so are the next states. The rules are for any relation between states.
-/

namespace Sys2Proof.Machine

/-- The two pseudocodes end the same way, with the same value or fault, in related states. -/
inductive Effect.Related (R : State → State → Prop) : Effect → Effect → Prop
  | respond {s u : State} (v : Data) (h : R s u) : Effect.Related R (.respond v s) (.respond v u)
  | raise {s u : State} (c : Cause) (idx : BitVec 9) (h : R s u) : Effect.Related R (.raise c idx s) (.raise c idx u)

/-- The two slots' processing ends the same way, with success or the same cause, in related states. -/
inductive SlotRelated (R : State → State → Prop) :
    Except (Cause × State) State → Except (Cause × State) State → Prop
  | ok {s u : State} (h : R s u) : SlotRelated R (.ok s) (.ok u)
  | error {s u : State} (c : Cause) (h : R s u) : SlotRelated R (.error (c, s)) (.error (c, u))

/-- Both executions go on, to related states. -/
def NextRelated (R : State → State → Prop) (o p : Host.Outcome State Fault Refusal) : Prop :=
  ∃ t u, o = .next t ∧ p = .next u ∧ R t u

theorem Effect.Related.mono {R Q : State → State → Prop} (hRQ : ∀ s u, R s u → Q s u) {e f : Effect}
    (h : Effect.Related R e f) : Effect.Related Q e f := by
  cases h with
  | respond v h => exact .respond v (hRQ _ _ h)
  | raise c idx h => exact .raise c idx (hRQ _ _ h)

/-- A relation that responding and taking a fault keep passes from the ends of the pseudocode to the next states. -/
theorem complete_related {R : State → State → Prop} (op : BitVec 8)
    (emit : ∀ s u r, R s u → R (s.emit r) (u.emit r))
    (fault : ∀ s u c idx, R s u → R (s.takeFault op c idx) (u.takeFault op c idx)) {e f : Effect}
    (h : Effect.Related R e f) : NextRelated R (complete op e) (complete op f) := by
  cases h with
  | respond v h => exact ⟨_, _, rfl, rfl, emit _ _ _ h⟩
  | raise c idx h => exact ⟨_, _, rfl, rfl, fault _ _ c idx h⟩

/-- Two iterations over the same slots (R110) end alike when related states have the same valid slots up to what the
processing of a slot tells apart. -/
theorem forValidSlots_related {R : State → State → Prop}
    {body : Nat → Slot → State → Except (Cause × State) State}
    (slot : ∀ k s u, R s u →
      (s.validSlot k = none ∧ u.validSlot k = none) ∨
        ∃ g h, s.validSlot k = some g ∧ u.validSlot k = some h ∧ SlotRelated R (body k g s) (body k h u))
    (ks : List Nat) {s u : State} (hsu : R s u) :
    Effect.Related R (forValidSlots body ks s) (forValidSlots body ks u) := by
  induction ks generalizing s u with
  | nil => exact .respond _ hsu
  | cons k ks ih =>
    unfold forValidSlots
    rcases slot k s u hsu with ⟨hs, hu⟩ | ⟨g, h, hs, hu, hbody⟩
    · simpa only [hs, hu] using ih hsu
    · simp only [hs, hu]
      generalize body k g s = x, body k h u = y at hbody
      cases hbody with
      | ok htv => exact ih htv
      | error c htv => exact .raise c _ htv

end Sys2Proof.Machine
end

section
/-!
PROOFS. The cells at or above `BLEN` (R21). Two executions that differ only there are run side by side; the relation
between them says at once that neither reads such a cell (the visible cells and all other state stay equal) and that
neither writes one (each side's hidden cells stay what they were).
-/

namespace Sys2Proof.Machine

/-! ## The relation and what keeps it -/

/-- The cells `m` and `m'` agree below `n`, and from `n` on they are still those of `a` and of `b`. -/
structure TwinCells (n : Nat) (a b m m' : List Host.Cell) : Prop where
  visible : ∀ k, k < n → memByte m' k = memByte m k
  hiddenLeft : ∀ k, n ≤ k → memByte m k = memByte a k
  hiddenRight : ∀ k, n ≤ k → memByte m' k = memByte b k

/-- The states differ in their buffers only, and these are twins. -/
def Twin (n : Nat) (a b : List Host.Cell) (s u : State) : Prop :=
  ∃ m, u = s.setBuf m ∧ TwinCells n a b s.buf m

/-- Twins of `n` visible cells, for the commands that keep `BLEN` as they go along. -/
structure TwinAt (n : Nat) (a b : List Host.Cell) (s u : State) : Prop where
  twin : Twin n a b s u
  visibleCount : s.blen.toNat = n

section
variable {n : Nat} {a b : List Host.Cell}

theorem TwinCells.set {m m' : List Host.Cell} (h : TwinCells n a b m m') {k : Nat} (hk : k < n) (v : Byte) :
    TwinCells n a b (memSet m k v) (memSet m' k v) where
  visible j hj := by simp only [memByte_memSet, h.visible j hj]
  hiddenLeft j hj := by rw [memByte_memSet_of_ne _ _ _ _ (by omega), h.hiddenLeft j hj]
  hiddenRight j hj := by rw [memByte_memSet_of_ne _ _ _ _ (by omega), h.hiddenRight j hj]

/-- An insert whose written bytes are visible splices the same bits into the same bytes on both sides. -/
theorem TwinCells.insert {m m' : List Host.Cell} (h : TwinCells n a b m m') (g : Geom) (v : BitVec 64)
    {writes : Nat → Bool} (hw : ∀ k ∈ g.span, writes k = true → k < n) :
    TwinCells n a b (insertCells m g v writes) (insertCells m' g v writes) := by
  have unwritten (j : Nat) (hj : n ≤ j) : ¬ (j ∈ g.span ∧ writes j = true) := fun ⟨hs, hj'⟩ => by
    have := hw j hs hj'
    omega
  exact {
    visible := fun j hj => by simp only [memByte_insertCells, h.visible j hj]
    hiddenLeft := fun j hj => by rw [memByte_insertCells, if_neg (unwritten j hj), h.hiddenLeft j hj]
    hiddenRight := fun j hj => by rw [memByte_insertCells, if_neg (unwritten j hj), h.hiddenRight j hj] }

theorem TwinCells.twin {m m' : List Host.Cell} (h : TwinCells n a b m m') (s : State) :
    Twin n a b (s.setBuf m) (s.setBuf m') := ⟨m', rfl, h⟩

/-- An update that neither reads nor writes the buffer keeps twins. -/
theorem Twin.update {s u : State} (h : Twin n a b s u) (f : State → State) (hbuf : (f s).buf = s.buf)
    (hcomm : ∀ m, f (s.setBuf m) = (f s).setBuf m) : Twin n a b (f s) (f u) := by
  obtain ⟨m, rfl, hm⟩ := h
  exact ⟨m, hcomm m, hbuf ▸ hm⟩

theorem Twin.setSlot {s u : State} (h : Twin n a b s u) (k : Nat) (g : Slot) :
    Twin n a b (s.setSlot k g) (u.setSlot k g) := h.update (·.setSlot k g) rfl fun _ => rfl

theorem Twin.emit {s u : State} (h : Twin n a b s u) (r : Response) : Twin n a b (s.emit r) (u.emit r) :=
  h.update (·.emit r) rfl fun _ => rfl

theorem Twin.nextDraw {s u : State} (h : Twin n a b s u) : Twin n a b s.nextDraw u.nextDraw :=
  h.update (·.nextDraw) rfl fun _ => rfl

theorem Twin.takeFault {s u : State} (h : Twin n a b s u) (op : BitVec 8) (c : Cause) (idx : BitVec 9) :
    Twin n a b (s.takeFault op c idx) (u.takeFault op c idx) := h.update (·.takeFault op c idx) rfl fun _ => rfl

/-- Twins have equal slots, since they differ in their buffers only. -/
theorem Twin.lookupSlot_eq {s u : State} (h : Twin n a b s u) (slot : BitVec 9) :
    lookupSlot u slot = lookupSlot s slot := by
  obtain ⟨m, rfl, _⟩ := h
  rfl

theorem Twin.validSlot_eq {s u : State} (h : Twin n a b s u) (k : Nat) : u.validSlot k = s.validSlot k := by
  obtain ⟨m, rfl, _⟩ := h
  rfl

theorem Twin.nsig_eq {s u : State} (h : Twin n a b s u) : u.nsig = s.nsig := by
  obtain ⟨m, rfl, _⟩ := h
  rfl

theorem Twin.complete_nextRelated {e f : Effect} (op : BitVec 8) (h : Effect.Related (Twin n a b) e f) :
    NextRelated (Twin n a b) (complete op e) (complete op f) :=
  complete_related op (fun _ _ r h => h.emit r) (fun _ _ c idx h => h.takeFault op c idx) h

/-! ## The primitives that reach the buffer -/

theorem TwinAt.byte_eq {s u : State} (h : TwinAt n a b s u) {k : Nat} (hk : k < s.blen.toNat) :
    u.byte k = s.byte k := by
  obtain ⟨⟨m, rfl, hm⟩, rfl⟩ := h
  exact hm.visible k hk

theorem TwinAt.blen_eq {s u : State} (h : TwinAt n a b s u) : u.blen = s.blen := by
  obtain ⟨⟨m, rfl, _⟩, _⟩ := h
  rfl

theorem TwinAt.memRead_eq {s u : State} (h : TwinAt n a b s u) (k : Nat) : memRead u k = memRead s k := by
  unfold memRead
  rw [h.blen_eq]
  split
  · rw [h.byte_eq ‹_›]
  · rfl

/-- A field that fits lies in visible cells, so both sides extract the same value (R48). -/
theorem TwinAt.extractField_eq {s u : State} (h : TwinAt n a b s u) (g : Geom) :
    extractField u g = extractField s g := by
  unfold extractField
  rw [h.blen_eq]
  split
  next hfits => rw [g.gather_congr u.byte s.byte fun k hk => h.byte_eq ((g.fits_iff _).mp hfits k hk)]
  next => rfl

/-- `InsertField` writes visible cells only, whether the field fits or not (R49, R86). -/
theorem TwinAt.insertField_related {s u : State} (h : TwinAt n a b s u) (g : Geom) (v : BitVec 64) :
    SlotRelated (TwinAt n a b) (insertField s g v) (insertField u g v) := by
  obtain ⟨⟨m, rfl, hm⟩, rfl⟩ := h
  cases hfits : g.fits s.blen.toNat with
  | true =>
    simp only [insertField, State.setBuf_blen, hfits, if_true]
    have hcells := hm.insert g v (writes := fun _ => true) fun k hk _ => (g.fits_iff _).mp hfits k hk
    exact .ok ⟨hcells.twin s, rfl⟩
  | false =>
    simp only [insertField, State.setBuf_blen, hfits, Bool.false_eq_true, if_false]
    have hcells := hm.insert g v fun k _ hk => faultedWrites_lt s k hk
    exact .error _ ⟨(hcells.twin s).nextDraw, rfl⟩

/-! ## The iterations of the message commands -/

theorem TwinAt.storeRaw_related {s u : State} (h : TwinAt n a b s u) (k : Nat) (g : Slot) (v : BitVec 64) :
    SlotRelated (TwinAt n a b) (storeRaw k g v s) (storeRaw k g v u) := by
  unfold storeRaw
  cases scale v g.factor g.offset with
  | error c => exact .error c h
  | ok ph => exact .ok ⟨h.twin.setSlot k _, h.visibleCount⟩

theorem TwinAt.decodeSlot_related {s u : State} (h : TwinAt n a b s u) (k : Nat) (g : Slot) :
    SlotRelated (TwinAt n a b) (decodeSlot k g s) (decodeSlot k g u) := by
  unfold decodeSlot
  rw [h.extractField_eq]
  cases extractField s g.geom with
  | error c => exact .error c h
  | ok v => exact h.storeRaw_related k g v

theorem TwinAt.forAllSlots_related {body : Nat → Slot → State → Except (Cause × State) State}
    (hbody : ∀ k g s u, TwinAt n a b s u → SlotRelated (TwinAt n a b) (body k g s) (body k g u)) {s u : State}
    (h : TwinAt n a b s u) : Effect.Related (Twin n a b) (forAllSlots body s) (forAllSlots body u) := by
  unfold forAllSlots
  rw [h.twin.nsig_eq]
  refine (forValidSlots_related (fun k s u hsu => ?_) _ h).mono fun _ _ h => h.twin
  rw [hsu.twin.validSlot_eq]
  cases s.validSlot k with
  | none => exact .inl ⟨rfl, rfl⟩
  | some g => exact .inr ⟨g, g, rfl, rfl, hbody k g s u hsu⟩

/-! ## The commands -/

theorem TwinAt.execSetd_related {s u : State} (h : TwinAt n a b s u) (start : BitVec 9) (len : BitVec 7) (io : Layout)
    (value : Data) : NextRelated (Twin n a b) (execSetd start len io value s) (execSetd start len io value u) := by
  apply Twin.complete_nextRelated
  split
  · exact .raise _ _ h.twin
  split
  · exact .raise _ _ h.twin
  have hins := h.insertField_related (codecGeom start len io) value
  generalize insertField s _ _ = x, insertField u _ _ = y at hins
  cases hins with
  | ok ht => exact .respond _ ht.twin
  | error c ht => exact .raise c _ ht.twin

theorem TwinAt.execGetd_related {s u : State} (h : TwinAt n a b s u) (start : BitVec 9) (len : BitVec 7) (io : Layout) :
    NextRelated (Twin n a b) (execGetd start len io s) (execGetd start len io u) := by
  apply Twin.complete_nextRelated
  split
  · exact .raise _ _ h.twin
  rw [h.extractField_eq]
  cases extractField s _ with
  | error c => exact .raise c _ h.twin
  | ok v => exact .respond v h.twin

theorem TwinAt.execWrb_related {s u : State} (h : TwinAt n a b s u) (idx : BitVec 9) (data : Data) :
    NextRelated (Twin n a b) (execWrb idx data s) (execWrb idx data u) := by
  apply Twin.complete_nextRelated
  split
  · exact .raise _ _ h.twin
  obtain ⟨⟨m, rfl, hm⟩, rfl⟩ := h
  unfold memWrite
  simp only [State.setBuf_blen]
  by_cases hk : idx.toNat < s.blen.toNat
  · simp only [hk, if_true]
    exact .respond _ ((hm.set hk _).twin s)
  · simp only [hk, if_false]
    exact .raise _ _ ⟨m, rfl, hm⟩

theorem TwinAt.execRdb_related {s u : State} (h : TwinAt n a b s u) (idx : BitVec 9) :
    NextRelated (Twin n a b) (execRdb idx s) (execRdb idx u) := by
  apply Twin.complete_nextRelated
  rw [h.memRead_eq]
  cases memRead s idx.toNat with
  | error c => exact .raise c _ h.twin
  | ok v => exact .respond _ h.twin

/-- The one command that moves `BLEN`; which cells are visible afterwards is no matter here. -/
theorem Twin.execWrcr_related {s u : State} (h : Twin n a b s u) (cr : BitVec 9) (value : Data) :
    NextRelated (Twin n a b) (execWrcr cr value s) (execWrcr cr value u) := by
  apply Twin.complete_nextRelated
  cases selectCtrlReg cr with
  | none => exact .raise _ _ h
  | some r =>
    cases r with
    | blen =>
      simp only
      split
      · exact .raise _ _ h
      · exact .respond _ (h.update (·.setBlen _) rfl fun _ => rfl)
    | msgid =>
      simp only
      split
      · exact .raise _ _ h
      · exact .respond _ (h.update (·.setMsgid _) rfl fun _ => rfl)
    | fsr => exact .respond _ (h.update (·.setFsr _) rfl fun _ => rfl)
    | caps => exact .raise _ _ h

theorem Twin.execRdcr_related {s u : State} (h : Twin n a b s u) (cr : BitVec 9) :
    NextRelated (Twin n a b) (execRdcr cr s) (execRdcr cr u) := by
  have hread (r : CtrlReg) : u.readCtrl r = s.readCtrl r := by
    obtain ⟨m, rfl, _⟩ := h
    cases r <;> rfl
  apply Twin.complete_nextRelated
  cases selectCtrlReg cr with
  | none => exact .raise _ _ h
  | some r => simpa only [hread] using .respond _ h

theorem Twin.execSigdef_related {s u : State} (h : Twin n a b s u) (slot : BitVec 9) (d : Data) :
    NextRelated (Twin n a b) (execSigdef slot d s) (execSigdef slot d u) := by
  apply Twin.complete_nextRelated
  rw [h.nsig_eq]
  split
  · exact .raise _ _ h
  split
  · exact .raise _ _ h
  split
  · exact .raise _ _ h
  · exact .respond _ (h.setSlot _ _)

theorem Twin.execSigwr_related {s u : State} (h : Twin n a b s u) (fld : BitVec 4) (slot : BitVec 9) (value : Data) :
    NextRelated (Twin n a b) (execSigwr fld slot value s) (execSigwr fld slot value u) := by
  apply Twin.complete_nextRelated
  rw [h.lookupSlot_eq]
  cases writableField fld with
  | none => exact .raise _ _ h
  | some f =>
    cases lookupSlot s slot with
    | error c => exact .raise c _ h
    | ok g =>
      simp only
      cases writeSlotField g value f with
      | error c => exact .raise c _ h
      | ok g' => exact .respond _ (h.setSlot _ g')

theorem Twin.execSigrd_related {s u : State} (h : Twin n a b s u) (fld : BitVec 4) (slot : BitVec 9) :
    NextRelated (Twin n a b) (execSigrd fld slot s) (execSigrd fld slot u) := by
  apply Twin.complete_nextRelated
  rw [h.lookupSlot_eq]
  cases selectField fld with
  | none => exact .raise _ _ h
  | some f =>
    cases lookupSlot s slot with
    | error c => exact .raise c _ h
    | ok g => exact .respond _ h

theorem TwinAt.execSetv_related {s u : State} (h : TwinAt n a b s u) (slot : BitVec 9) (raw : Data) :
    NextRelated (Twin n a b) (execSetv slot raw s) (execSetv slot raw u) := by
  apply Twin.complete_nextRelated
  rw [h.twin.lookupSlot_eq]
  cases lookupSlot s slot with
  | error c => exact .raise c _ h.twin
  | ok g =>
    simp only
    split
    · exact .raise _ _ h.twin
    have hstore := h.storeRaw_related slot.toNat g raw
    generalize storeRaw _ g raw s = x, storeRaw _ g raw u = y at hstore
    cases hstore with
    | ok ht => exact .respond _ ht.twin
    | error c ht => exact .raise c _ ht.twin

theorem Twin.execSetp_related {s u : State} (h : Twin n a b s u) (slot : BitVec 9) (phys : F64) :
    NextRelated (Twin n a b) (execSetp slot phys s) (execSetp slot phys u) := by
  apply Twin.complete_nextRelated
  rw [h.lookupSlot_eq]
  cases lookupSlot s slot with
  | error c => exact .raise c _ h
  | ok g =>
    simp only
    cases unscale phys g.factor g.offset g.len.toNat with
    | error c => exact .raise c _ h
    | ok r => exact .respond _ (h.setSlot _ _)

/-- `CHKM` looks at the bytes below `BLEN` only (R113). -/
theorem TwinAt.badByte_eq {s u : State} (h : TwinAt n a b s u) : badByte u = badByte s := by
  unfold badByte
  rw [h.blen_eq]
  exact List.find?_congr fun k hk => by rw [h.byte_eq (List.mem_range.mp hk)]

theorem TwinAt.execChkm_related {s u : State} (h : TwinAt n a b s u) (checkData : Bool) :
    NextRelated (Twin n a b) (execChkm checkData s) (execChkm checkData u) := by
  have hmsgid : u.msgid = s.msgid := by
    obtain ⟨⟨m, rfl, _⟩, _⟩ := h
    rfl
  apply Twin.complete_nextRelated
  rw [hmsgid, h.badByte_eq]
  split
  · exact .raise _ _ h.twin
  split
  · cases badByte s with
    | none => exact .respond _ h.twin
    | some k => exact .raise _ _ h.twin
  · exact .respond _ h.twin

/-- Every command takes twins of `BLEN` visible cells to twins. -/
theorem TwinAt.exec_related {s u : State} (h : TwinAt n a b s u) (i : Instr) :
    NextRelated (Twin n a b) (exec i s) (exec i u) := by
  cases i with
  | setd start len io value => exact h.execSetd_related start len io value
  | getd start len io => exact h.execGetd_related start len io
  | wrb idx data => exact h.execWrb_related idx data
  | rdb idx => exact h.execRdb_related idx
  | wrcr cr value => exact h.twin.execWrcr_related cr value
  | rdcr cr => exact h.twin.execRdcr_related cr
  | sigdef slot geom => exact h.twin.execSigdef_related slot geom
  | sigwr fld slot value => exact h.twin.execSigwr_related fld slot value
  | sigrd fld slot => exact h.twin.execSigrd_related fld slot
  | setv slot raw => exact h.execSetv_related slot raw
  | setp slot phys => exact h.twin.execSetp_related slot phys
  | upds =>
    exact Twin.complete_nextRelated _ (h.forAllSlots_related fun _ g _ _ h => h.insertField_related g.geom g.raw)
  | updr => exact Twin.complete_nextRelated _ (h.forAllSlots_related fun k g _ _ h => h.decodeSlot_related k g)
  | chkm checkData => exact h.execChkm_related checkData
  | rstd => exact Twin.complete_nextRelated _ (h.forAllSlots_related fun k g _ _ h => h.storeRaw_related k g g.dflt)

end

/-- A state and the same state with other hidden cells are twins. -/
theorem twinAt_setBuf (s : State) (m : List Host.Cell) (h : ∀ k, k < s.blen.toNat → memByte m k = s.byte k) :
    TwinAt s.blen.toNat s.buf m s (s.setBuf m) :=
  ⟨⟨m, rfl, { visible := h, hiddenLeft := fun _ _ => rfl, hiddenRight := fun _ _ => rfl }⟩, rfl⟩

/-- Settles O32: the two states are twins, and every command takes twins to twins. -/
theorem hiddenCellsUnread : Obligations.HiddenCellsUnread := by
  intro i s m hm
  obtain ⟨t, _, ht, hu, m', rfl, hcells⟩ := (twinAt_setBuf s m hm).exec_related i
  exact ⟨t, t.setBuf m', ht, hu, rfl, hcells.visible⟩

/-- Settles O31: a state is its own twin, and twins keep the hidden cells of each side. -/
theorem hiddenCellsUntouched : Obligations.HiddenCellsUntouched := by
  intro i s t ht k hk
  obtain ⟨t', _, ht', _, _, _, hcells⟩ := (twinAt_setBuf s s.buf fun _ _ => rfl).exec_related i
  obtain rfl : t = t' := Host.Outcome.next.inj (ht.symm.trans ht')
  exact hcells.hiddenLeft k hk

end Sys2Proof.Machine
end

section
/-!
PROOFS. What a step takes from the command port (R11, R12).
-/

namespace Sys2Proof.Machine

/-- Settles O7: the port spells commands as the decoder does. -/
theorem stepRunsDecodedCommand : Obligations.StepRunsDecodedCommand :=
  fun s w d rest i hinput hdecode => step_command s w d rest i hinput hdecode

/-- Settles O10: the empty input list is the waiting case of a step. -/
theorem stepIdlesWithoutInput : Obligations.StepIdlesWithoutInput := by
  intro s hinput
  unfold step
  rw [hinput]

end Sys2Proof.Machine
end

section
/-!
PROOFS. The fault information word and the record (R24, R133, R134), and the words put together from fields in general.
-/

namespace Sys2Proof.Machine

/-! ## Words put together from fields -/

/-- A word put together from two fields, as a number. -/
theorem toNat_append_add {n m : Nat} (x : BitVec n) (y : BitVec m) :
    (x ++ y).toNat = x.toNat * 2 ^ m + y.toNat := by
  rw [BitVec.toNat_append, ← Nat.shiftLeft_add_eq_or_of_lt y.isLt, Nat.shiftLeft_eq]

/-- The fields of `CAPS`, as a number (R25). -/
theorem caps_toNat (s : State) (h : s.sig.length ≤ 512) :
    s.caps.toNat = s.sig.length + 64 * 2 ^ 16 + 0x10 * 2 ^ 24 := by
  have hlen : s.sig.length % 2 ^ 10 = s.sig.length := Nat.mod_eq_of_lt (by omega)
  simp only [State.caps, State.nsig, toNat_append_add, BitVec.toNat_ofNat, hlen, Config.version, Config.bufMax]
  omega

/-! ## The fault information word -/

/-- The model's codes are those of the table (R131). -/
theorem Cause.code_toNat (c : Cause) : c.code.toNat = causeNumber c := by
  cases c <;> rfl

theorem causeNumber_le_eight (c : Cause) : causeNumber c ≤ 8 := by
  cases c <;> decide

/-- The fields of the information word, as a number (R133). -/
theorem faultInfo_toNat (op : BitVec 8) (c : Cause) (idx : BitVec 9) :
    (faultInfo op c idx).toNat = causeNumber c + op.toNat * 2 ^ 8 + idx.toNat * 2 ^ 16 := by
  simp only [faultInfo, toNat_append_add, c.code_toNat, BitVec.toNat_ofNat]
  omega

theorem faultInfo_eq_ofNat (op : BitVec 8) (c : Cause) (idx : BitVec 9) :
    faultInfo op c idx = BitVec.ofNat 64 (causeNumber c + op.toNat * 2 ^ 8 + idx.toNat * 2 ^ 16) := by
  rw [← faultInfo_toNat, BitVec.ofNat_toNat, BitVec.setWidth_eq]

theorem fsrIdx_faultInfo (op : BitVec 8) (c : Cause) (idx : BitVec 9) : fsrIdx (faultInfo op c idx) = idx := by
  have hc := causeNumber_le_eight c
  apply BitVec.eq_of_toNat_eq
  rw [fsrIdx, BitVec.extractLsb'_toNat, faultInfo_toNat, Nat.shiftRight_eq_div_pow]
  omega

theorem fsrOp_faultInfo (op : BitVec 8) (c : Cause) (idx : BitVec 9) : fsrOp (faultInfo op c idx) = op := by
  have hc := causeNumber_le_eight c
  apply BitVec.eq_of_toNat_eq
  rw [fsrOp, BitVec.extractLsb'_toNat, faultInfo_toNat, Nat.shiftRight_eq_div_pow]
  omega

theorem fsrCause_faultInfo (op : BitVec 8) (c : Cause) (idx : BitVec 9) : fsrCause (faultInfo op c idx) = c.code := by
  have hc := causeNumber_le_eight c
  apply BitVec.eq_of_toNat_eq
  rw [fsrCause, BitVec.extractLsb'_toNat, faultInfo_toNat, c.code_toNat, Nat.shiftRight_eq_div_pow]
  omega

theorem fsrMulti_faultInfo (op : BitVec 8) (c : Cause) (idx : BitVec 9) : fsrMulti (faultInfo op c idx) = false := by
  have hlt : (faultInfo op c idx).toNat < 2 ^ 31 := by
    have hc := causeNumber_le_eight c
    rw [faultInfo_toNat]
    omega
  rw [fsrMulti, ← BitVec.testBit_toNat, Nat.testBit_lt_two_pow hlt]

/-- The information word has zeros in the bits of `FSR` that read as zero (R24). -/
theorem faultInfo_and_reserved (op : BitVec 8) (c : Cause) (idx : BitVec 9) :
    faultInfo op c idx &&& fsrReservedMask = 0#64 := by
  apply BitVec.eq_of_getLsbD_eq
  intro i hi
  simp only [faultInfo, fsrReservedMask, BitVec.getLsbD_and, BitVec.getLsbD_append, BitVec.getLsbD_zero]
  interval_cases i <;> simp

/-- Setting `MULTI` keeps the recorded cause (R134). -/
theorem fsrCause_or_multi (f : BitVec 64) : fsrCause (f ||| 0x80000000#64) = fsrCause f := by
  rw [fsrCause, BitVec.extractLsb'_or]
  exact BitVec.or_zero

/-- Recording a fault keeps what holds of `FSR` (R24, R131, R134). -/
theorem recordFault_inv {f : BitVec 64} (h : fsrInv f) (op : BitVec 8) (c : Cause) (idx : BitVec 9) :
    fsrInv (recordFault f (faultInfo op c idx)) := by
  obtain ⟨hreserved, hcause, _⟩ := h
  unfold recordFault
  split
  next =>
    refine ⟨faultInfo_and_reserved op c idx, ?_, fun hmulti => ?_⟩
    · rw [fsrCause_faultInfo, c.code_toNat]
      exact causeNumber_le_eight c
    · rw [fsrMulti_faultInfo] at hmulti
      cases hmulti
  next hrecorded =>
    rw [fsrInv, fsrCause_or_multi, BitVec.and_or_distrib_right, hreserved]
    exact ⟨by decide, hcause, fun _ => hrecorded⟩

/-- Settles O60: the fields of the information word, which the response and the record carry. -/
theorem faultTakenReportsOpcodeAndIndex : Obligations.FaultTakenReportsOpcodeAndIndex := by
  intro s op c idx f
  have hcode : BitVec.ofNat 4 (causeNumber c) = c.code := by
    rw [← c.code_toNat, BitVec.ofNat_toNat, BitVec.setWidth_eq]
  rw [← faultInfo_eq_ofNat op c idx, hcode]
  exact ⟨rfl, fsrIdx_faultInfo op c idx, fsrOp_faultInfo op c idx, fsrCause_faultInfo op c idx, rfl, rfl, rfl, rfl⟩

end Sys2Proof.Machine
end

section
/-!
PROOFS. Truncating a finite value gives a finite value (R90): rounding a rational gives an infinity only beyond the
largest finite `f64`, and truncation does not grow the magnitude.
-/

namespace Sys2Proof.Machine

/-! ## The magnitudes of finite values -/

/-- The largest finite `f64`, in units of 2^-1074. -/
def maxFiniteUnits : Nat := (2 ^ 53 - 1) * 2 ^ 2045

theorem maxFiniteUnits_lt : maxFiniteUnits < 2 ^ 2098 := by decide +kernel

/-- Rounding to a natural number does not pass a natural bound. -/
theorem roundHalfEven_le {n d k : Nat} (hd : 0 < d) (h : n ≤ k * d) : roundHalfEven n d ≤ k := by
  unfold roundHalfEven
  rcases Nat.lt_or_ge (n / d) k with hlt | hge
  · split <;> omega
  · have hmul : k * d ≤ n := le_trans (Nat.mul_le_mul_right d hge) (Nat.div_mul_le_self n d)
    obtain rfl : n = k * d := le_antisymm h hmul
    simp [Nat.mul_mod_left, Nat.mul_div_cancel k hd, hd.ne]

/-- The value of a finite pattern is a number of units of at most the largest (R18). -/
theorem F64.real_eq {x : F64} (h : F64.isFinite x = true) :
    ∃ u : Int, F64.real x = mkRat u (2 ^ 1074) ∧ u.natAbs ≤ maxFiniteUnits := by
  have hexp : F64.expField x ≤ 2046 := by
    have hlt : F64.expField x < 2 ^ 11 := (x.extractLsb' 52 11).isLt
    have hne : F64.expField x ≠ 2047 := by simpa [F64.isFinite] using h
    omega
  have hfrac : F64.fracField x < 2 ^ 52 := (x.extractLsb' 0 52).isLt
  have hshift : max (F64.expField x) 1 - 1 ≤ 2045 := by omega
  have hsig : (if F64.expField x = 0 then F64.fracField x else F64.fracField x + 2 ^ 52) ≤ 2 ^ 53 - 1 := by
    split <;> omega
  unfold F64.real
  refine ⟨_, rfl, ?_⟩
  simp only [apply_ite Int.natAbs, Int.natAbs_neg, ite_self, Int.natAbs_mul, Int.natAbs_natCast, Int.natAbs_pow]
  unfold maxFiniteUnits
  gcongr
  · exact one_le_two
  · exact le_refl 2

theorem isFinite_ofNat {p : Nat} (h : p < infPattern) (negative : Prop) [Decidable negative] :
    F64.isFinite (BitVec.ofNat 64 (if negative then 2 ^ 63 + p else p)) = true := by
  unfold infPattern at h
  simp only [F64.isFinite, F64.expField, BitVec.extractLsb'_toNat, BitVec.toNat_ofNat, Nat.shiftRight_eq_div_pow,
    decide_eq_true_eq]
  split <;> omega

/-- Rounding a rational of at most the largest finite magnitude gives a finite value. -/
theorem isFinite_rne {r : Rat} (h : r.num.natAbs * 2 ^ 1074 ≤ maxFiniteUnits * r.den) : F64.isFinite (rne r) = true := by
  unfold rne
  apply isFinite_ofNat
  generalize r.num.natAbs * 2 ^ 1074 = n at h
  have hden := r.den_pos
  generalize r.den = d at h hden
  refine lt_of_le_of_lt (Nat.min_le_left _ _) ?_
  have hlog : Nat.log2 (n / d) < 2098 := by
    have hle : n / d ≤ maxFiniteUnits := Nat.div_le_of_le_mul (by rwa [mul_comm])
    have hlt : n / d < 2 ^ 2098 := hle.trans_lt maxFiniteUnits_lt
    rcases Nat.eq_zero_or_pos (n / d) with hz | hpos
    · rw [hz]; decide
    · exact (pow_lt_pow_iff_right₀ one_lt_two).mp ((Nat.log2_self_le hpos.ne').trans_lt hlt)
  have hquot : n / d < 2 ^ (Nat.log2 (n / d) - 52 + 53) :=
    Nat.lt_log2_self.trans_le (Nat.pow_le_pow_right Nat.two_pos (by omega))
  have ht : Nat.log2 (n / d) - 52 ≤ 2045 := by omega
  generalize Nat.log2 (n / d) - 52 = t at hquot ht
  rcases ht.lt_or_eq with hlt | rfl
  · have hround : roundHalfEven n (d * 2 ^ t) ≤ 2 ^ 53 := by
      refine roundHalfEven_le (by positivity) ?_
      have hlt := (Nat.div_lt_iff_lt_mul hden).mp hquot
      exact (hlt.trans_eq (by ring)).le
    unfold infPattern
    omega
  · have hround : roundHalfEven n (d * 2 ^ 2045) ≤ 2 ^ 53 - 1 := by
      refine roundHalfEven_le (by positivity) ?_
      rwa [maxFiniteUnits, mul_assoc, mul_comm (2 ^ 2045)] at h
    unfold infPattern
    omega

/-- A fraction and its lowest terms have equal cross products. -/
theorem natAbs_num_mul_of_eq_mkRat {q : Rat} {u : Int} {d : Nat} (hd : 0 < d) (h : q = mkRat u d) :
    q.num.natAbs * d = u.natAbs * q.den := by
  have hcross := (Rat.mkRat_eq_iff q.den_ne_zero hd.ne').mp ((Rat.mkRat_self q).trans h)
  simpa [Int.natAbs_mul] using congrArg Int.natAbs hcross

/-- Truncating a finite value gives a finite value (R90). -/
theorem isFinite_ftrunc {x : F64} (h : F64.isFinite x = true) : F64.isFinite (ftrunc x) = true := by
  obtain ⟨u, hreal, hu⟩ := F64.real_eq h
  have hcross := natAbs_num_mul_of_eq_mkRat (by positivity) hreal
  apply isFinite_rne
  unfold intOfF64
  generalize F64.real x = q at hcross
  rw [Rat.num_intCast, Rat.den_intCast, Int.natAbs_tdiv, Int.natAbs_natCast, mul_one]
  refine le_trans (Nat.le_of_mul_le_mul_right ?_ q.den_pos) hu
  calc q.num.natAbs / q.den * 2 ^ 1074 * q.den
      = q.num.natAbs / q.den * q.den * 2 ^ 1074 := mul_right_comm ..
    _ ≤ q.num.natAbs * 2 ^ 1074 := Nat.mul_le_mul_right _ (Nat.div_mul_le_self ..)
    _ = u.natAbs * q.den := hcross

/-- A scaled value is finite (R91). -/
theorem isFinite_of_scale_eq_ok {raw : BitVec 64} {factor offset ph : F64} (h : scale raw factor offset = .ok ph) :
    F64.isFinite ph = true := by
  rcases scale_cases raw factor offset with ⟨_, hsum, hok⟩ | ⟨_, herror⟩
  · obtain rfl := Except.ok.inj (hok.symm.trans h)
    exact isFinite_ftrunc hsum
  · cases herror.symm.trans h

/-- An unscaled value fits its length (R92). -/
theorem toNat_le_of_unscale_eq_ok {p factor offset : F64} {len : Nat} {r : BitVec 64}
    (h : unscale p factor offset len = .ok r) : r.toNat ≤ 2 ^ len - 1 := by
  obtain ⟨_, _, _, _, hnonneg, hmax, rfl⟩ := unscale_ok p factor offset len r h
  have hpow : ((2 ^ len : Nat) : Int) = 2 ^ len := by push_cast; rfl
  rw [BitVec.toNat_ofNat]
  refine (Nat.mod_le _ _).trans ?_
  omega

end Sys2Proof.Machine
end

section
/-!
PROOFS. What a command may write, said once: every command's pseudocode is a run of the primitive writes below, and then
a response or a fault taken. What all these keep, the command keeps.
-/

namespace Sys2Proof.Machine

open Relation (ReflTransGen)

/-! ## The primitive writes -/

/-- The writes command `i` may make in slot `g`. -/
inductive SlotWrite : Instr → Slot → Slot → Prop
  /-- A definition with a legal length (R95). -/
  | define (slot : BitVec 9) (d : Data) (g : Slot) (hpos : 1 ≤ (geomLen d).toNat) (hmax : (geomLen d).toNat ≤ 64) :
      SlotWrite (.sigdef slot d) g (definedSlot d)
  /-- A finite factor, with the physical value scaled by it (R96). -/
  | factor (fld : BitVec 4) (slot : BitVec 9) (value : Data) {g : Slot} {ph : F64}
      (hfinite : F64.isFinite value = true) (hscale : scale g.raw value g.offset = .ok ph) :
      SlotWrite (.sigwr fld slot value) g { g with factor := value, phys := ph }
  /-- A finite offset, with the physical value scaled by it (R96). -/
  | offset (fld : BitVec 4) (slot : BitVec 9) (value : Data) {g : Slot} {ph : F64}
      (hfinite : F64.isFinite value = true) (hscale : scale g.raw g.factor value = .ok ph) :
      SlotWrite (.sigwr fld slot value) g { g with offset := value, phys := ph }
  /-- A finite `MIN` (R96). -/
  | min (fld : BitVec 4) (slot : BitVec 9) (value : Data) (g : Slot) (hfinite : F64.isFinite value = true) :
      SlotWrite (.sigwr fld slot value) g { g with min := value }
  /-- A finite `MAX` (R96). -/
  | max (fld : BitVec 4) (slot : BitVec 9) (value : Data) (g : Slot) (hfinite : F64.isFinite value = true) :
      SlotWrite (.sigwr fld slot value) g { g with max := value }
  /-- A default that is in range (R96). -/
  | dflt (fld : BitVec 4) (slot : BitVec 9) (value : Data) (g : Slot) (hrange : value.toNat ≤ 2 ^ g.len.toNat - 1) :
      SlotWrite (.sigwr fld slot value) g { g with dflt := value }
  /-- A raw value that is in range, or is the default, with the physical value scaled from it (R98, R112, R114). -/
  | raw {i : Instr} {g : Slot} {v : BitVec 64} {ph : F64} (hi : i.opcode ∈ [opSetv, opUpdr, opRstd])
      (hrange : v.toNat ≤ 2 ^ g.len.toNat - 1 ∨ v = g.dflt) (hscale : scale v g.factor g.offset = .ok ph) :
      SlotWrite i g { g with raw := v, phys := ph }
  /-- A physical value with the raw value unscaled from it (R99). -/
  | phys (slot : BitVec 9) (p : F64) {g : Slot} {r : BitVec 64}
      (hunscale : unscale p g.factor g.offset g.len.toNat = .ok r) :
      SlotWrite (.setp slot p) g { g with raw := r, phys := p }

/-- The writes command `i` may make in the state. -/
inductive Write (i : Instr) : State → State → Prop
  /-- One byte below `BLEN` (R120). -/
  | byte (s : State) (k : Nat) (v : Byte) (hi : i.opcode = opWrb) (hk : k < s.blen.toNat) :
      Write i s (s.setBuf (memSet s.buf k v))
  /-- Bytes of a field below `BLEN` (R49, R86). -/
  | cells (s : State) (g : Geom) (v : BitVec 64) (writes : Nat → Bool) (hi : i.opcode ∈ [opSetd, opUpds])
      (hk : ∀ k ∈ g.span, writes k = true → k < s.blen.toNat) : Write i s (s.setBuf (insertCells s.buf g v writes))
  /-- A draw of the free value (U1). -/
  | draw (s : State) (hi : i.opcode ∈ [opSetd, opUpds]) : Write i s s.nextDraw
  /-- `BLEN`, with a legal length (R122). -/
  | blen (s : State) (n : BitVec 7) (hi : i.opcode = opWrcr) (hpos : 1 ≤ n.toNat) (hmax : n.toNat ≤ 64) :
      Write i s (s.setBlen n)
  /-- `MSGID` (R122). -/
  | msgid (s : State) (v : BitVec 32) (hi : i.opcode = opWrcr) : Write i s (s.setMsgid v)
  /-- The record cleared (R139). -/
  | clear (s : State) (hi : i.opcode = opWrcr) : Write i s (s.setFsr 0#64)
  /-- One slot that exists. -/
  | slot (s : State) (k : Nat) {g g' : Slot} (hk : s.sig[k]? = some g) (hg : SlotWrite i g g') :
      Write i s (s.setSlot k g')

/-! ## Every command is a run of them -/

/-- The state in which a pseudocode ends, before its response. -/
def Effect.state : Effect → State
  | .respond _ s => s
  | .raise _ _ s => s

/-- The outcome is the end of a pseudocode of command `i` that has made its writes from `s` on. -/
def EndsAfterWrites (i : Instr) (s : State) (o : Host.Outcome State Fault Refusal) : Prop :=
  ∃ e : Effect, o = complete i.opcode e ∧ ReflTransGen (Write i) s e.state

theorem endsAfterWrites_refl (i : Instr) {s : State} {e : Effect} (h : e.state = s) :
    EndsAfterWrites i s (complete i.opcode e) := ⟨e, rfl, h ▸ .refl⟩

/-- The state an insert or a slot's processing leaves, whether it succeeds or faults. -/
def slotState : Except (Cause × State) State → State
  | .ok t => t
  | .error (_, t) => t

/-- An insert writes cells below `BLEN`, and draws when it faults (R49, R86). -/
theorem insertField_writes {i : Instr} (hi : i.opcode ∈ [opSetd, opUpds]) (s : State) (g : Geom) (v : BitVec 64) :
    ReflTransGen (Write i) s (slotState (insertField s g v)) := by
  rcases insertField_cases s g v with ⟨hfits, h⟩ | ⟨_, h⟩ <;> rw [h]
  · exact .single (.cells s g v _ hi fun k hk _ => (g.fits_iff _).mp hfits k hk)
  · exact .tail (.single (.cells s g v _ hi fun k _ hk => faultedWrites_lt s k hk)) (.draw _ hi)

/-- Storing a raw value writes the slot or nothing. -/
theorem storeRaw_writes {i : Instr} (hi : i.opcode ∈ [opSetv, opUpdr, opRstd]) {s : State} {k : Nat} {g : Slot}
    {v : BitVec 64} (hk : s.sig[k]? = some g) (hrange : v.toNat ≤ 2 ^ g.len.toNat - 1 ∨ v = g.dflt) :
    ReflTransGen (Write i) s (slotState (storeRaw k g v s)) := by
  rcases storeRaw_cases k g v s with ⟨ph, hscale, h⟩ | ⟨_, h⟩ <;> rw [h]
  · exact .single (.slot s k hk (.raw hi hrange hscale))
  · exact .refl

/-- An extracted value fits its length. -/
theorem Geom.gather_toNat_le (g : Geom) (byte : Nat → Byte) : (g.gather byte).toNat ≤ 2 ^ g.len - 1 := by
  have hlt : (g.gather byte).toNat < 2 ^ g.len := by
    refine Nat.lt_pow_two_of_testBit _ fun i hi => ?_
    rw [BitVec.testBit_toNat, g.gather_getLsbD]
    simp [Nat.not_lt.mpr hi]
  omega

theorem decodeSlot_writes {s : State} {k : Nat} {g : Slot} (hk : s.sig[k]? = some g) :
    ReflTransGen (Write .updr) s (slotState (decodeSlot k g s)) := by
  unfold decodeSlot
  rcases extractField_cases s g.geom with ⟨_, h⟩ | ⟨_, h⟩ <;> rw [h]
  · exact storeRaw_writes (by decide) hk (.inl (g.geom.gather_toNat_le s.byte))
  · exact .refl

/-- An iteration makes the writes of its slots (R110). -/
theorem forAllSlots_writes {i : Instr} {body : Nat → Slot → State → Except (Cause × State) State}
    (hbody : ∀ k g s, s.sig[k]? = some g → ReflTransGen (Write i) s (slotState (body k g s))) (s : State) :
    EndsAfterWrites i s (complete i.opcode (forAllSlots body s)) := by
  have step (k : Nat) (g : Slot) (u : State) (hu : ReflTransGen (Write i) s u) (hk : u.validSlot k = some g) :
      ReflTransGen (Write i) s (slotState (body k g u)) :=
    hu.trans (hbody k g u ((validSlot_eq_some u k g).mp hk).1)
  have hends := forValidSlots_induct (ReflTransGen (Write i) s) body
    (fun k g u t hu hk ht => by simpa [ht, slotState] using step k g u hu hk)
    (fun k g u c t hu hk ht => by simpa [ht, slotState] using step k g u hu hk) (List.range s.nsig) s .refl
  refine ⟨_, rfl, ?_⟩
  rcases hends with ⟨t, h, ht⟩ | ⟨k, c, t, _, h, ht⟩ <;> rw [forAllSlots, h] <;> exact ht

theorem execSetd_writes (start : BitVec 9) (len : BitVec 7) (io : Layout) (value : Data) (s : State) :
    EndsAfterWrites (.setd start len io value) s (execSetd start len io value s) := by
  refine ⟨_, rfl, ?_⟩
  split
  · exact .refl
  split
  · exact .refl
  have hwrites := insertField_writes (i := .setd start len io value) (by simp [Instr.opcode]) s
    (codecGeom start len io) value
  cases h : insertField s (codecGeom start len io) value <;> rw [h] at hwrites <;> exact hwrites

theorem execGetd_writes (start : BitVec 9) (len : BitVec 7) (io : Layout) (s : State) :
    EndsAfterWrites (.getd start len io) s (execGetd start len io s) := by
  apply endsAfterWrites_refl (.getd start len io)
  split
  · rfl
  cases extractField s (codecGeom start len io) <;> rfl

theorem execWrb_writes (idx : BitVec 9) (data : Data) (s : State) :
    EndsAfterWrites (.wrb idx data) s (execWrb idx data s) := by
  refine ⟨_, rfl, ?_⟩
  split
  · exact .refl
  rcases memWrite_cases s idx.toNat (data.extractLsb' 0 8) with ⟨hk, h⟩ | ⟨_, h⟩ <;> rw [h]
  · exact .single (.byte s _ _ rfl hk)
  · exact .refl

theorem execRdb_writes (idx : BitVec 9) (s : State) : EndsAfterWrites (.rdb idx) s (execRdb idx s) := by
  apply endsAfterWrites_refl (.rdb idx)
  cases memRead s idx.toNat <;> rfl

theorem execWrcr_writes (cr : BitVec 9) (value : Data) (s : State) :
    EndsAfterWrites (.wrcr cr value) s (execWrcr cr value s) := by
  refine ⟨_, rfl, ?_⟩
  cases selectCtrlReg cr with
  | none => exact .refl
  | some r =>
    cases r with
    | blen =>
      simp only
      split
      next => exact .refl
      next hlegal =>
        have hn : (value.extractLsb' 0 7).toNat = value.toNat := by simp; omega
        exact .single (.blen s _ rfl (by omega) (by omega))
    | msgid =>
      simp only
      split
      · exact .refl
      · exact .single (.msgid s _ rfl)
    | fsr => exact .single (.clear s rfl)
    | caps => exact .refl

theorem execRdcr_writes (cr : BitVec 9) (s : State) : EndsAfterWrites (.rdcr cr) s (execRdcr cr s) := by
  apply endsAfterWrites_refl (.rdcr cr)
  cases selectCtrlReg cr <;> rfl

theorem execSigdef_writes (slot : BitVec 9) (d : Data) (s : State) :
    EndsAfterWrites (.sigdef slot d) s (execSigdef slot d s) := by
  refine ⟨_, rfl, ?_⟩
  split
  · exact .refl
  split
  · exact .refl
  split
  · exact .refl
  next hslot _ hlen =>
    have hk : slot.toNat < s.sig.length := Nat.not_le.mp hslot
    exact .single (.slot s _ (List.getElem?_eq_getElem hk) (.define slot d _ (by omega) (by omega)))

/-- A write of a field that succeeds is one of the five of `SIGWR` (R96). -/
theorem writeSlotField_writes (fld : BitVec 4) (slot : BitVec 9) {value : Data} {g g' : Slot} {f : SlotField}
    (h : writeSlotField g value f = .ok g') : SlotWrite (.sigwr fld slot value) g g' := by
  unfold writeSlotField at h
  cases f with
  | factor =>
    simp only at h
    split at h
    · cases h
    next hfinite =>
      cases hscale : scale g.raw value g.offset <;> rw [hscale] at h <;> cases h
      exact .factor fld slot value (by simpa using hfinite) hscale
  | offset =>
    simp only at h
    split at h
    · cases h
    next hfinite =>
      cases hscale : scale g.raw g.factor value <;> rw [hscale] at h <;> cases h
      exact .offset fld slot value (by simpa using hfinite) hscale
  | min =>
    simp only at h
    split at h <;> cases h
    next hfinite => exact .min fld slot value g (by simpa using hfinite)
  | max =>
    simp only at h
    split at h <;> cases h
    next hfinite => exact .max fld slot value g (by simpa using hfinite)
  | dflt =>
    simp only at h
    split at h <;> cases h
    next hrange => exact .dflt fld slot value g (by simpa [fitsLen] using hrange)
  | geom | raw | phys => cases h

theorem execSigwr_writes (fld : BitVec 4) (slot : BitVec 9) (value : Data) (s : State) :
    EndsAfterWrites (.sigwr fld slot value) s (execSigwr fld slot value s) := by
  refine ⟨_, rfl, ?_⟩
  cases writableField fld with
  | none => exact .refl
  | some f =>
    rcases lookupSlot_cases s slot with ⟨g, hk, _, h⟩ | ⟨_, h⟩
    · simp only [h]
      cases hwrite : writeSlotField g value f with
      | error c => exact .refl
      | ok g' => exact .single (.slot s _ hk (writeSlotField_writes fld slot hwrite))
    · simp only [h]
      exact .refl

theorem execSigrd_writes (fld : BitVec 4) (slot : BitVec 9) (s : State) :
    EndsAfterWrites (.sigrd fld slot) s (execSigrd fld slot s) := by
  apply endsAfterWrites_refl (.sigrd fld slot)
  cases selectField fld with
  | none => rfl
  | some f => cases lookupSlot s slot <;> rfl

theorem execSetv_writes (slot : BitVec 9) (raw : Data) (s : State) :
    EndsAfterWrites (.setv slot raw) s (execSetv slot raw s) := by
  refine ⟨_, rfl, ?_⟩
  rcases lookupSlot_cases s slot with ⟨g, hk, _, h⟩ | ⟨_, h⟩
  · simp only [h]
    split
    next => exact .refl
    next hrange =>
      have hfits : raw.toNat ≤ 2 ^ g.len.toNat - 1 := by simpa [fitsLen] using hrange
      have hwrites := storeRaw_writes (i := .setv slot raw) (by simp [Instr.opcode]) hk (.inl hfits)
      cases hstore : storeRaw slot.toNat g raw s <;> rw [hstore] at hwrites <;> exact hwrites
  · simp only [h]
    exact .refl

theorem execSetp_writes (slot : BitVec 9) (phys : F64) (s : State) :
    EndsAfterWrites (.setp slot phys) s (execSetp slot phys s) := by
  refine ⟨_, rfl, ?_⟩
  rcases lookupSlot_cases s slot with ⟨g, hk, _, h⟩ | ⟨_, h⟩
  · simp only [h]
    cases hunscale : unscale phys g.factor g.offset g.len.toNat with
    | error c => exact .refl
    | ok r => exact .single (.slot s _ hk (.phys slot phys hunscale))
  · simp only [h]
    exact .refl

theorem execChkm_writes (checkData : Bool) (s : State) :
    EndsAfterWrites (.chkm checkData) s (execChkm checkData s) := by
  apply endsAfterWrites_refl (.chkm checkData)
  split
  · rfl
  split
  · cases badByte s <;> rfl
  · rfl

/-- Every command ends after a run of its writes. -/
theorem exec_writes (i : Instr) (s : State) : EndsAfterWrites i s (exec i s) := by
  cases i with
  | setd start len io value => exact execSetd_writes start len io value s
  | getd start len io => exact execGetd_writes start len io s
  | wrb idx data => exact execWrb_writes idx data s
  | rdb idx => exact execRdb_writes idx s
  | wrcr cr value => exact execWrcr_writes cr value s
  | rdcr cr => exact execRdcr_writes cr s
  | sigdef slot geom => exact execSigdef_writes slot geom s
  | sigwr fld slot value => exact execSigwr_writes fld slot value s
  | sigrd fld slot => exact execSigrd_writes fld slot s
  | setv slot raw => exact execSetv_writes slot raw s
  | setp slot phys => exact execSetp_writes slot phys s
  | upds => exact forAllSlots_writes (fun _ g s _ => insertField_writes (by decide) s g.geom g.raw) s
  | updr => exact forAllSlots_writes (fun _ _ _ hk => decodeSlot_writes hk) s
  | chkm checkData => exact execChkm_writes checkData s
  | rstd => exact forAllSlots_writes (fun _ _ _ hk => storeRaw_writes (by decide) hk (.inr rfl)) s

/-- What the writes of a command keep, and responding and taking a fault keep, the command keeps. -/
theorem exec_induct {P : State → Prop} {i : Instr} (write : ∀ s t, P s → Write i s t → P t)
    (emit : ∀ s r, P s → P (s.emit r)) (fault : ∀ s op c idx, P s → P (s.takeFault op c idx)) {s t : State} (hs : P s)
    (ht : exec i s = .next t) : P t := by
  obtain ⟨e, he, hwrites⟩ := exec_writes i s
  have keep (u : State) (hu : ReflTransGen (Write i) s u) : P u := by
    induction hu with
    | refl => exact hs
    | tail _ h ih => exact write _ _ ih h
  cases e <;> obtain rfl := Host.Outcome.next.inj (ht.symm.trans he)
  · exact emit _ _ (keep _ hwrites)
  · exact fault _ _ _ _ (keep _ hwrites)

end Sys2Proof.Machine
end

section
/-!
PROOFS. What each command may write (R39), and with it that the number of slots and so `CAPS` never changes (R25).
-/

namespace Sys2Proof.Machine

/-! ## What each command leaves of a slot and of the state -/

/-- What command `i` keeps of a slot, `g` before it and `h` after it (R39). -/
structure SlotFrame (i : Instr) (g h : Slot) : Prop where
  geometry : i.opcode ≠ opSigdef →
    h.valid = g.valid ∧ h.start = g.start ∧ h.len = g.len ∧ h.layout = g.layout ∧ h.isSign = g.isSign
  scaling : i.opcode ∉ [opSigdef, opSigwr] →
    h.factor = g.factor ∧ h.offset = g.offset ∧ h.min = g.min ∧ h.max = g.max ∧ h.dflt = g.dflt
  raw : i.opcode = opSigwr → h.raw = g.raw

/-- What command `i` keeps of the state, `s` before it and `t` after it (R39). -/
structure Frame (i : Instr) (s t : State) : Prop where
  buf : i.opcode ∉ [opSetd, opWrb, opUpds] → t.buf = s.buf
  draws : i.opcode ∉ [opSetd, opUpds] → t.draws = s.draws
  registers : i.opcode ≠ opWrcr → t.blen = s.blen ∧ t.msgid = s.msgid
  sig : i.opcode ∉ [opSigdef, opSigwr, opSetv, opSetp, opUpdr, opRstd] → t.sig = s.sig
  length : t.sig.length = s.sig.length
  slots : ∀ (n : Nat) (g h : Slot), s.sig[n]? = some g → t.sig[n]? = some h → SlotFrame i g h

theorem SlotFrame.refl (i : Instr) (g : Slot) : SlotFrame i g g where
  geometry _ := ⟨rfl, rfl, rfl, rfl, rfl⟩
  scaling _ := ⟨rfl, rfl, rfl, rfl, rfl⟩
  raw _ := rfl

theorem SlotFrame.trans {i : Instr} {g h k : Slot} (hgh : SlotFrame i g h) (hhk : SlotFrame i h k) :
    SlotFrame i g k where
  geometry hi := by simpa only [hgh.geometry hi] using hhk.geometry hi
  scaling hi := by simpa only [hgh.scaling hi] using hhk.scaling hi
  raw hi := (hhk.raw hi).trans (hgh.raw hi)

theorem Frame.refl (i : Instr) (s : State) : Frame i s s where
  buf _ := rfl
  draws _ := rfl
  registers _ := ⟨rfl, rfl⟩
  sig _ := rfl
  length := rfl
  slots _ g _ hg hh := Option.some.inj (hg.symm.trans hh) ▸ SlotFrame.refl i g

theorem SlotWrite.frame {i : Instr} {g h : Slot} (hw : SlotWrite i g h) : SlotFrame i g h := by
  cases hw with
  | define slot d =>
    exact ⟨fun hi => absurd rfl hi, fun hi => absurd (by simp [Instr.opcode]) hi,
      fun hi => absurd hi (show ¬ opSigdef = opSigwr by decide)⟩
  | factor | offset | min | max | dflt =>
    exact ⟨fun _ => ⟨rfl, rfl, rfl, rfl, rfl⟩, fun hi => absurd (by simp [Instr.opcode]) hi, fun _ => rfl⟩
  | raw hi =>
    exact ⟨fun _ => ⟨rfl, rfl, rfl, rfl, rfl⟩, fun _ => ⟨rfl, rfl, rfl, rfl, rfl⟩,
      fun hi' => absurd hi (by rw [hi']; decide)⟩
  | phys slot p =>
    exact ⟨fun _ => ⟨rfl, rfl, rfl, rfl, rfl⟩, fun _ => ⟨rfl, rfl, rfl, rfl, rfl⟩,
      fun hi => absurd hi (show ¬ opSetp = opSigwr by decide)⟩

theorem SlotWrite.opcode_mem {i : Instr} {g h : Slot} (hw : SlotWrite i g h) :
    i.opcode ∈ [opSigdef, opSigwr, opSetv, opSetp, opUpdr, opRstd] := by
  cases hw with
  | define | factor | offset | min | max | dflt | phys => simp [Instr.opcode]
  | raw hi => revert hi; simp only [List.mem_cons]; tauto

/-- A further write of the command is within its frame. -/
theorem Frame.write {i : Instr} {s t u : State} (h : Frame i s t) (hw : Write i t u) : Frame i s u := by
  cases hw with
  | byte k v hi => exact { h with buf := fun hn => absurd (by simp [hi]) hn }
  | cells g v writes hi => exact { h with buf := fun hn => absurd (by revert hi; simp; tauto) hn }
  | draw hi => exact { h with draws := fun hn => absurd hi hn }
  | blen n hi => exact { h with registers := fun hn => absurd hi hn }
  | msgid v hi => exact { h with registers := fun hn => absurd hi hn }
  | clear => exact { h with }
  | @slot k x y hk hxy =>
    refine { h with
      sig := fun hn => absurd hxy.opcode_mem hn
      length := (List.length_set ..).trans h.length
      slots := fun n a b ha hb => ?_ }
    rw [State.setSlot_sig, List.getElem?_set] at hb
    split at hb
    next hkn =>
      subst hkn
      obtain rfl : y = b := by
        split at hb
        · exact Option.some.inj hb
        · cases hb
      exact (h.slots k a x ha hk).trans hxy.frame
    next => exact h.slots n a b ha hb

theorem exec_frame {i : Instr} {s t : State} (ht : exec i s = .next t) : Frame i s t :=
  exec_induct (P := Frame i s) (fun _ _ h => h.write) (fun _ _ h => { h with }) (fun _ _ _ _ h => { h with })
    (Frame.refl i s) ht

/-- Settles O58: the frame of a command, with the frame of a slot written out. -/
theorem writesOfEachCommand : Obligations.WritesOfEachCommand := by
  intro i s t ht
  have h := exec_frame ht
  refine ⟨h.buf, h.draws, h.registers, h.sig, h.length, fun n g g' hg hg' => ?_⟩
  have hslot := h.slots n g g' hg hg'
  exact ⟨hslot.geometry, hslot.scaling, hslot.raw⟩

/-! ## What a step can do -/

/-- A step waits, resets the block, executes a command or takes an `IllegalCommand`. -/
theorem step_cases (s : State) :
    step s = .next s ∨ (∃ rest, step s = .next (s.setInput rest).resetBlock) ∨
      (∃ i rest, step s = exec i (s.setInput rest)) ∨
      ∃ op rest, step s = .next ((s.setInput rest).takeFault op .illegal 0#9) := by
  unfold step
  cases s.input with
  | nil => exact .inl rfl
  | cons x rest =>
    cases x with
    | reset c => exact .inr (.inl ⟨rest, rfl⟩)
    | command w d =>
      cases h : fetchCommand w d with
      | ok i => exact .inr (.inr (.inl ⟨i, rest, by simp only [h]⟩))
      | error e => exact .inr (.inr (.inr ⟨wordOp w, rest, by simp only [h]; rfl⟩))

/-- What every command keeps, and reset and taking a fault keep, every step keeps; the inputs are no part of it. -/
theorem step_induct {P : State → Prop} (input : ∀ s rest, P s → P (s.setInput rest)) (reset : ∀ s, P s → P s.resetBlock)
    (command : ∀ i s t, P s → exec i s = .next t → P t) (fault : ∀ s op c idx, P s → P (s.takeFault op c idx))
    {s t : State} (hs : P s) (ht : step s = .next t) : P t := by
  rcases step_cases s with h | ⟨rest, h⟩ | ⟨i, rest, h⟩ | ⟨op, rest, h⟩ <;> rw [h] at ht
  · exact Host.Outcome.next.inj ht ▸ hs
  · exact Host.Outcome.next.inj ht ▸ reset _ (input _ rest hs)
  · exact command _ _ _ (input _ rest hs) ht
  · exact Host.Outcome.next.inj ht ▸ fault _ _ _ _ (input _ rest hs)

theorem step_sig_length {s t : State} (ht : step s = .next t) : t.sig.length = s.sig.length :=
  step_induct (P := fun u => u.sig.length = s.sig.length) (fun _ _ h => h)
    (fun _ h => (List.length_replicate ..).trans h) (fun _ _ _ h hu => (exec_frame hu).length.trans h)
    (fun _ _ _ _ h => h) rfl ht

/-! ## The capability word -/

/-- Settles O30: no step changes the number of slots, the one part of `CAPS` that is not fixed. -/
theorem capsIsConstant : Obligations.CapsIsConstant := by
  refine ⟨caps_toNat, fun s v => rfl, fun s t ht => ?_⟩
  simp only [State.caps, State.nsig, step_sig_length ht]

end Sys2Proof.Machine
end

section
/-!
PROOFS. The invariant of the block (R38): it holds after reset, every write keeps it, and so does every step.
-/

namespace Sys2Proof.Machine

/-! ## Slots -/

/-- The scaling of a freshly defined slot: zero times one plus zero (R95). -/
theorem scale_defined : scale 0#64 f64One 0#64 = .ok 0#64 := by decide +kernel

theorem definedSlot_inv {d : Data} (hpos : 1 ≤ (geomLen d).toNat) (hmax : (geomLen d).toNat ≤ 64) :
    (definedSlot d).inv := by
  have hone : F64.isFinite f64One = true := by decide
  have hzero : F64.isFinite 0#64 = true := by decide
  exact fun _ => ⟨hpos, hmax, Nat.zero_le _, Nat.zero_le _, hone, hzero, hzero, hzero, hzero, .inl scale_defined⟩

/-- Every write of a slot keeps the slot's invariant. -/
theorem SlotWrite.inv {i : Instr} {g g' : Slot} (hw : SlotWrite i g g') (hg : g.inv) : g'.inv := by
  cases hw with
  | define slot d _ hpos hmax => exact definedSlot_inv hpos hmax
  | factor fld slot value hfinite hscale =>
    intro hvalid
    obtain ⟨hpos, hlen, hraw, hdflt, _, hoffset, hmin, hmax, _, _⟩ := hg hvalid
    exact ⟨hpos, hlen, hraw, hdflt, hfinite, hoffset, hmin, hmax, isFinite_of_scale_eq_ok hscale, .inl hscale⟩
  | offset fld slot value hfinite hscale =>
    intro hvalid
    obtain ⟨hpos, hlen, hraw, hdflt, hfactor, _, hmin, hmax, _, _⟩ := hg hvalid
    exact ⟨hpos, hlen, hraw, hdflt, hfactor, hfinite, hmin, hmax, isFinite_of_scale_eq_ok hscale, .inl hscale⟩
  | min fld slot value _ hfinite =>
    intro hvalid
    obtain ⟨hpos, hlen, hraw, hdflt, hfactor, hoffset, _, hmax, hphys, hagree⟩ := hg hvalid
    exact ⟨hpos, hlen, hraw, hdflt, hfactor, hoffset, hfinite, hmax, hphys, hagree⟩
  | max fld slot value _ hfinite =>
    intro hvalid
    obtain ⟨hpos, hlen, hraw, hdflt, hfactor, hoffset, hmin, _, hphys, hagree⟩ := hg hvalid
    exact ⟨hpos, hlen, hraw, hdflt, hfactor, hoffset, hmin, hfinite, hphys, hagree⟩
  | dflt fld slot value _ hrange =>
    intro hvalid
    obtain ⟨hpos, hlen, hraw, _, hrest⟩ := hg hvalid
    exact ⟨hpos, hlen, hraw, hrange, hrest⟩
  | raw _ hrange hscale =>
    intro hvalid
    obtain ⟨hpos, hlen, _, hdflt, hfactor, hoffset, hmin, hmax, _, _⟩ := hg hvalid
    have hraw := hrange.elim id fun hv => hv ▸ hdflt
    exact ⟨hpos, hlen, hraw, hdflt, hfactor, hoffset, hmin, hmax, isFinite_of_scale_eq_ok hscale, .inl hscale⟩
  | phys slot p hunscale =>
    intro hvalid
    obtain ⟨hpos, hlen, _, hdflt, hfactor, hoffset, hmin, hmax, _, _⟩ := hg hvalid
    have hphys := (unscale_ok _ _ _ _ _ hunscale).1
    exact ⟨hpos, hlen, toNat_le_of_unscale_eq_ok hunscale, hdflt, hfactor, hoffset, hmin, hmax, hphys, .inr hunscale⟩

/-! ## The state -/

/-- The record after reset, and after `WRCR` of `FSR` (R37, R139). -/
theorem fsrInv_zero : fsrInv 0#64 := by decide

/-- Every write keeps the invariant: the written cells exist since they are below `BLEN`. -/
theorem State.inv.write {i : Instr} {s t : State} (h : s.inv) (hw : Write i s t) : t.inv := by
  obtain ⟨hwf, hrange, hpos, hmax, hsome, hslots, hfsr, hsig⟩ := h
  cases hw with
  | byte k v _ hk =>
    exact ⟨memSet_wf _ k v hwf, memSet_inRange _ k v hrange (hk.trans_le hmax), hpos, hmax, hsome, hslots, hfsr, hsig⟩
  | cells g v writes _ hk =>
    have hexist : ∀ k ∈ g.span, writes k = true → k < Config.bufMax := fun k hks hkw => (hk k hks hkw).trans_le hmax
    exact ⟨insertCells_wf _ g v writes hwf, insertCells_inRange _ g v writes hrange hexist, hpos, hmax, hsome, hslots,
      hfsr, hsig⟩
  | draw => exact ⟨hwf, hrange, hpos, hmax, hsome, hslots, hfsr, hsig⟩
  | blen n _ hnpos hnmax => exact ⟨hwf, hrange, hnpos, hnmax, hsome, hslots, hfsr, hsig⟩
  | msgid => exact ⟨hwf, hrange, hpos, hmax, hsome, hslots, hfsr, hsig⟩
  | clear => exact ⟨hwf, hrange, hpos, hmax, hsome, hslots, fsrInv_zero, hsig⟩
  | @slot k g g' hk hg =>
    have hlength : (s.sig.set k g').length = s.sig.length := List.length_set ..
    refine ⟨hwf, hrange, hpos, hmax, hlength.symm ▸ hsome, hlength.symm ▸ hslots, hfsr, fun x hx => ?_⟩
    rcases List.mem_or_eq_of_mem_set hx with hold | rfl
    · exact hsig x hold
    · exact hg.inv (hsig g (List.mem_of_getElem? hk))

theorem State.inv.takeFault {s : State} (h : s.inv) (op : BitVec 8) (c : Cause) (idx : BitVec 9) :
    (s.takeFault op c idx).inv := by
  obtain ⟨hwf, hrange, hpos, hmax, hsome, hslots, hfsr, hsig⟩ := h
  exact ⟨hwf, hrange, hpos, hmax, hsome, hslots, recordFault_inv hfsr op c idx, hsig⟩

/-- The block after reset meets the invariant for every legal number of slots: no slot is valid (R37). -/
theorem resetOf_inv {n : Nat} (hpos : 1 ≤ n) (hmax : n ≤ 512) : (State.resetOf n).inv := by
  have hempty (g : Slot) (hg : g ∈ (State.resetOf n).sig) : g.inv := by
    obtain rfl := List.eq_of_mem_replicate hg
    exact fun hvalid => nomatch hvalid
  have hlength : (State.resetOf n).sig.length = n := List.length_replicate
  have hbuf : Memory.wf [] ∧ Memory.inRange [] := by decide
  have hblen : 1 ≤ Config.resetBlen.toNat ∧ Config.resetBlen.toNat ≤ 64 := by decide
  exact ⟨hbuf.1, hbuf.2, hblen.1, hblen.2, hlength.symm ▸ hpos, hlength.symm ▸ hmax, fsrInv_zero, hempty⟩

theorem State.inv.resetBlock {s : State} (h : s.inv) : s.resetBlock.inv := by
  obtain ⟨_, _, _, _, hsome, hslots, _⟩ := h
  exact resetOf_inv hsome hslots

/-- Settles O13: every write of a command keeps the invariant, and so do taking a fault and a reset. -/
theorem stepKeepsInvariant : Obligations.StepKeepsInvariant := by
  intro s t hs ht
  exact step_induct (P := State.inv) (fun _ _ h => h) (fun _ h => h.resetBlock)
    (fun _ _ _ h => exec_induct (fun _ _ h => h.write) (fun _ _ h => h) (fun _ op c idx h => h.takeFault op c idx) h)
    (fun _ op c idx h => h.takeFault op c idx) hs ht

/-- Settles O12: the reset state of the default size is one of them. -/
theorem resetMeetsInvariant : Obligations.ResetMeetsInvariant :=
  ⟨fun _ => resetOf_inv, resetOf_inv (by decide) (by decide)⟩

/-! ## The reset values -/

/-- Settles O11: the table of reset values, every slot of the new table being the empty one. -/
theorem resetValues : Obligations.ResetValues := by
  intro n hn
  have hlength : (State.resetOf n).sig.length = n := List.length_replicate
  have hcaps := caps_toNat (State.resetOf n) (hlength.trans_le hn)
  rw [hlength] at hcaps
  refine ⟨fun _ => rfl, rfl, rfl, rfl, hcaps, hlength, fun g hg => ?_⟩
  obtain rfl := List.eq_of_mem_replicate hg
  exact ⟨rfl, rfl, rfl, rfl, rfl, rfl, rfl, rfl, rfl, rfl, rfl, rfl⟩

/-- Settles O9: the step of a reset input is the reset of the block. -/
theorem stepOnReset : Obligations.StepOnReset := by
  intro s c rest hinput
  refine ⟨(s.setInput rest).resetBlock, ?_, fun _ => rfl, rfl, rfl, rfl, rfl, rfl, rfl⟩
  rw [step, hinput]

end Sys2Proof.Machine
end

section
/-!
PROOFS. What no command reads: the record (R35, R138), the sign flags (R93) and the bounds (R94). Two executions from
states that differ only in one of these are run side by side.
-/

namespace Sys2Proof.Machine

/-! ## The relation -/

/-- What the block keeps for the host alone: each can be read back, and nothing else depends on it. -/
inductive Unread
  /-- `FSR` (R138). -/
  | record
  /-- `ISSIGN` (R93). -/
  | sign
  /-- `MIN` and `MAX` (R94). -/
  | bounds

/-- The slots are equal but for the named fields, if these are fields of a slot. -/
def SlotAlike (w : Unread) (g h : Slot) : Prop :=
  ∃ b x y, h = { g with isSign := b, min := x, max := y } ∧
    (w ≠ .sign → b = g.isSign) ∧ (w ≠ .bounds → x = g.min ∧ y = g.max)

/-- The states are equal but for what is named. -/
def DifferIn (w : Unread) (s u : State) : Prop :=
  ∃ f l, u = (s.setFsr f).setSig l ∧ (w ≠ .record → f = s.fsr) ∧ List.Forall₂ (SlotAlike w) s.sig l

/-- The commands that read the named thing back (R97, R123). -/
def readsBack : Unread → Instr → Prop
  | .record, i => i = .rdcr 2#9
  | .sign, i => ∃ slot, i = .sigrd 0#4 slot
  | .bounds, i => ∃ slot, i = .sigrd 3#4 slot ∨ i = .sigrd 4#4 slot

/-! ## Lists that are related place by place -/

theorem forall₂_set {α β : Type} {R : α → β → Prop} {l : List α} {m : List β} (h : List.Forall₂ R l m) (k : Nat)
    {a : α} {b : β} (hab : R a b) : List.Forall₂ R (l.set k a) (m.set k b) := by
  induction h generalizing k with
  | nil => exact .nil
  | cons hxy htail ih =>
    cases k with
    | zero => exact .cons hab htail
    | succ k => exact .cons hxy (ih k)

theorem forall₂_getElem? {α β : Type} {R : α → β → Prop} {l : List α} {m : List β} (h : List.Forall₂ R l m) (k : Nat) :
    (l[k]? = none ∧ m[k]? = none) ∨ ∃ a b, l[k]? = some a ∧ m[k]? = some b ∧ R a b := by
  induction h generalizing k with
  | nil => exact .inl ⟨rfl, rfl⟩
  | @cons a b _ _ hab _ ih =>
    cases k with
    | zero => exact .inr ⟨a, b, rfl, rfl, hab⟩
    | succ k => simpa using ih k

section
variable {w : Unread}

theorem SlotAlike.refl (g : Slot) : SlotAlike w g g := ⟨_, _, _, rfl, fun _ => rfl, fun _ => ⟨rfl, rfl⟩⟩

theorem DifferIn.refl (s : State) : DifferIn w s s :=
  ⟨s.fsr, s.sig, rfl, fun _ => rfl, List.forall₂_same.mpr fun g _ => .refl g⟩

/-! ## What it keeps equal -/

theorem DifferIn.nsig_eq {s u : State} (h : DifferIn w s u) : u.nsig = s.nsig := by
  obtain ⟨f, l, rfl, _, hl⟩ := h
  exact hl.length_eq.symm

theorem DifferIn.msgid_eq {s u : State} (h : DifferIn w s u) : u.msgid = s.msgid := by
  obtain ⟨f, l, rfl, _⟩ := h
  rfl

theorem DifferIn.memRead_eq {s u : State} (h : DifferIn w s u) (k : Nat) : memRead u k = memRead s k := by
  obtain ⟨f, l, rfl, _⟩ := h
  rfl

theorem DifferIn.extractField_eq {s u : State} (h : DifferIn w s u) (g : Geom) :
    extractField u g = extractField s g := by
  obtain ⟨f, l, rfl, _⟩ := h
  rfl

theorem DifferIn.badByte_eq {s u : State} (h : DifferIn w s u) : badByte u = badByte s := by
  obtain ⟨f, l, rfl, _⟩ := h
  rfl

/-- The slots with a number are both valid and alike, or neither is valid. -/
theorem DifferIn.validSlot {s u : State} (h : DifferIn w s u) (k : Nat) :
    (s.validSlot k = none ∧ u.validSlot k = none) ∨
      ∃ g g', s.validSlot k = some g ∧ u.validSlot k = some g' ∧ SlotAlike w g g' := by
  obtain ⟨f, l, rfl, _, hl⟩ := h
  rcases forall₂_getElem? hl k with ⟨hs, hu⟩ | ⟨g, g', hs, hu, hg⟩
  · exact .inl ⟨(validSlot_eq_none _ _).mpr (.inl (List.getElem?_eq_none_iff.mp hs)),
      (validSlot_eq_none _ _).mpr (.inl (List.getElem?_eq_none_iff.mp hu))⟩
  · have hvalid : g'.valid = g.valid := by
      obtain ⟨b, x, y, rfl, _⟩ := hg
      rfl
    cases hv : g.valid with
    | false =>
      exact .inl ⟨(validSlot_eq_none _ _).mpr (.inr ⟨g, hs, hv⟩),
        (validSlot_eq_none _ _).mpr (.inr ⟨g', hu, hvalid.trans hv⟩)⟩
    | true =>
      exact .inr ⟨g, g', (validSlot_eq_some _ _ _).mpr ⟨hs, hv⟩,
        (validSlot_eq_some _ _ _).mpr ⟨hu, hvalid.trans hv⟩, hg⟩

theorem DifferIn.lookupSlot {s u : State} (h : DifferIn w s u) (slot : BitVec 9) :
    (lookupSlot s slot = .error .lookup ∧ lookupSlot u slot = .error .lookup) ∨
      ∃ g g', lookupSlot s slot = .ok g ∧ lookupSlot u slot = .ok g' ∧ SlotAlike w g g' := by
  unfold Machine.lookupSlot
  rcases h.validSlot slot.toNat with ⟨hs, hu⟩ | ⟨g, g', hs, hu, hg⟩ <;> rw [hs, hu]
  · exact .inl ⟨rfl, rfl⟩
  · exact .inr ⟨g, g', rfl, rfl, hg⟩

/-! ## The updates -/

/-- An update that touches neither what is named nor the slots keeps the relation. -/
theorem DifferIn.update {s u : State} (h : DifferIn w s u) (f : State → State) (hfsr : (f s).fsr = s.fsr)
    (hsig : (f s).sig = s.sig) (hcomm : ∀ x l, f ((s.setFsr x).setSig l) = ((f s).setFsr x).setSig l) :
    DifferIn w (f s) (f u) := by
  obtain ⟨x, l, rfl, hx, hl⟩ := h
  exact ⟨x, l, hcomm x l, hfsr ▸ hx, hsig ▸ hl⟩

theorem DifferIn.emit {s u : State} (h : DifferIn w s u) (r : Response) : DifferIn w (s.emit r) (u.emit r) :=
  h.update (·.emit r) rfl rfl fun _ _ => rfl

theorem DifferIn.takeFault {s u : State} (h : DifferIn w s u) (op : BitVec 8) (c : Cause) (idx : BitVec 9) :
    DifferIn w (s.takeFault op c idx) (u.takeFault op c idx) := by
  obtain ⟨f, l, rfl, hf, hl⟩ := h
  exact ⟨recordFault f (faultInfo op c idx), l, rfl, fun hw => by rw [hf hw]; rfl, hl⟩

theorem DifferIn.clear {s u : State} (h : DifferIn w s u) : DifferIn w (s.setFsr 0#64) (u.setFsr 0#64) := by
  obtain ⟨f, l, rfl, _, hl⟩ := h
  exact ⟨0#64, l, rfl, fun _ => rfl, hl⟩

theorem DifferIn.setSlot {s u : State} (h : DifferIn w s u) (k : Nat) {g g' : Slot} (hg : SlotAlike w g g') :
    DifferIn w (s.setSlot k g) (u.setSlot k g') := by
  obtain ⟨f, l, rfl, hf, hl⟩ := h
  exact ⟨f, l.set k g', rfl, hf, forall₂_set hl k hg⟩

theorem DifferIn.complete_nextRelated {e f : Effect} (op : BitVec 8) (h : Effect.Related (DifferIn w) e f) :
    NextRelated (DifferIn w) (complete op e) (complete op f) :=
  complete_related op (fun _ _ r h => h.emit r) (fun _ _ c idx h => h.takeFault op c idx) h

/-! ## The shared operations -/

theorem DifferIn.memWrite_related {s u : State} (h : DifferIn w s u) (k : Nat) (v : Byte) :
    (memWrite s k v = .error .index ∧ memWrite u k v = .error .index) ∨
      ∃ t t', memWrite s k v = .ok t ∧ memWrite u k v = .ok t' ∧ DifferIn w t t' := by
  obtain ⟨f, l, rfl, hfl⟩ := h
  by_cases hk : k < s.blen.toNat
  · exact .inr ⟨_, _, if_pos hk, if_pos hk, f, l, rfl, hfl⟩
  · exact .inl ⟨if_neg hk, if_neg hk⟩

theorem DifferIn.insertField_related {s u : State} (h : DifferIn w s u) (g : Geom) (v : BitVec 64) :
    SlotRelated (DifferIn w) (insertField s g v) (insertField u g v) := by
  obtain ⟨f, l, rfl, hfl⟩ := h
  unfold insertField
  cases hfits : g.fits s.blen.toNat <;>
    simp only [State.setSig_blen, State.setFsr_blen, hfits, Bool.false_eq_true, if_true, if_false]
  · exact .error _ ⟨f, l, rfl, hfl⟩
  · exact .ok ⟨f, l, rfl, hfl⟩

theorem DifferIn.storeRaw_related {s u : State} (h : DifferIn w s u) (k : Nat) {g g' : Slot} (hg : SlotAlike w g g')
    (v : BitVec 64) : SlotRelated (DifferIn w) (storeRaw k g v s) (storeRaw k g' v u) := by
  obtain ⟨b, x, y, rfl, hbxy⟩ := hg
  unfold storeRaw
  dsimp only
  cases scale v g.factor g.offset with
  | error c => exact .error c h
  | ok ph => exact .ok (h.setSlot k ⟨b, x, y, rfl, hbxy⟩)

theorem DifferIn.decodeSlot_related {s u : State} (h : DifferIn w s u) (k : Nat) {g g' : Slot}
    (hg : SlotAlike w g g') : SlotRelated (DifferIn w) (decodeSlot k g s) (decodeSlot k g' u) := by
  have hgeom : g'.geom = g.geom := by
    obtain ⟨b, x, y, rfl, _⟩ := hg
    rfl
  unfold decodeSlot
  rw [hgeom, h.extractField_eq]
  cases extractField s g.geom with
  | error c => exact .error c h
  | ok v => exact h.storeRaw_related k hg v

/-- A write of a field raises the same fault of both slots, or leaves them alike. -/
theorem SlotAlike.writeSlotField {g g' : Slot} (hg : SlotAlike w g g') (value : Data) (f : SlotField) :
    (∃ c, writeSlotField g value f = .error c ∧ writeSlotField g' value f = .error c) ∨
      ∃ k k', writeSlotField g value f = .ok k ∧ writeSlotField g' value f = .ok k' ∧ SlotAlike w k k' := by
  obtain ⟨b, x, y, rfl, hb, hxy⟩ := hg
  unfold Machine.writeSlotField
  cases f with
  | factor =>
    dsimp only
    split
    · exact .inl ⟨_, rfl, rfl⟩
    cases scale g.raw value g.offset with
    | error c => exact .inl ⟨c, rfl, rfl⟩
    | ok ph => exact .inr ⟨_, _, rfl, rfl, b, x, y, rfl, hb, hxy⟩
  | offset =>
    dsimp only
    split
    · exact .inl ⟨_, rfl, rfl⟩
    cases scale g.raw g.factor value with
    | error c => exact .inl ⟨c, rfl, rfl⟩
    | ok ph => exact .inr ⟨_, _, rfl, rfl, b, x, y, rfl, hb, hxy⟩
  | min =>
    dsimp only
    split
    · exact .inl ⟨_, rfl, rfl⟩
    · exact .inr ⟨_, _, rfl, rfl, b, value, y, rfl, hb, fun hw => ⟨rfl, (hxy hw).2⟩⟩
  | max =>
    dsimp only
    split
    · exact .inl ⟨_, rfl, rfl⟩
    · exact .inr ⟨_, _, rfl, rfl, b, x, value, rfl, hb, fun hw => ⟨(hxy hw).1, rfl⟩⟩
  | dflt =>
    dsimp only
    split
    · exact .inl ⟨_, rfl, rfl⟩
    · exact .inr ⟨_, _, rfl, rfl, b, x, y, rfl, hb, hxy⟩
  | geom | raw | phys => exact .inl ⟨_, rfl, rfl⟩

theorem DifferIn.forAllSlots_related {body : Nat → Slot → State → Except (Cause × State) State}
    (hbody : ∀ k g g' s u, DifferIn w s u → SlotAlike w g g' → SlotRelated (DifferIn w) (body k g s) (body k g' u))
    {s u : State} (h : DifferIn w s u) : Effect.Related (DifferIn w) (forAllSlots body s) (forAllSlots body u) := by
  unfold forAllSlots
  rw [h.nsig_eq]
  refine forValidSlots_related (fun k s u hsu => ?_) _ h
  rcases hsu.validSlot k with hnone | ⟨g, g', hs, hu, hg⟩
  · exact .inl hnone
  · exact .inr ⟨g, g', hs, hu, hbody k g g' s u hsu hg⟩

/-! ## The reads that tell the states apart -/

/-- `FSR` is register 2 (R26). -/
theorem eq_of_selectCtrlReg_eq_fsr {cr : BitVec 9} (h : selectCtrlReg cr = some .fsr) : cr = 2#9 := by
  unfold selectCtrlReg at h
  split at h <;> cases h
  exact BitVec.eq_of_toNat_eq ‹_›

/-- The selectors of the geometry, `MIN` and `MAX` (R73). -/
theorem eq_of_selectField_eq (fld : BitVec 4) :
    (selectField fld = some .geom → fld = 0#4) ∧ (selectField fld = some .min → fld = 3#4) ∧
      (selectField fld = some .max → fld = 4#4) := by
  revert fld
  decide

theorem DifferIn.readCtrl_eq {s u : State} (h : DifferIn w s u) {cr : BitVec 9} {r : CtrlReg}
    (hr : selectCtrlReg cr = some r) (hw : ¬ readsBack w (.rdcr cr)) : u.readCtrl r = s.readCtrl r := by
  have hnsig := h.nsig_eq
  obtain ⟨f, l, rfl, hf, _⟩ := h
  cases r with
  | blen | msgid => rfl
  | fsr =>
    refine hf fun hrecord => hw ?_
    subst hrecord
    exact congrArg Instr.rdcr (eq_of_selectCtrlReg_eq_fsr hr)
  | caps =>
    simp only [State.readCtrl, State.caps, hnsig]

theorem SlotAlike.readField_eq {g g' : Slot} (hg : SlotAlike w g g') {fld : BitVec 4} {slot : BitVec 9}
    {f : SlotField} (hf : selectField fld = some f) (hw : ¬ readsBack w (.sigrd fld slot)) :
    g'.readField f = g.readField f := by
  obtain ⟨b, x, y, rfl, hb, hxy⟩ := hg
  obtain ⟨hgeom, hmin, hmax⟩ := eq_of_selectField_eq fld
  cases f with
  | geom =>
    obtain rfl := hb fun hsign => hw (by subst hsign; exact ⟨slot, by rw [hgeom hf]⟩)
    rfl
  | min => exact (hxy fun hbounds => hw (by subst hbounds; exact ⟨slot, .inl (by rw [hmin hf])⟩)).1
  | max => exact (hxy fun hbounds => hw (by subst hbounds; exact ⟨slot, .inr (by rw [hmax hf])⟩)).2
  | factor | offset | dflt | raw | phys => rfl

/-! ## The commands -/

theorem DifferIn.execSetd_related {s u : State} (h : DifferIn w s u) (start : BitVec 9) (len : BitVec 7) (io : Layout)
    (value : Data) : NextRelated (DifferIn w) (execSetd start len io value s) (execSetd start len io value u) := by
  apply DifferIn.complete_nextRelated
  split
  · exact .raise _ _ h
  split
  · exact .raise _ _ h
  have hins := h.insertField_related (codecGeom start len io) value
  generalize insertField s _ _ = x, insertField u _ _ = y at hins
  cases hins with
  | ok ht => exact .respond _ ht
  | error c ht => exact .raise c _ ht

theorem DifferIn.execGetd_related {s u : State} (h : DifferIn w s u) (start : BitVec 9) (len : BitVec 7) (io : Layout) :
    NextRelated (DifferIn w) (execGetd start len io s) (execGetd start len io u) := by
  apply DifferIn.complete_nextRelated
  split
  · exact .raise _ _ h
  rw [h.extractField_eq]
  cases extractField s _ with
  | error c => exact .raise c _ h
  | ok v => exact .respond v h

theorem DifferIn.execWrb_related {s u : State} (h : DifferIn w s u) (idx : BitVec 9) (data : Data) :
    NextRelated (DifferIn w) (execWrb idx data s) (execWrb idx data u) := by
  apply DifferIn.complete_nextRelated
  split
  · exact .raise _ _ h
  rcases h.memWrite_related idx.toNat (data.extractLsb' 0 8) with ⟨hs, hu⟩ | ⟨t, t', hs, hu, ht⟩ <;>
    simp only [hs, hu]
  · exact .raise _ _ h
  · exact .respond _ ht

theorem DifferIn.execRdb_related {s u : State} (h : DifferIn w s u) (idx : BitVec 9) :
    NextRelated (DifferIn w) (execRdb idx s) (execRdb idx u) := by
  apply DifferIn.complete_nextRelated
  rw [h.memRead_eq]
  cases memRead s idx.toNat with
  | error c => exact .raise c _ h
  | ok v => exact .respond _ h

theorem DifferIn.execWrcr_related {s u : State} (h : DifferIn w s u) (cr : BitVec 9) (value : Data) :
    NextRelated (DifferIn w) (execWrcr cr value s) (execWrcr cr value u) := by
  apply DifferIn.complete_nextRelated
  cases selectCtrlReg cr with
  | none => exact .raise _ _ h
  | some r =>
    cases r with
    | blen =>
      dsimp only
      split
      · exact .raise _ _ h
      · exact .respond _ (h.update (·.setBlen _) rfl rfl fun _ _ => rfl)
    | msgid =>
      dsimp only
      split
      · exact .raise _ _ h
      · exact .respond _ (h.update (·.setMsgid _) rfl rfl fun _ _ => rfl)
    | fsr => exact .respond _ h.clear
    | caps => exact .raise _ _ h

theorem DifferIn.execRdcr_related {s u : State} (h : DifferIn w s u) (cr : BitVec 9) (hw : ¬ readsBack w (.rdcr cr)) :
    NextRelated (DifferIn w) (execRdcr cr s) (execRdcr cr u) := by
  apply DifferIn.complete_nextRelated
  cases hr : selectCtrlReg cr with
  | none => exact .raise _ _ h
  | some r => simpa only [h.readCtrl_eq hr hw] using .respond _ h

theorem DifferIn.execSigdef_related {s u : State} (h : DifferIn w s u) (slot : BitVec 9) (d : Data) :
    NextRelated (DifferIn w) (execSigdef slot d s) (execSigdef slot d u) := by
  apply DifferIn.complete_nextRelated
  rw [h.nsig_eq]
  split
  · exact .raise _ _ h
  split
  · exact .raise _ _ h
  split
  · exact .raise _ _ h
  · exact .respond _ (h.setSlot _ (.refl _))

theorem DifferIn.execSigwr_related {s u : State} (h : DifferIn w s u) (fld : BitVec 4) (slot : BitVec 9)
    (value : Data) : NextRelated (DifferIn w) (execSigwr fld slot value s) (execSigwr fld slot value u) := by
  apply DifferIn.complete_nextRelated
  cases writableField fld with
  | none => exact .raise _ _ h
  | some f =>
    rcases h.lookupSlot slot with ⟨hs, hu⟩ | ⟨g, g', hs, hu, hg⟩ <;> simp only [hs, hu]
    · exact .raise _ _ h
    rcases hg.writeSlotField value f with ⟨c, hk, hk'⟩ | ⟨k, k', hk, hk', hkk'⟩ <;> simp only [hk, hk']
    · exact .raise c _ h
    · exact .respond _ (h.setSlot _ hkk')

theorem DifferIn.execSigrd_related {s u : State} (h : DifferIn w s u) (fld : BitVec 4) (slot : BitVec 9)
    (hw : ¬ readsBack w (.sigrd fld slot)) : NextRelated (DifferIn w) (execSigrd fld slot s) (execSigrd fld slot u) := by
  apply DifferIn.complete_nextRelated
  cases hf : selectField fld with
  | none => exact .raise _ _ h
  | some f =>
    rcases h.lookupSlot slot with ⟨hs, hu⟩ | ⟨g, g', hs, hu, hg⟩ <;> simp only [hs, hu]
    · exact .raise _ _ h
    · rw [hg.readField_eq hf hw]
      exact .respond _ h

theorem DifferIn.execSetv_related {s u : State} (h : DifferIn w s u) (slot : BitVec 9) (raw : Data) :
    NextRelated (DifferIn w) (execSetv slot raw s) (execSetv slot raw u) := by
  apply DifferIn.complete_nextRelated
  rcases h.lookupSlot slot with ⟨hs, hu⟩ | ⟨g, g', hs, hu, hg⟩ <;> simp only [hs, hu]
  · exact .raise _ _ h
  have hlen : g'.len = g.len := by
    obtain ⟨b, x, y, rfl, _⟩ := hg
    rfl
  rw [hlen]
  split
  · exact .raise _ _ h
  have hstore := h.storeRaw_related slot.toNat hg raw
  generalize storeRaw _ g raw s = x, storeRaw _ g' raw u = y at hstore
  cases hstore with
  | ok ht => exact .respond _ ht
  | error c ht => exact .raise c _ ht

theorem DifferIn.execSetp_related {s u : State} (h : DifferIn w s u) (slot : BitVec 9) (phys : F64) :
    NextRelated (DifferIn w) (execSetp slot phys s) (execSetp slot phys u) := by
  apply DifferIn.complete_nextRelated
  rcases h.lookupSlot slot with ⟨hs, hu⟩ | ⟨g, _, hs, hu, b, x, y, rfl, hbxy⟩ <;> simp only [hs, hu]
  · exact .raise _ _ h
  cases unscale phys g.factor g.offset g.len.toNat with
  | error c => exact .raise c _ h
  | ok r => exact .respond _ (h.setSlot _ ⟨b, x, y, rfl, hbxy⟩)

theorem DifferIn.execChkm_related {s u : State} (h : DifferIn w s u) (checkData : Bool) :
    NextRelated (DifferIn w) (execChkm checkData s) (execChkm checkData u) := by
  apply DifferIn.complete_nextRelated
  rw [h.msgid_eq, h.badByte_eq]
  split
  · exact .raise _ _ h
  split
  · cases badByte s with
    | none => exact .respond _ h
    | some k => exact .raise _ _ h
  · exact .respond _ h

/-- `UPDS` encodes the geometry and the raw value, which slots that are alike have in common (R111). -/
theorem DifferIn.encodeSlot_related {s u : State} (h : DifferIn w s u) (k : Nat) {g g' : Slot}
    (hg : SlotAlike w g g') : SlotRelated (DifferIn w) (encodeSlot k g s) (encodeSlot k g' u) := by
  obtain ⟨b, x, y, rfl, _⟩ := hg
  exact h.insertField_related g.geom g.raw

theorem DifferIn.restoreSlot_related {s u : State} (h : DifferIn w s u) (k : Nat) {g g' : Slot}
    (hg : SlotAlike w g g') : SlotRelated (DifferIn w) (restoreSlot k g s) (restoreSlot k g' u) := by
  have hdflt : g'.dflt = g.dflt := by
    obtain ⟨b, x, y, rfl, _⟩ := hg
    rfl
  unfold restoreSlot
  rw [hdflt]
  exact h.storeRaw_related k hg g.dflt

/-- Every command that does not read the named thing back gives equal responses and keeps the relation. -/
theorem DifferIn.exec_related {s u : State} (h : DifferIn w s u) (i : Instr) (hw : ¬ readsBack w i) :
    NextRelated (DifferIn w) (exec i s) (exec i u) := by
  cases i with
  | setd start len io value => exact h.execSetd_related start len io value
  | getd start len io => exact h.execGetd_related start len io
  | wrb idx data => exact h.execWrb_related idx data
  | rdb idx => exact h.execRdb_related idx
  | wrcr cr value => exact h.execWrcr_related cr value
  | rdcr cr => exact h.execRdcr_related cr hw
  | sigdef slot geom => exact h.execSigdef_related slot geom
  | sigwr fld slot value => exact h.execSigwr_related fld slot value
  | sigrd fld slot => exact h.execSigrd_related fld slot hw
  | setv slot raw => exact h.execSetv_related slot raw
  | setp slot phys => exact h.execSetp_related slot phys
  | upds => exact complete_nextRelated _ (h.forAllSlots_related fun k _ _ _ _ h => h.encodeSlot_related k)
  | updr => exact complete_nextRelated _ (h.forAllSlots_related fun k _ _ _ _ h => h.decodeSlot_related k)
  | chkm checkData => exact h.execChkm_related checkData
  | rstd => exact complete_nextRelated _ (h.forAllSlots_related fun k _ _ _ _ h => h.restoreSlot_related k)

end

/-! ## The three instances -/

/-- States that differ in the record only have equal slots. -/
theorem differIn_record_iff {s u : State} : DifferIn .record s u ↔ ∃ f, u = { s with fsr := f } := by
  constructor
  · rintro ⟨f, l, rfl, _, hl⟩
    refine ⟨f, ?_⟩
    have heq : s.sig = l := by
      rw [← List.forall₂_eq_eq_eq]
      refine hl.imp ?_
      rintro g _ ⟨b, x, y, rfl, hb, hxy⟩
      obtain rfl := hb nofun
      obtain ⟨rfl, rfl⟩ := hxy nofun
      rfl
    rw [← heq]
    rfl
  · rintro ⟨f, rfl⟩
    exact ⟨f, s.sig, rfl, fun hw => absurd rfl hw, List.forall₂_same.mpr fun g _ => .refl g⟩

/-- Settles O55: the two states differ in the record only. -/
theorem execIgnoresFaultRecord : Obligations.ExecIgnoresFaultRecord := by
  intro i s f hi
  obtain ⟨t, u, ht, hu, h⟩ := (differIn_record_iff.mpr ⟨f, rfl⟩).exec_related i hi
  obtain ⟨f', rfl⟩ := differIn_record_iff.mp h
  exact ⟨t, f', ht, hu⟩

/-- Where a masking of slots makes equal exactly the slots that are alike, the states that differ in what it masks are
those with equal maskings. -/
theorem differIn_iff_masked_eq {w : Unread} (hw : w ≠ .record) {mask : Slot → Slot}
    (hmask : ∀ g h, SlotAlike w g h ↔ mask g = mask h) {s u : State} :
    DifferIn w s u ↔ s.setSig (s.sig.map mask) = u.setSig (u.sig.map mask) := by
  have hmap (l m : List Slot) : List.Forall₂ (SlotAlike w) l m ↔ l.map mask = m.map mask := by
    have halike : SlotAlike w = fun g h => mask g = mask h := funext₂ fun g h => propext (hmask g h)
    rw [halike, ← List.forall₂_eq_eq_eq, List.forall₂_map_left_iff, List.forall₂_map_right_iff]
  constructor
  · rintro ⟨f, l, rfl, hf, hl⟩
    obtain rfl := hf hw
    rw [(hmap _ _).mp hl]
    rfl
  · intro h
    refine ⟨s.fsr, u.sig, ?_, fun _ => rfl, (hmap _ _).mpr (congrArg State.sig h)⟩
    calc u = (u.setSig (u.sig.map mask)).setSig u.sig := rfl
      _ = (s.setSig (s.sig.map mask)).setSig u.sig := by rw [h]
      _ = (s.setFsr s.fsr).setSig u.sig := rfl

/-- The slot without its sign flag, as `State.eraseSign` leaves it. -/
def Slot.eraseSign (g : Slot) : Slot := { g with isSign := false }

/-- The slot without its bounds, as `State.eraseBounds` leaves it. -/
def Slot.eraseBounds (g : Slot) : Slot := { g with min := 0#64, max := 0#64 }

theorem State.eraseSign_eq (s : State) : s.eraseSign = s.setSig (s.sig.map Slot.eraseSign) := rfl

theorem State.eraseBounds_eq (s : State) : s.eraseBounds = s.setSig (s.sig.map Slot.eraseBounds) := rfl

theorem slotAlike_sign_iff (g h : Slot) : SlotAlike .sign g h ↔ g.eraseSign = h.eraseSign := by
  constructor
  · rintro ⟨b, x, y, rfl, _, hxy⟩
    obtain ⟨rfl, rfl⟩ := hxy nofun
    rfl
  · intro heq
    exact ⟨h.isSign, h.min, h.max,
      congrArg (fun k : Slot => { k with isSign := h.isSign, min := h.min, max := h.max }) heq.symm,
      fun hw => absurd rfl hw, fun _ => ⟨(congrArg Slot.min heq.symm :), (congrArg Slot.max heq.symm :)⟩⟩

theorem slotAlike_bounds_iff (g h : Slot) : SlotAlike .bounds g h ↔ g.eraseBounds = h.eraseBounds := by
  constructor
  · rintro ⟨b, x, y, rfl, hb, _⟩
    obtain rfl := hb nofun
    rfl
  · intro heq
    exact ⟨h.isSign, h.min, h.max,
      congrArg (fun k : Slot => { k with isSign := h.isSign, min := h.min, max := h.max }) heq.symm,
      fun _ => (congrArg Slot.isSign heq.symm :), fun hw => absurd rfl hw⟩

theorem differIn_sign_iff {s u : State} : DifferIn .sign s u ↔ s.eraseSign = u.eraseSign := by
  rw [s.eraseSign_eq, u.eraseSign_eq]
  exact differIn_iff_masked_eq (w := .sign) nofun slotAlike_sign_iff

theorem differIn_bounds_iff {s u : State} : DifferIn .bounds s u ↔ s.eraseBounds = u.eraseBounds := by
  rw [s.eraseBounds_eq, u.eraseBounds_eq]
  exact differIn_iff_masked_eq (w := .bounds) nofun slotAlike_bounds_iff

/-- Settles O56: the two states differ in sign flags only. -/
theorem signFlagNeverRead : Obligations.SignFlagNeverRead := by
  intro i s u hsu hi
  obtain ⟨t, t', ht, ht', h⟩ := (differIn_sign_iff.mpr hsu).exec_related i fun ⟨slot, hslot⟩ => hi slot hslot
  exact ⟨t, t', ht, ht', differIn_sign_iff.mp h⟩

/-- Settles O57: the two states differ in `MIN` and `MAX` only. -/
theorem boundsNeverRead : Obligations.BoundsNeverRead := by
  intro i s u hsu hmin hmax
  obtain ⟨t, t', ht, ht', h⟩ := (differIn_bounds_iff.mpr hsu).exec_related i
    fun ⟨slot, hslot⟩ => hslot.elim (hmin slot) (hmax slot)
  exact ⟨t, t', ht, ht', differIn_bounds_iff.mp h⟩

end Sys2Proof.Machine
end

section
/-!
PROOFS. Runs of presented commands (R55, R56, R61, R164): every step takes the next command and adds one response.
-/

namespace Sys2Proof.Machine

open Relation (ReflTransGen)

/-! ## One command -/

/-- The writes of a command reach neither port. -/
theorem writes_keep_ports {i : Instr} {s t : State} (h : ReflTransGen (Write i) s t) :
    t.input = s.input ∧ t.output = s.output := by
  induction h with
  | refl => exact ⟨rfl, rfl⟩
  | tail _ hw ih => cases hw <;> exact ih

/-- The end of a pseudocode adds one response and takes no input. -/
theorem complete_answers (op : BitVec 8) (e : Effect) :
    ∃ t r, complete op e = .next t ∧ t.input = e.state.input ∧ t.output = e.state.output ++ [r] := by
  cases e <;> exact ⟨_, _, rfl, rfl, rfl⟩

theorem exec_answers (i : Instr) (s : State) :
    ∃ t r, exec i s = .next t ∧ t.input = s.input ∧ t.output = s.output ++ [r] := by
  obtain ⟨e, he, hwrites⟩ := exec_writes i s
  obtain ⟨hinput, houtput⟩ := writes_keep_ports hwrites
  rw [he, ← hinput, ← houtput]
  exact complete_answers i.opcode e

/-- A step with a command presented takes it and adds one response, whether the word spells a command or not. -/
theorem step_answers {s : State} {w : CmdWord} {d : Data} {rest : List HostInput}
    (hs : s.input = .command w d :: rest) :
    ∃ t r, step s = .next t ∧ t.input = rest ∧ t.output = s.output ++ [r] := by
  cases hd : fetchCommand w d with
  | ok i => exact step_command s w d rest i hs hd ▸ exec_answers i (s.setInput rest)
  | error e => exact step_illegal s w d rest e hs hd ▸ complete_answers _ _

/-! ## The run -/

theorem run_succ {s t : State} (h : step s = .next t) (k : Nat) :
    Host.Core.run core (k + 1) s = Host.Core.run core k t := by
  have hcore : core.step s = .next t := h
  simp only [Host.Core.run, hcore]

/-- Settles O14, by induction on the commands presented: the first response is that of the first step, the others those
of the run from the state it leaves. -/
theorem runAnswersEveryCommand : Obligations.RunAnswersEveryCommand := by
  intro s cs
  induction cs generalizing s with
  | nil =>
    intro hs
    refine ⟨[], rfl, fun k hk => ⟨s, ?_, by simpa using hs, by simp⟩⟩
    rw [Nat.le_zero.mp hk]
    rfl
  | cons c cs ih =>
    intro hs
    obtain ⟨u, r, hstep, hinput, houtput⟩ := step_answers hs
    obtain ⟨rs, hlength, hrun⟩ := ih u hinput
    refine ⟨r :: rs, congrArg Nat.succ hlength, fun k hk => ?_⟩
    cases k with
    | zero => exact ⟨s, rfl, hs, (List.append_nil _).symm⟩
    | succ k =>
      obtain ⟨t, ht, htinput, htoutput⟩ := hrun k (Nat.le_of_succ_le_succ hk)
      refine ⟨t, (run_succ hstep k).trans ht, htinput, ?_⟩
      rw [htoutput, houtput, List.take_succ_cons, List.append_assoc, List.singleton_append]

end Sys2Proof.Machine
end

section
/-!
PROOFS. Where the bits of a field stand (R46, R47, R51). Both layouts run through the bytes from `byte_index` upwards;
they differ in the direction within a byte and in the order of the bits. Said in terms of that run, the span and its
size are the same for both.
-/

namespace Sys2Proof.Machine

/-! ## The run of a field through its bytes -/

/-- The places of the first byte that the field's run passes over before it starts. -/
def Geom.entry (g : Geom) : Nat :=
  match g.layout with
  | .intel => g.bitIndex
  | .motorola => 7 - g.bitIndex

/-- Where in the run signal bit `i` comes: least significant bit first for Intel, last for Motorola. -/
def Geom.rank (g : Geom) (i : Nat) : Nat :=
  match g.layout with
  | .intel => i
  | .motorola => g.len - 1 - i

theorem Geom.entry_lt_eight (g : Geom) : g.entry < 8 := by
  unfold Geom.entry Geom.bitIndex
  cases g.layout <;> simp only <;> omega

theorem Geom.room_add_entry (g : Geom) : g.room + g.entry = 8 := by
  unfold Geom.room Geom.entry Geom.bitIndex
  cases g.layout <;> simp only <;> omega

theorem Geom.rank_lt {g : Geom} {i : Nat} (hi : i < g.len) : g.rank i < g.len := by
  unfold Geom.rank
  cases g.layout <;> simp only <;> omega

theorem Geom.rank_rank {g : Geom} {i : Nat} (hi : i < g.len) : g.rank (g.rank i) = i := by
  unfold Geom.rank
  cases g.layout <;> simp only
  omega

/-- The byte of a signal bit is reached by counting its rank from the entry. -/
theorem Geom.pos_fst (g : Geom) (i : Nat) : (g.pos i).1 = g.byteIndex + (g.entry + g.rank i) / 8 := by
  unfold Geom.pos Geom.entry Geom.rank Geom.byteIndex Geom.bitIndex
  cases g.layout <;> simp only <;> omega

theorem Geom.nbytes_eq (g : Geom) : g.nbytes = (g.entry + g.len + 7) / 8 := by
  unfold Geom.nbytes Geom.entry
  cases g.layout <;> rfl

/-! ## The span -/

theorem Geom.mem_span_iff (g : Geom) (k : Nat) :
    k ∈ g.span ↔ g.byteIndex ≤ k ∧ k < g.byteIndex + g.nbytes := List.mem_range'_1

/-- Every byte of the span holds a bit of a field that has one: the first byte the first of the run, every other byte
the one that comes to its edge. -/
theorem Geom.exists_pos_of_mem_span {g : Geom} (hlen : 1 ≤ g.len) {k : Nat} (hk : k ∈ g.span) :
    ∃ i, i < g.len ∧ (g.pos i).1 = k := by
  have hentry := g.entry_lt_eight
  rw [g.mem_span_iff, g.nbytes_eq] at hk
  obtain ⟨n, rfl⟩ := Nat.exists_eq_add_of_le hk.1
  have hn : 8 * n - g.entry < g.len := by omega
  refine ⟨g.rank (8 * n - g.entry), g.rank_lt hn, ?_⟩
  rw [g.pos_fst, g.rank_rank hn]
  omega

theorem Geom.mem_span_iff_exists_pos {g : Geom} (hlen : 1 ≤ g.len) (k : Nat) :
    k ∈ g.span ↔ ∃ i, i < g.len ∧ (g.pos i).1 = k :=
  ⟨g.exists_pos_of_mem_span hlen, fun ⟨i, hi, hpos⟩ => hpos ▸ g.pos_mem_span i hi⟩

/-- The number of bytes, counted from the room of the first (R47). -/
theorem Geom.nbytes_eq_of_room {g : Geom} (hlen : 1 ≤ g.len) :
    g.nbytes = if g.len ≤ g.room then 1 else 1 + (g.len - g.room + 7) / 8 := by
  have hroom := g.room_add_entry
  have hentry := g.entry_lt_eight
  rw [g.nbytes_eq]
  split <;> omega

/-! ## The statements -/

/-- Settles O16: the neighbour rules are the arithmetic of `Pos` in each layout. -/
theorem posFollowsTheLayouts : Obligations.PosFollowsTheLayouts := by
  intro g _
  refine ⟨g.pos_lt_eight, fun hlayout => ?_, fun hlayout => ?_, g.pos_injective⟩
  · simp only [Geom.pos, hlayout]
    refine ⟨rfl, fun i _ => ?_⟩
    split <;> ext <;> simp only <;> omega
  · simp only [Geom.pos, hlayout, Geom.byteIndex, Geom.bitIndex]
    refine ⟨by ext <;> simp only <;> omega, fun i hi => ?_⟩
    split <;> ext <;> simp only <;> omega

/-- Settles O17. -/
theorem spanIsTheBytesOfPos : Obligations.SpanIsTheBytesOfPos := by
  intro g hlegal
  have hcount := g.nbytes_eq_of_room hlegal.1
  have hpos : 1 ≤ g.nbytes := by
    rw [hcount]
    split <;> omega
  refine ⟨g.mem_span_iff_exists_pos hlegal.1, fun k => ?_, fun hlayout => ?_, fun hlayout => ?_, hcount⟩
  · rw [g.mem_span_iff]
    omega
  · simp only [Geom.nbytes, hlayout]
  · simp only [Geom.nbytes, hlayout]

/-- Settles O18: at `LEN` = `room` the field has one byte, at `room` + 1 it has two. -/
theorem roomBoundary : Obligations.RoomBoundary := by
  intro g hlegal
  have hcount := g.nbytes_eq_of_room hlegal.1
  constructor
  · intro hlen
    have hspan : g.span = [g.byteIndex] := by
      rw [Geom.span, hcount, if_pos hlen.le, List.range'_one]
    refine ⟨hspan, fun blen hblen => ?_⟩
    rw [g.fits_iff, hspan]
    intro k hk
    rw [List.mem_singleton.mp hk]
    omega
  · intro hlen
    have hbytes : g.nbytes = 2 := by
      rw [hcount, if_neg (by omega)]
      omega
    rw [Geom.span, hbytes]
    rfl

end Sys2Proof.Machine
end

section
/-!
PROOFS. The chunk form of the codec (R50). A chunk carries consecutive signal bits at consecutive places of one byte,
and the chunks of a field share out its bits; from these two facts the chunk form equals the per-bit form.
-/

namespace Sys2Proof.Machine

/-! ## The chunks as pieces of the run -/

/-- The chunk of the `width` bits that come from `off` on in the field's run through its bytes. -/
def Geom.piece (g : Geom) (off width : Nat) : Chunk :=
  match g.layout with
  | .intel =>
    { byte := g.byteIndex + (g.entry + off) / 8, place := (g.entry + off) % 8, width := width, weight := off }
  | .motorola =>
    { byte := g.byteIndex + (g.entry + off) / 8, place := 8 - (g.entry + off) % 8 - width, width := width,
      weight := g.len - off - width }

/-- The piece lies in the field and in one byte, and reaches on either side the edge of the byte or of the field. -/
structure Geom.WholeInByte (g : Geom) (off width : Nat) : Prop where
  inField : off + width ≤ g.len
  inByte : (g.entry + off) % 8 + width ≤ 8
  begins : (g.entry + off) % 8 = 0 ∨ off = 0
  ends : (g.entry + off) % 8 + width = 8 ∨ off + width = g.len

theorem Geom.first_add_full_add_rem (g : Geom) : g.first + 8 * g.full + g.rem = g.len := by
  unfold Geom.rem Geom.full Geom.rest Geom.first
  omega

/-- Only a field that fills its first byte has further chunks, which begin at the edge of a byte. -/
theorem Geom.entry_add_first (g : Geom) :
    g.first = g.len ∧ g.entry + g.first ≤ 8 ∨ g.first < g.len ∧ g.entry + g.first = 8 := by
  have hroom := g.room_add_entry
  unfold Geom.first
  omega

/-- The chunks of both layouts: the first, the full ones and the remainder, one after the other in the run. -/
theorem Geom.chunks_eq (g : Geom) :
    g.chunks = g.piece 0 g.first :: ((List.range g.full).map (fun n => g.piece (g.first + 8 * n) 8) ++
      if g.rem > 0 then [g.piece (g.first + 8 * g.full) g.rem] else []) := by
  have hsum := g.first_add_full_add_rem
  have hentry := g.entry_lt_eight
  have hfirst := g.entry_add_first
  unfold Geom.chunks Geom.piece
  cases hlayout : g.layout
  all_goals
    simp only [Geom.entry, Geom.bitIndex, hlayout] at hentry hfirst ⊢
    rw [List.append_assoc, List.singleton_append]
    congr 1
    · simp only [Chunk.mk.injEq, true_and, and_true]
      omega
    congr 1
    · refine List.map_congr_left fun n hn => ?_
      have hn := List.mem_range.mp hn
      simp only [Chunk.mk.injEq, true_and, and_true]
      omega
    split
    · simp only [List.cons.injEq, Chunk.mk.injEq, true_and, and_true]
      omega
    · rfl

/-- Every chunk is a piece that is whole in its byte. -/
theorem Geom.exists_piece_of_mem_chunks {g : Geom} {c : Chunk} (hc : c ∈ g.chunks) :
    ∃ off width, c = g.piece off width ∧ g.WholeInByte off width := by
  have hsum := g.first_add_full_add_rem
  have hentry := g.entry_lt_eight
  have hfirst := g.entry_add_first
  have hrem : g.rem < 8 := Nat.mod_lt _ (by decide)
  simp only [g.chunks_eq, List.mem_cons, List.mem_append, List.mem_map, List.mem_range] at hc
  rcases hc with rfl | ⟨n, hn, rfl⟩ | hc
  · exact ⟨_, _, rfl, by constructor <;> omega⟩
  · exact ⟨_, _, rfl, by constructor <;> omega⟩
  · split at hc
    · obtain rfl := List.mem_singleton.mp hc
      exact ⟨_, _, rfl, by constructor <;> omega⟩
    · cases hc

/-! ## What a chunk carries -/

/-- The bits `weight` to `weight + width - 1` of the field are those with a position in the chunk's byte, and they
stand there at `place` and upwards. -/
structure Geom.Carries (g : Geom) (c : Chunk) : Prop where
  inByte : c.place + c.width ≤ 8
  inField : c.weight + c.width ≤ g.len
  bits : ∀ i, i < g.len → ((g.pos i).1 = c.byte ↔ c.weight ≤ i ∧ i < c.weight + c.width)
  places : ∀ i, i < g.len → (g.pos i).1 = c.byte → (g.pos i).2 + c.weight = c.place + i

/-- Byte and place of a bit are the quotient and the remainder of its distance in the run, so a piece that is whole in its
byte has all bits of that byte. -/
theorem Geom.carries_piece {g : Geom} {off width : Nat} (h : g.WholeInByte off width) : g.Carries (g.piece off width) := by
  obtain ⟨hfield, hbyte, hbegins, hends⟩ := h
  have hentry := g.entry_lt_eight
  unfold Geom.piece
  cases hlayout : g.layout
  all_goals
    simp only [Geom.entry, Geom.bitIndex, hlayout] at hbyte hbegins hends hentry
    constructor
    all_goals
      simp only [Geom.pos, Geom.entry, hlayout, Geom.byteIndex, Geom.bitIndex]
      omega

theorem Geom.carries_of_mem_chunks {g : Geom} {c : Chunk} (hc : c ∈ g.chunks) : g.Carries c := by
  obtain ⟨off, width, rfl, hwhole⟩ := g.exists_piece_of_mem_chunks hc
  exact g.carries_piece hwhole

/-! ## The bytes -/

theorem Geom.piece_byte (g : Geom) (off width : Nat) : (g.piece off width).byte = g.byteIndex + (g.entry + off) / 8 := by
  unfold Geom.piece
  cases g.layout <;> rfl

theorem Geom.chunks_map_byte {g : Geom} (hlen : 1 ≤ g.len) : g.chunks.map Chunk.byte = g.span := by
  have hsum := g.first_add_full_add_rem
  have hentry := g.entry_lt_eight
  have hfirst := g.entry_add_first
  have hrem : g.rem < 8 := Nat.mod_lt _ (by decide)
  have hcount : g.nbytes = g.full + (if g.rem > 0 then 1 else 0) + 1 := by
    rw [g.nbytes_eq]
    split <;> omega
  have hafter (n : Nat) (h : g.first < g.len) : (g.entry + (g.first + 8 * n)) / 8 = n + 1 := by omega
  rw [Geom.span, hcount, List.range'_succ, ← List.range'_append_1, List.range'_eq_map_range, g.chunks_eq, List.map_cons,
    List.map_append, List.map_map, g.piece_byte]
  congr 1
  · omega
  congr 1
  · refine List.map_congr_left fun n hn => ?_
    have hn := List.mem_range.mp hn
    rw [Function.comp_apply, g.piece_byte, hafter n (by omega)]
    omega
  · split
    · rw [List.map_singleton, g.piece_byte, hafter g.full (by omega), List.range'_one]
      congr 1
      omega
    · rfl

/-! ## The insert -/

/-- What splicing a chunk does to each place of a byte. -/
theorem Chunk.splice_getLsbD (c : Chunk) (v : Nat) (old : Byte) {j : Nat} (hj : j < 8) :
    (c.splice v old).getLsbD j =
      if c.place ≤ j ∧ j < c.place + c.width then v.testBit (c.weight + (j - c.place)) else old.getLsbD j := by
  have hshift : c.weight + (j - c.place) = j - c.place + c.weight := Nat.add_comm ..
  simp only [Chunk.splice, Chunk.mask, Chunk.digits, BitVec.getLsbD_or, BitVec.getLsbD_and, BitVec.getLsbD_not,
    BitVec.getLsbD_ofNat, hj, Nat.testBit_mul_two_pow, Nat.testBit_two_pow_sub_one, Nat.testBit_mod_two_pow,
    Nat.testBit_div_two_pow, hshift]
  by_cases hplace : c.place ≤ j
  · by_cases hwidth : j < c.place + c.width
    · have : j - c.place < c.width := by omega
      simp [hplace, hwidth, this]
    · have : ¬ j - c.place < c.width := by omega
      simp [hplace, hwidth, this]
  · simp [hplace]

/-- A chunk splices into its byte what the per-bit form does. -/
theorem Geom.Carries.splice_eq {g : Geom} {c : Chunk} (h : g.Carries c) (v : BitVec 64) (old : Byte) :
    c.splice v.toNat old = g.splice v c.byte old := by
  have hfield := h.inField
  apply BitVec.eq_of_getLsbD_eq
  intro j hj
  rw [c.splice_getLsbD v.toNat old hj]
  split
  next hplace =>
    have hi : c.weight + (j - c.place) < g.len := by omega
    have hbyte : (g.pos (c.weight + (j - c.place))).1 = c.byte := (h.bits _ hi).mpr (by omega)
    have hpos := h.places _ hi hbyte
    rw [BitVec.testBit_toNat, g.splice_covered v c.byte j _ old hi (Prod.ext hbyte (show _ = j by omega))]
  next hplace =>
    refine (g.splice_uncovered v c.byte j old fun i hi hpos => hplace ?_).symm
    have hbits := (h.bits i hi).mp (congrArg Prod.fst hpos)
    have hpos := (h.places i hi (congrArg Prod.fst hpos)).symm.trans (by rw [hpos])
    omega

theorem chunkInsert_eq_insertCells (m : List Host.Cell) {g : Geom} (hlen : 1 ≤ g.len) (v : BitVec 64) :
    chunkInsert m g v = insertCells m g v (fun _ => true) := by
  unfold chunkInsert insertCells
  rw [← g.chunks_map_byte hlen, List.foldl_map]
  refine List.foldl_ext _ _ _ fun cells c hc => ?_
  rw [(g.carries_of_mem_chunks hc).splice_eq, if_pos rfl]

/-! ## The extract -/

/-- The places of a chunk hold its digits of the extracted value. -/
theorem Geom.Carries.digits_gather {g : Geom} {c : Chunk} (h : g.Carries c) (hmax : g.len ≤ 64) (byte : Nat → Byte) :
    (byte c.byte).toNat / 2 ^ c.place % 2 ^ c.width = c.digits (g.gather byte).toNat := by
  have hfield := h.inField
  apply Nat.eq_of_testBit_eq
  intro p
  simp only [Chunk.digits, Nat.testBit_mod_two_pow, Nat.testBit_div_two_pow, BitVec.testBit_toNat, g.gather_getLsbD]
  by_cases hp : p < c.width
  · have hi : p + c.weight < g.len := by omega
    have hbyte : (g.pos (p + c.weight)).1 = c.byte := (h.bits _ hi).mpr (by omega)
    have hplace : (g.pos (p + c.weight)).2 = p + c.place := by
      have := h.places _ hi hbyte
      omega
    have hlt : p + c.weight < 64 := by omega
    simp [hp, hi, hlt, hbyte, hplace]
  · simp [hp]

/-- The chunks share out the digits from `lo` to `hi`, each taken from the lower or from the upper end of what is left. -/
inductive SharesOut : Nat → Nat → List Chunk → Prop
  | done (n : Nat) : SharesOut n n []
  | lower {lo hi : Nat} {c : Chunk} {cs : List Chunk} (hc : c.weight = lo) (h : SharesOut (lo + c.width) hi cs) :
      SharesOut lo hi (c :: cs)
  | upper {lo hi : Nat} {c : Chunk} {cs : List Chunk} (hc : c.weight + c.width = hi) (h : SharesOut lo c.weight cs) :
      SharesOut lo hi (c :: cs)

/-- The digits of chunks that share out a range add up to the number's part in that range. -/
theorem SharesOut.sum_digits {lo hi : Nat} {cs : List Chunk} (h : SharesOut lo hi cs) (v : Nat) :
    v % 2 ^ lo + (cs.map fun c => c.digits v * 2 ^ c.weight).sum = v % 2 ^ hi := by
  have hsplit (c : Chunk) : v % 2 ^ (c.weight + c.width) = v % 2 ^ c.weight + c.digits v * 2 ^ c.weight := by
    rw [Nat.pow_add, Nat.mod_mul, Chunk.digits, Nat.mul_comm]
  induction h with
  | done n => rfl
  | @lower lo hi c cs hc _ ih =>
    subst hc
    rw [← ih, hsplit, List.map_cons, List.sum_cons, Nat.add_assoc]
  | @upper lo hi c cs hc _ ih =>
    subst hc
    rw [hsplit, ← ih, List.map_cons, List.sum_cons]
    omega

/-- The chunks share out what the field's run has from `off` on. -/
def Geom.SharesFrom (g : Geom) (off : Nat) (cs : List Chunk) : Prop :=
  match g.layout with
  | .intel => SharesOut off g.len cs
  | .motorola => SharesOut 0 (g.len - off) cs

theorem Geom.sharesFrom_len (g : Geom) : g.SharesFrom g.len [] := by
  unfold Geom.SharesFrom
  cases g.layout with
  | intel => exact .done _
  | motorola => exact Nat.sub_self _ ▸ .done _

theorem Geom.SharesFrom.piece {g : Geom} {off width : Nat} {cs : List Chunk} (h : g.SharesFrom (off + width) cs)
    (hlen : off + width ≤ g.len) : g.SharesFrom off (g.piece off width :: cs) := by
  unfold Geom.SharesFrom Geom.piece at *
  cases hlayout : g.layout <;> simp only [hlayout] at h ⊢
  · exact .lower rfl h
  · rw [← Nat.sub_sub] at h
    exact .upper (show g.len - off - width + width = g.len - off by omega) h

/-- Pieces of eight bits that follow one another. -/
theorem Geom.SharesFrom.full {g : Geom} {off n : Nat} {cs : List Chunk} (h : g.SharesFrom (off + 8 * n) cs)
    (hlen : off + 8 * n ≤ g.len) :
    g.SharesFrom off ((List.range n).map (fun k => g.piece (off + 8 * k) 8) ++ cs) := by
  induction n generalizing cs with
  | zero => exact h
  | succ n ih =>
    rw [List.range_succ, List.map_append, List.append_assoc]
    exact ih (Geom.SharesFrom.piece h hlen) (by omega)

theorem Geom.chunks_sharesOut (g : Geom) : SharesOut 0 g.len g.chunks := by
  have hsum := g.first_add_full_add_rem
  have hrem : g.SharesFrom (g.first + 8 * g.full) (if g.rem > 0 then [g.piece (g.first + 8 * g.full) g.rem] else []) := by
    split
    · exact .piece (hsum ▸ g.sharesFrom_len) hsum.le
    · rw [show g.first + 8 * g.full = g.len by omega]
      exact g.sharesFrom_len
  have hall : g.SharesFrom 0 g.chunks := by
    rw [g.chunks_eq]
    exact .piece (Nat.zero_add _ ▸ hrem.full (by omega)) (by omega)
  unfold Geom.SharesFrom at hall
  cases hlayout : g.layout <;> simpa only [hlayout, Nat.sub_zero] using hall

theorem chunkExtract_eq_gather {g : Geom} (hmax : g.len ≤ 64) (byte : Nat → Byte) :
    chunkExtract byte g = (g.gather byte).toNat := by
  have hle := g.gather_toNat_le byte
  have hpos : 0 < 2 ^ g.len := Nat.two_pow_pos _
  have hsum := g.chunks_sharesOut.sum_digits (g.gather byte).toNat
  rw [Nat.pow_zero, Nat.mod_one, Nat.zero_add, Nat.mod_eq_of_lt (by omega)] at hsum
  rw [← hsum, chunkExtract]
  congr 1
  exact List.map_congr_left fun c hc => by rw [(g.carries_of_mem_chunks hc).digits_gather hmax]

/-- Settles O19. -/
theorem chunkFormAgreesWithPos : Obligations.ChunkFormAgreesWithPos := by
  intro g v hlegal _
  exact ⟨g.chunks_map_byte hlegal.1, fun m => chunkInsert_eq_insertCells m hlegal.1 v,
    fun byte => chunkExtract_eq_gather hlegal.2 byte⟩

end Sys2Proof.Machine
end

section
/-!
PROOFS. What an insert leaves at every place of the buffer (R49), and with it `SETD` (R81, R84).
-/

namespace Sys2Proof.Machine

/-! ## The cells after an insert of the whole span -/

theorem insertCells_covered (m : List Host.Cell) (g : Geom) (v : BitVec 64) {i : Nat} (hi : i < g.len) :
    (memByte (insertCells m g v (fun _ => true)) (g.pos i).1).getLsbD (g.pos i).2 = v.getLsbD i := by
  rw [memByte_insertCells, if_pos ⟨g.pos_mem_span i hi, rfl⟩, g.splice_covered v (g.pos i).1 (g.pos i).2 i _ hi rfl]

theorem insertCells_uncovered (m : List Host.Cell) {g : Geom} (v : BitVec 64) {k j : Nat} (h : ¬ g.covers k j) :
    (memByte (insertCells m g v (fun _ => true)) k).getLsbD j = (memByte m k).getLsbD j := by
  rw [memByte_insertCells]
  split
  · exact g.splice_uncovered v k j _ fun i hi hpos => h ⟨i, hi, hpos⟩
  · rfl

theorem insertCells_outside (m : List Host.Cell) {g : Geom} (v : BitVec 64) {k : Nat} (h : k ∉ g.span) :
    memByte (insertCells m g v (fun _ => true)) k = memByte m k := by
  rw [memByte_insertCells, if_neg fun hk => h hk.1]

theorem insertField_of_fits {s : State} {g : Geom} (h : g.fits s.blen.toNat = true) (v : BitVec 64) :
    insertField s g v = .ok (s.setBuf (insertCells s.buf g v (fun _ => true))) := if_pos h

/-! ## SETD -/

/-- `SETD` of legal operands into a field that fits ends with the insert done. -/
theorem execSetd_of_fits {s : State} {start : BitVec 9} {len : BitVec 7} {io : Layout} {value : Data}
    (hpos : 1 ≤ len.toNat) (hmax : len.toNat ≤ 64) (hvalue : value.toNat ≤ 2 ^ len.toNat - 1)
    (hfits : (codecGeom start len io).fits s.blen.toNat = true) :
    execSetd start len io value s =
      .next ((s.setBuf (insertCells s.buf (codecGeom start len io) value (fun _ => true))).emit (okResponse 0#64)) := by
  have hlen : badLen len = false := by
    rw [badLen, decide_eq_false_iff_not]
    omega
  have hvalue : fitsLen value len.toNat = true := by rw [fitsLen, decide_eq_true hvalue]
  simp only [execSetd, hlen, hvalue, insertField_of_fits hfits, Bool.not_true, Bool.false_eq_true, if_false,
    complete_respond]

/-- Settles O20. -/
theorem setdWritesExactlyTheField : Obligations.SetdWritesExactlyTheField := by
  intro s start len io value hpos hmax hvalue hfits
  exact ⟨_, execSetd_of_fits hpos hmax hvalue hfits, rfl, fun i hi => insertCells_covered s.buf _ value hi,
    fun k j h => insertCells_uncovered s.buf value h, fun k h => insertCells_outside s.buf value h⟩

end Sys2Proof.Machine
end

section
/-!
PROOFS. The iterations over the valid slots that do not fault (R110): what `UPDS` leaves in the buffer (R111) and what
an iteration that rewrites each slot leaves in the table (R112), and with both that `UPDR` after `UPDS` gives the raw
values back (R54, R158).
-/

namespace Sys2Proof.Machine

/-! ## The iteration, one slot at a time -/

theorem validSlot_of_getElem? {s : State} {n : Nat} {g : Slot} (hg : s.sig[n]? = some g) (hvalid : g.valid = true) :
    s.validSlot n = some g := (validSlot_eq_some s n g).mpr ⟨hg, hvalid⟩

/-- The last slot of an iteration is skipped when it is not valid. -/
theorem forValidSlots_range_succ_skip {body : Nat → Slot → State → Except (Cause × State) State} {n : Nat} {s t : State}
    (h : forValidSlots body (List.range n) s = .respond 0#64 t) (hn : t.validSlot n = none) :
    forValidSlots body (List.range (n + 1)) s = .respond 0#64 t := by
  rw [List.range_succ, forValidSlots_append, h]
  simp only [forValidSlots, hn]

/-- The last slot of an iteration is processed in the state the ones below it leave. -/
theorem forValidSlots_range_succ_ok {body : Nat → Slot → State → Except (Cause × State) State} {n : Nat} {s t u : State}
    {g : Slot} (h : forValidSlots body (List.range n) s = .respond 0#64 t) (hn : t.validSlot n = some g)
    (hbody : body n g t = .ok u) : forValidSlots body (List.range (n + 1)) s = .respond 0#64 u := by
  rw [List.range_succ, forValidSlots_append, h]
  simp only [forValidSlots, hn, hbody]

/-! ## UPDS -/

/-- The cells after the valid slots below `n` have been inserted, in ascending order (R111). -/
def encodedCells (s : State) : Nat → List Host.Cell
  | 0 => s.buf
  | n + 1 =>
    match s.validSlot n with
    | none => encodedCells s n
    | some g => insertCells (encodedCells s n) g.geom g.raw (fun _ => true)

theorem encodedCells_succ_of_none {s : State} {n : Nat} (h : s.validSlot n = none) :
    encodedCells s (n + 1) = encodedCells s n := by
  simp only [encodedCells, h]

theorem encodedCells_succ_of_some {s : State} {n : Nat} {g : Slot} (h : s.validSlot n = some g) :
    encodedCells s (n + 1) = insertCells (encodedCells s n) g.geom g.raw (fun _ => true) := by
  simp only [encodedCells, h]

/-- Inserting slots that fit leaves exactly these cells. -/
theorem forValidSlots_encodeSlot {s : State} {n : Nat}
    (hfits : ∀ k g, k < n → s.validSlot k = some g → g.geom.fits s.blen.toNat = true) :
    forValidSlots encodeSlot (List.range n) s = .respond 0#64 (s.setBuf (encodedCells s n)) := by
  induction n with
  | zero => rfl
  | succ n ih =>
    have ih := ih fun k g hk => hfits k g (Nat.lt_succ_of_lt hk)
    cases hn : s.validSlot n with
    | none => exact encodedCells_succ_of_none hn ▸ forValidSlots_range_succ_skip ih hn
    | some g =>
      have hinsert := insertField_of_fits (s := s.setBuf (encodedCells s n)) (hfits n g (Nat.lt_succ_self n) hn) g.raw
      exact encodedCells_succ_of_some hn ▸ forValidSlots_range_succ_ok ih hn hinsert

/-- From slot `b` on, a bit that no slot covers keeps its value. -/
theorem encodedCells_uncovered {s : State} {b n k j : Nat} (hbn : b ≤ n)
    (h : ∀ m g, b ≤ m → s.validSlot m = some g → ¬ g.geom.covers k j) :
    (memByte (encodedCells s n) k).getLsbD j = (memByte (encodedCells s b) k).getLsbD j := by
  induction n, hbn using Nat.le_induction with
  | base => rfl
  | succ n hbn ih =>
    cases hn : s.validSlot n with
    | none => rw [encodedCells_succ_of_none hn, ih]
    | some g => rw [encodedCells_succ_of_some hn, insertCells_uncovered _ _ (h n g hbn hn), ih]

/-- The bits of a slot's raw value stand at their places unless a higher slot covers them (R54). -/
theorem encodedCells_covered {s : State} {n m i : Nat} {g : Slot} (hn : s.validSlot n = some g) (hnm : n < m)
    (hi : i < g.len.toNat)
    (h : ∀ m h, n < m → s.validSlot m = some h → ¬ h.geom.covers (g.geom.pos i).1 (g.geom.pos i).2) :
    (memByte (encodedCells s m) (g.geom.pos i).1).getLsbD (g.geom.pos i).2 = g.raw.getLsbD i := by
  rw [encodedCells_uncovered hnm h, encodedCells_succ_of_some hn]
  exact insertCells_covered _ g.geom g.raw hi

theorem encodedCells_outside {s : State} {n k : Nat} (h : ∀ m g, s.validSlot m = some g → k ∉ g.geom.span) :
    memByte (encodedCells s n) k = s.byte k := by
  induction n with
  | zero => rfl
  | succ n ih =>
    cases hn : s.validSlot n with
    | none => rw [encodedCells_succ_of_none hn, ih]
    | some g => rw [encodedCells_succ_of_some hn, insertCells_outside _ _ (h n g hn), ih]

/-- What is said of every valid slot of the table is said of every valid slot by its number. -/
theorem forall_validSlot {s : State} {P : Slot → Prop} (h : ∀ g ∈ s.sig, g.valid = true → P g) {n : Nat} {g : Slot}
    (hn : s.validSlot n = some g) : P g :=
  have ⟨hg, hvalid⟩ := (validSlot_eq_some s n g).mp hn
  h g (List.mem_of_getElem? hg) hvalid

/-- `UPDS` of slots that all fit ends with all of them inserted. -/
theorem execUpds_of_fits {s : State} (hfits : ∀ g ∈ s.sig, g.valid = true → g.geom.fits s.blen.toNat = true) :
    execUpds s = .next ((s.setBuf (encodedCells s s.nsig)).emit (okResponse 0#64)) := by
  rw [execUpds, forAllSlots, forValidSlots_encodeSlot fun _ _ _ hk => forall_validSlot hfits hk, complete_respond]

/-- Settles O44. -/
theorem updsEncodesEverySlot : Obligations.UpdsEncodesEverySlot := by
  intro s hfits
  refine ⟨_, execUpds_of_fits hfits, rfl, fun n g i hg hvalid hi hhigher => ?_, fun k j h => ?_, fun k h => ?_⟩
  · have hlt : n < s.nsig := (List.getElem?_eq_some_iff.mp hg).1
    refine encodedCells_covered (validSlot_of_getElem? hg hvalid) hlt hi fun m h hm hh => ?_
    obtain ⟨hget, hvalid⟩ := (validSlot_eq_some s m h).mp hh
    exact hhigher m h hm hget hvalid
  · exact encodedCells_uncovered (Nat.zero_le _) fun m g _ hm => forall_validSlot h hm
  · exact encodedCells_outside fun m g hm => forall_validSlot h hm

/-! ## UPDR -/

/-- The table with the valid slots below `n` rewritten by `f`. -/
def rewrittenBelow (f : Slot → Slot) (n : Nat) (l : List Slot) : List Slot :=
  l.mapIdx fun k g => if k < n ∧ g.valid = true then f g else g

theorem rewrittenBelow_getElem? (f : Slot → Slot) (n : Nat) (l : List Slot) (k : Nat) :
    (rewrittenBelow f n l)[k]? = l[k]?.map fun g => if k < n ∧ g.valid = true then f g else g := List.getElem?_mapIdx

theorem rewrittenBelow_zero (f : Slot → Slot) (l : List Slot) : rewrittenBelow f 0 l = l := by
  apply List.ext_getElem?
  intro k
  simp [rewrittenBelow_getElem?]

theorem rewrittenBelow_succ_of_some {f : Slot → Slot} {n : Nat} {l : List Slot} {g : Slot} (hg : l[n]? = some g)
    (hvalid : g.valid = true) : rewrittenBelow f (n + 1) l = (rewrittenBelow f n l).set n (f g) := by
  apply List.ext_getElem?
  intro k
  have hlt : n < (rewrittenBelow f n l).length := by simpa [rewrittenBelow] using (List.getElem?_eq_some_iff.mp hg).1
  rw [List.getElem?_set, if_pos hlt, rewrittenBelow_getElem?, rewrittenBelow_getElem?]
  split
  next hnk =>
    subst hnk
    simp [hg, hvalid]
  next hnk =>
    have hk : k < n + 1 ↔ k < n := by omega
    simp only [hk]

theorem rewrittenBelow_succ_of_not_valid {f : Slot → Slot} {n : Nat} {l : List Slot}
    (h : ∀ g, l[n]? = some g → g.valid = false) : rewrittenBelow f (n + 1) l = rewrittenBelow f n l := by
  apply List.ext_getElem?
  intro k
  rw [rewrittenBelow_getElem?, rewrittenBelow_getElem?]
  by_cases hnk : n = k
  · subst hnk
    refine Option.map_congr fun g hg => ?_
    simp [h g hg]
  · have hk : k < n + 1 ↔ k < n := by omega
    simp only [hk]

/-- Slots not yet rewritten are those of the table before. -/
theorem validSlot_rewrittenBelow (f : Slot → Slot) (n : Nat) (s : State) :
    (s.setSig (rewrittenBelow f n s.sig)).validSlot n = s.validSlot n := by
  simp [State.validSlot, rewrittenBelow_getElem?]

/-- An iteration that rewrites each slot by `f`, whatever the slots before it have become, leaves them all rewritten. -/
theorem forValidSlots_rewrite {body : Nat → Slot → State → Except (Cause × State) State} {s : State} {f : Slot → Slot}
    (hbody : ∀ k g l, s.validSlot k = some g → body k g (s.setSig l) = .ok ((s.setSig l).setSlot k (f g))) (n : Nat) :
    forValidSlots body (List.range n) s = .respond 0#64 (s.setSig (rewrittenBelow f n s.sig)) := by
  induction n with
  | zero => rw [rewrittenBelow_zero]; rfl
  | succ n ih =>
    have hvalid := validSlot_rewrittenBelow f n s
    cases hn : s.validSlot n with
    | none =>
      rw [rewrittenBelow_succ_of_not_valid fun g hg => ?_]
      · exact forValidSlots_range_succ_skip ih (hvalid.trans hn)
      · rcases (validSlot_eq_none s n).mp hn with hlen | ⟨g', hg', hv⟩
        · cases (List.getElem?_eq_none hlen).symm.trans hg
        · exact Option.some.inj (hg'.symm.trans hg) ▸ hv
    | some g =>
      obtain ⟨hg, hv⟩ := (validSlot_eq_some s n g).mp hn
      rw [rewrittenBelow_succ_of_some hg hv]
      exact forValidSlots_range_succ_ok ih (hvalid.trans hn) (hbody n g _ hn)

/-- The slot after `UPDR`, whose message holds `byte` (R112). -/
def decodedSlot (byte : Nat → Byte) (g : Slot) : Slot :=
  { g with
    raw := g.geom.gather byte
    phys := ftrunc (scaledSum (g.geom.gather byte) g.factor g.offset) }

theorem scale_of_finite {raw : BitVec 64} {factor offset : F64} (h : scaleFinite raw factor offset = true) :
    scale raw factor offset = .ok (ftrunc (scaledSum raw factor offset)) := by
  obtain ⟨hproduct, hsum⟩ := Bool.and_eq_true_iff.mp h
  rw [scaledSum] at hsum
  simp only [scale, hproduct, hsum, scaledSum, Bool.not_true, Bool.false_eq_true, if_false]

theorem decodeSlot_of_fits {s : State} {g : Slot} (k : Nat) (hfits : g.geom.fits s.blen.toNat = true)
    (hfinite : scaleFinite (g.geom.gather s.byte) g.factor g.offset = true) :
    decodeSlot k g s = .ok (s.setSlot k (decodedSlot s.byte g)) := by
  simp only [decodeSlot, extractField, hfits, if_true, storeRaw, scale_of_finite hfinite]
  rfl

/-- `UPDR` of slots that all fit and scale to finite values ends with all of them decoded. -/
theorem execUpdr_of_fits {s : State}
    (h : ∀ g ∈ s.sig, g.valid = true →
      g.geom.fits s.blen.toNat = true ∧ scaleFinite (g.geom.gather s.byte) g.factor g.offset = true) :
    execUpdr s = .next ((s.setSig (rewrittenBelow (decodedSlot s.byte) s.nsig s.sig)).emit (okResponse 0#64)) := by
  have hbody (k : Nat) (g : Slot) (l : List Slot) (hk : s.validSlot k = some g) :
      decodeSlot k g (s.setSig l) = .ok ((s.setSig l).setSlot k (decodedSlot s.byte g)) :=
    have ⟨hfits, hfinite⟩ := forall_validSlot h hk
    decodeSlot_of_fits (s := s.setSig l) k hfits hfinite
  rw [execUpdr, forAllSlots, forValidSlots_rewrite hbody, complete_respond]

/-! ## UPDR after UPDS -/

/-- A raw value that is in range comes back from the cells it was inserted into if no other slot shares its places. -/
theorem gather_encodedCells {s : State} {n : Nat} {g : Slot} (hg : s.sig[n]? = some g) (hvalid : g.valid = true)
    (hrange : g.raw.toNat ≤ 2 ^ g.len.toNat - 1)
    (hdisjoint : ∀ m h, n ≠ m → s.validSlot m = some h → g.geom.disjoint h.geom) :
    g.geom.gather (memByte (encodedCells s s.nsig)) = g.raw := by
  have hlt : n < s.nsig := (List.getElem?_eq_some_iff.mp hg).1
  have hpos : 0 < 2 ^ g.len.toNat := Nat.two_pow_pos _
  apply BitVec.eq_of_getLsbD_eq
  intro i hi64
  rw [g.geom.gather_getLsbD]
  by_cases hi : i < g.len.toNat
  · rw [encodedCells_covered (validSlot_of_getElem? hg hvalid) hlt hi fun m h hm hh hcovers =>
      hdisjoint m h hm.ne hh _ _ ⟨⟨i, hi, rfl⟩, hcovers⟩]
    simp [show i < g.geom.len from hi, hi64]
  · have hpow : 2 ^ g.len.toNat ≤ 2 ^ i := Nat.pow_le_pow_right (by decide) (Nat.not_lt.mp hi)
    have hzero : g.raw.getLsbD i = false := by
      rw [← BitVec.testBit_toNat, Nat.testBit_lt_two_pow (by omega)]
    simp [show ¬ i < g.geom.len from hi, hzero]

/-- Settles O51: every valid slot gathers its own raw value from the cells `UPDS` leaves, so `UPDR` rewrites no `RAW`. -/
theorem updsThenUpdrKeepsRaw : Obligations.UpdsThenUpdrKeepsRaw := by
  intro s hinv hslots hdisjoint
  obtain ⟨_, _, _, _, _, _, _, hslotInv⟩ := hinv
  have hgather (n : Nat) (g : Slot) (hg : s.sig[n]? = some g) (hvalid : g.valid = true) :
      g.geom.gather (memByte (encodedCells s s.nsig)) = g.raw := by
    obtain ⟨_, _, hrange, _⟩ := hslotInv g (List.mem_of_getElem? hg) hvalid
    refine gather_encodedCells hg hvalid hrange fun m h hnm hm => ?_
    obtain ⟨hh, hhvalid⟩ := (validSlot_eq_some s m h).mp hm
    exact hdisjoint n m g h hnm hg hh hvalid hhvalid
  have hdecode (g : Slot) (hg : g ∈ s.sig) (hvalid : g.valid = true) : g.geom.fits s.blen.toNat = true ∧
      scaleFinite (g.geom.gather (memByte (encodedCells s s.nsig))) g.factor g.offset = true := by
    obtain ⟨n, hn⟩ := List.mem_iff_getElem?.mp hg
    rw [hgather n g hn hvalid]
    exact hslots g hg hvalid
  refine ⟨_, _, execUpds_of_fits fun g hg hvalid => (hslots g hg hvalid).1,
    execUpdr_of_fits (s := (s.setBuf (encodedCells s s.nsig)).emit (okResponse 0#64)) hdecode, ?_⟩
  apply List.ext_getElem?
  intro n
  rw [List.getElem?_map, List.getElem?_map, State.emit_sig, State.setSig_sig, rewrittenBelow_getElem?, Option.map_map]
  refine Option.map_congr fun g hg => ?_
  rw [Function.comp_apply]
  split
  next h => exact hgather n g hg h.2
  next => rfl

end Sys2Proof.Machine
end

section
/-!
PROOFS. The decoder and the encoder (R62 to R70). The opcode byte picks the command (`decode_of_wordOp_eq`), so that
decoding is the test of the zero bits of that command's format, and a row of the opcode table asks for the same two
things (`spells_row_iff`): the opcode and the zero bits.
-/

namespace Sys2Proof

open Laws

/-! ## What a word is to a command -/

/-- The bits of the word that the command's format marks zero are zero (R62, R67). -/
def Instr.zeroBits : Instr → CmdWord → Bool
  | .setd _ _ _ _, w | .getd _ _ _, w => zeroC w
  | .sigwr _ _ _, w | .sigrd _ _, w => zeroX w
  | .chkm _, w => zeroN w
  | .upds, w | .updr, w | .rstd, w => zeroNFlag w
  | _, w => zeroXFld w

/-- The command with its operands read anew from a word and a data operand (R63, R65). -/
def Instr.readFrom (w : CmdWord) (d : Data) : Instr → Instr
  | .setd _ _ _ _ => .setd (wordStart w) (wordLen w) (wordIo w) d
  | .getd _ _ _ => .getd (wordStart w) (wordLen w) (wordIo w)
  | .wrb _ _ => .wrb (wordIdx w) d
  | .rdb _ => .rdb (wordIdx w)
  | .wrcr _ _ => .wrcr (wordIdx w) d
  | .rdcr _ => .rdcr (wordIdx w)
  | .sigdef _ _ => .sigdef (wordIdx w) d
  | .sigwr _ _ _ => .sigwr (wordFld w) (wordIdx w) d
  | .sigrd _ _ => .sigrd (wordFld w) (wordIdx w)
  | .setv _ _ => .setv (wordIdx w) d
  | .setp _ _ => .setp (wordIdx w) d
  | .upds => .upds
  | .updr => .updr
  | .chkm _ => .chkm (wordFlag w)
  | .rstd => .rstd

/-- The command with `d` as its data operand, where it takes one (R60, R65). -/
def Instr.withData (d : Data) : Instr → Instr
  | .setd start len io _ => .setd start len io d
  | .wrb idx _ => .wrb idx d
  | .wrcr cr _ => .wrcr cr d
  | .sigdef slot _ => .sigdef slot d
  | .sigwr fld slot _ => .sigwr fld slot d
  | .setv slot _ => .setv slot d
  | .setp slot _ => .setp slot d
  | i => i

theorem Instr.withData_encodeData (i : Instr) : i.withData (encodeData i) = i := by
  cases i <;> rfl

theorem Instr.row_readFrom (i : Instr) (w : CmdWord) (d : Data) : (i.readFrom w d).row = i.row := by
  cases i <;> rfl

/-- A word with a command's opcode decodes to that command if the zero bits of its format are zero (R64, R67). -/
theorem decode_of_wordOp_eq {w : CmdWord} {i : Instr} (h : wordOp w = i.opcode) (d : Data) :
    decode w d = checked (i.zeroBits w) i.opcode (i.readFrom w d) := by
  unfold decode
  rw [h]
  cases i <;> rfl

/-! ## From a command to its word and back -/

/-- The word of every command spells its row and carries its opcode. -/
theorem encodesItsRow (i : Instr) : EncodesItsRow.Statement i := by
  cases i with
  | setd => exact EncodesItsRow.setd ..
  | getd => exact EncodesItsRow.getd ..
  | wrb => exact EncodesItsRow.wrb ..
  | rdb => exact EncodesItsRow.rdb ..
  | wrcr => exact EncodesItsRow.wrcr ..
  | rdcr => exact EncodesItsRow.rdcr ..
  | sigdef => exact EncodesItsRow.sigdef ..
  | sigwr => exact EncodesItsRow.sigwr ..
  | sigrd => exact EncodesItsRow.sigrd ..
  | setv => exact EncodesItsRow.setv ..
  | setp => exact EncodesItsRow.setp ..
  | upds => exact EncodesItsRow.upds
  | updr => exact EncodesItsRow.updr
  | chkm => exact EncodesItsRow.chkm ..
  | rstd => exact EncodesItsRow.rstd

/-- The format of a command writes its zero bits as zeros. -/
theorem zeroBits_encodeWord (i : Instr) : i.zeroBits (encodeWord i) = true := by
  cases i with
  | setd | getd =>
    show zeroC _ = true
    simp [encodeWord, formatC_fields]
  | sigwr | sigrd =>
    show zeroX _ = true
    simp [encodeWord, formatX_fields]
  | chkm =>
    show zeroN _ = true
    simp [encodeWord, formatN_fields]
  | upds | updr | rstd =>
    show zeroNFlag _ = true
    simp [encodeWord, zeroNFlag, formatN_fields]
  | _ =>
    show zeroXFld _ = true
    simp [encodeWord, zeroXFld, formatX_fields]

/-- Every operand of a command reads back from its word, but for the data operand (R63). -/
theorem readFrom_encodeWord (i : Instr) (d : Data) : i.readFrom (encodeWord i) d = i.withData d := by
  cases i with
  | setd | getd => simp [Instr.readFrom, Instr.withData, encodeWord, formatC_fields]
  | upds | updr | chkm | rstd => simp [Instr.readFrom, Instr.withData, encodeWord, formatN_fields]
  | _ => simp [Instr.readFrom, Instr.withData, encodeWord, formatX_fields]

/-- The word of a command decodes to it, with the data operand presented beside the word if it takes one. -/
theorem decode_encodeWord (i : Instr) (d : Data) : decode (encodeWord i) d = .ok (i.withData d) := by
  obtain ⟨_, hop⟩ := encodesItsRow i
  rw [decode_of_wordOp_eq hop, zeroBits_encodeWord, readFrom_encodeWord]
  rfl

/-- Settles O1: the data operand presented is the command's own. -/
theorem decodeOfEncode : Obligations.DecodeOfEncode := by
  intro i
  rw [decode_encodeWord, i.withData_encodeData]

/-- Settles O5: none of the eight commands has a data operand to replace, and `WRCR` of `FSR` does not read its own. -/
theorem dataOperandIgnored : Obligations.DataOperandIgnored := fun d _ _ =>
  ⟨fun start len io => decode_encodeWord (.getd start len io) d, fun idx => decode_encodeWord (.rdb idx) d,
    fun cr => decode_encodeWord (.rdcr cr) d, fun fld slot => decode_encodeWord (.sigrd fld slot) d,
    decode_encodeWord .upds d, decode_encodeWord .updr d, fun flag => decode_encodeWord (.chkm flag) d,
    decode_encodeWord .rstd d, rfl⟩

/-- Settles O6: the decoder run on each word. -/
theorem sampleWordsDecode : Obligations.SampleWordsDecode := by
  unfold Obligations.SampleWordsDecode
  decide

/-! ## From a word to its command and back -/

/-- The bits of a field of a word are the word's. -/
theorem getLsbD_extractLsb'_sub {w : CmdWord} {start len i : Nat} (hstart : start ≤ i) (hlen : i < start + len) :
    (w.extractLsb' start len).getLsbD (i - start) = w.getLsbD i := by
  simp [show i - start < len by omega, Nat.add_sub_cancel' hstart]

theorem getLsbD_of_extractLsb'_eq_zero {w : CmdWord} {start len i : Nat} (h : (w.extractLsb' start len == 0#len) = true)
    (hstart : start ≤ i) (hlen : i < start + len) : w.getLsbD i = false := by
  rw [← getLsbD_extractLsb'_sub hstart hlen, eq_of_beq h, BitVec.getLsbD_zero]

/-- A word whose format C zero bits are zero is put together from its fields (R62). -/
theorem formatC_of_zeroC {w : CmdWord} {op : BitVec 8} (hop : wordOp w = op) (h : zeroC w = true) :
    formatC op (wordIo w) (wordLen w) (wordStart w) = w := by
  subst hop
  have hio : decide (wordIo w = .intel) = w.getLsbD 16 := by
    unfold wordIo
    cases w.getLsbD 16 <;> rfl
  apply BitVec.eq_of_getLsbD_eq
  intro i hi
  rw [formatC_getLsbD]
  split
  · exact getLsbD_extractLsb'_sub (by omega) (by omega)
  split
  · exact getLsbD_extractLsb'_sub (by omega) (by omega)
  split
  next hbit => rw [hio, hbit]
  split
  · exact (getLsbD_of_extractLsb'_eq_zero h (by omega) (by omega)).symm
  · exact getLsbD_extractLsb'_sub (by omega) (by omega)

/-- A word whose format X zero bits are zero is put together from its fields (R62). -/
theorem formatX_of_zeroX {w : CmdWord} {op : BitVec 8} (hop : wordOp w = op) (h : zeroX w = true) :
    formatX op (wordFld w) (wordIdx w) = w := by
  subst hop
  apply BitVec.eq_of_getLsbD_eq
  intro i hi
  rw [formatX_getLsbD]
  split
  · exact getLsbD_extractLsb'_sub (by omega) (by omega)
  split
  · exact (getLsbD_of_extractLsb'_eq_zero h (by omega) (by omega)).symm
  split
  · exact getLsbD_extractLsb'_sub (by omega) (by omega)
  · exact getLsbD_extractLsb'_sub (by omega) (by omega)

/-- A word whose format N zero bits are zero is put together from its fields (R62). -/
theorem formatN_of_zeroN {w : CmdWord} {op : BitVec 8} (hop : wordOp w = op) (h : zeroN w = true) :
    formatN op (wordFlag w) = w := by
  subst hop
  apply BitVec.eq_of_getLsbD_eq
  intro i hi
  rw [formatN_getLsbD]
  split
  next hflag => rw [hflag, wordFlag]
  split
  · exact (getLsbD_of_extractLsb'_eq_zero h (by omega) (by omega)).symm
  · exact getLsbD_extractLsb'_sub (by omega) (by omega)

theorem formatX_of_zeroXFld {w : CmdWord} {op : BitVec 8} (hop : wordOp w = op) (h : zeroXFld w = true) :
    formatX op 0#4 (wordIdx w) = w := by
  obtain ⟨hzero, hfld⟩ := Bool.and_eq_true_iff.mp h
  rw [← eq_of_beq hfld, formatX_of_zeroX hop hzero]

theorem formatN_of_zeroNFlag {w : CmdWord} {op : BitVec 8} (hop : wordOp w = op) (h : zeroNFlag w = true) :
    formatN op false = w := by
  obtain ⟨hzero, hflag⟩ := Bool.and_eq_true_iff.mp h
  rw [← (Bool.not_eq_true' _).mp hflag, formatN_of_zeroN hop hzero]

/-- A word with a command's opcode and the zero bits of its format is the word of the command read from it. -/
theorem encodeWord_readFrom {w : CmdWord} {i : Instr} (hop : wordOp w = i.opcode) (hzero : i.zeroBits w = true)
    (d : Data) : encodeWord (i.readFrom w d) = w := by
  cases i with
  | setd | getd => exact formatC_of_zeroC hop hzero
  | sigwr | sigrd => exact formatX_of_zeroX hop hzero
  | chkm => exact formatN_of_zeroN hop hzero
  | upds | updr | rstd => exact formatN_of_zeroNFlag hop hzero
  | _ => exact formatX_of_zeroXFld hop hzero

/-! ## The rows of the opcode table -/

/-- A field of the word that a row's mask covers is that of the row's match. -/
theorem extractLsb'_of_spells {w : CmdWord} {r : CmdWord × CmdWord} (h : spells w r = true) {start len : Nat}
    (hmask : r.2.extractLsb' start len = BitVec.allOnes len) : w.extractLsb' start len = r.1.extractLsb' start len := by
  rw [← eq_of_beq h, BitVec.extractLsb'_and, hmask, BitVec.and_allOnes]

/-- A field that a row fixes as zero is zero in the word. -/
theorem zero_of_spells {w : CmdWord} {r : CmdWord × CmdWord} (h : spells w r = true) {start len : Nat}
    (hrow : r.2.extractLsb' start len = BitVec.allOnes len ∧ r.1.extractLsb' start len = 0#len) :
    (w.extractLsb' start len == 0#len) = true :=
  beq_iff_eq.mpr ((extractLsb'_of_spells h hrow.1).trans hrow.2)

/-- Every row's mask covers the opcode byte, and its match has the command's opcode there. -/
theorem Instr.row_opcode (i : Instr) :
    i.row.2.extractLsb' 24 8 = BitVec.allOnes 8 ∧ i.row.1.extractLsb' 24 8 = i.opcode := by
  cases i <;> simp only [Instr.row, Instr.opcode] <;> decide

/-- A word spells a command's row exactly if it has the command's opcode and zeros where its format has them (R64). -/
theorem spells_row_iff (w : CmdWord) (i : Instr) :
    spells w i.row = true ↔ wordOp w = i.opcode ∧ i.zeroBits w = true := by
  constructor
  · intro h
    obtain ⟨hmask, hmatch⟩ := i.row_opcode
    refine ⟨(extractLsb'_of_spells h hmask).trans hmatch, ?_⟩
    cases i with
    | setd | getd => exact zero_of_spells h (start := 17) (by simp only [Instr.row]; decide)
    | sigwr | sigrd => exact zero_of_spells h (start := 9) (by simp only [Instr.row]; decide)
    | chkm => exact zero_of_spells h (start := 1) (by simp only [Instr.row]; decide)
    | upds | updr | rstd =>
      have hzero : zeroN w = true := zero_of_spells h (by simp only [Instr.row]; decide)
      have hbit := zero_of_spells h (start := 0) (len := 1) (by simp only [Instr.row]; decide)
      have hflag : wordFlag w = false := getLsbD_of_extractLsb'_eq_zero hbit (by decide) (by decide)
      exact Bool.and_eq_true_iff.mpr ⟨hzero, (Bool.not_eq_true' _).mpr hflag⟩
    | _ =>
      have hzero : zeroX w = true := zero_of_spells h (by simp only [Instr.row]; decide)
      have hfld : (wordFld w == 0#4) = true := zero_of_spells h (by simp only [Instr.row]; decide)
      exact Bool.and_eq_true_iff.mpr ⟨hzero, hfld⟩
  · rintro ⟨hop, hzero⟩
    obtain ⟨hspells, _⟩ := encodesItsRow (i.readFrom w 0#64)
    rwa [encodeWord_readFrom hop hzero, i.row_readFrom] at hspells

/-- One command of each row, in the table's order. -/
def rowCommands : List Instr :=
  [.setd 0#9 0#7 .intel 0#64, .getd 0#9 0#7 .intel, .wrb 0#9 0#64, .rdb 0#9, .wrcr 0#9 0#64, .rdcr 0#9,
   .sigdef 0#9 0#64, .sigwr 0#4 0#9 0#64, .sigrd 0#4 0#9, .setv 0#9 0#64, .setp 0#9 0#64, .upds, .updr, .chkm false,
   .rstd]

theorem exists_row_eq {r : CmdWord × CmdWord} (h : r ∈ rows) : ∃ i : Instr, i.row = r := by
  have hrows : rows = rowCommands.map Instr.row := rfl
  rw [hrows, List.mem_map] at h
  obtain ⟨i, _, hi⟩ := h
  exact ⟨i, hi⟩

/-- The opcodes of R64. -/
abbrev opcodes : List (BitVec 8) := rowCommands.map Instr.opcode

theorem Instr.row_mem_rows (i : Instr) : i.row ∈ rows := by
  cases i <;> simp [Instr.row, rows]

/-! ## What the decoder answers -/

/-- A word whose opcode is none of R64 is rejected as such (R68). -/
theorem decode_of_wordOp_notMem {w : CmdWord} (h : wordOp w ∉ opcodes) (d : Data) :
    decode w d = .error (.undefinedOpcode (wordOp w)) := by
  simp only [opcodes, rowCommands, Instr.opcode, List.map_cons, List.map_nil, List.mem_cons, not_or] at h
  simp only [decode, h, if_false]

/-- A word that spells a command's row decodes to the command with the operands read from the word. -/
theorem decode_of_spells {w : CmdWord} {i : Instr} (h : spells w i.row = true) (d : Data) :
    decode w d = .ok (i.readFrom w d) := by
  obtain ⟨hop, hzero⟩ := (spells_row_iff w i).mp h
  rw [decode_of_wordOp_eq hop, hzero]
  rfl

/-- A word that spells no row is rejected under the name its opcode gives (R67, R68). -/
theorem decode_of_not_spells {w : CmdWord} (h : ∀ r ∈ rows, spells w r = false) (d : Data) :
    decode w d = .error (if wordOp w ∈ opcodes then .reservedBits (wordOp w) else .undefinedOpcode (wordOp w)) := by
  split
  next hmem =>
    obtain ⟨i, _, hop⟩ := List.mem_map.mp hmem
    have hzero : i.zeroBits w = false := by
      by_contra hne
      have hspells := (spells_row_iff w i).mpr ⟨hop.symm, Bool.eq_true_of_not_eq_false hne⟩
      exact Bool.eq_false_iff.mp (h i.row i.row_mem_rows) hspells
    rw [decode_of_wordOp_eq hop.symm, hzero, hop]
    rfl
  next hmem => exact decode_of_wordOp_notMem hmem d

/-- A word that decodes is the word of the command it decodes to. -/
theorem encodeWord_of_decode_eq_ok {w : CmdWord} {d : Data} {i : Instr} (h : decode w d = .ok i) :
    encodeWord i = w := by
  by_cases hrow : ∀ r ∈ rows, spells w r = false
  · cases (decode_of_not_spells hrow d).symm.trans h
  · push Not at hrow
    obtain ⟨r, hr, hspells⟩ := hrow
    obtain ⟨j, rfl⟩ := exists_row_eq hr
    have hj := Bool.eq_true_of_not_eq_false hspells
    obtain rfl := Except.ok.inj ((decode_of_spells hj d).symm.trans h)
    obtain ⟨hop, hzero⟩ := (spells_row_iff w j).mp hj
    exact encodeWord_readFrom hop hzero d

/-- Settles O2: a word that decodes spells a row, and the command read from it writes that word again. -/
theorem encodeOfDecode : Obligations.EncodeOfDecode := fun _ _ _ h => encodeWord_of_decode_eq_ok h

/-- Settles O4: the opcode list of the statement is that of the table's commands. -/
theorem unspelledWordsRejectedByName : Obligations.UnspelledWordsRejectedByName := fun _ d h => decode_of_not_spells h d

/-- A word spells at most one row: the rows have different opcodes. -/
theorem length_filter_spells_le_one (w : CmdWord) : (rows.filter (spells w)).length ≤ 1 := by
  have hnodup : (rows.map fun r => r.1.extractLsb' 24 8).Nodup := by decide
  have hsame : ∀ op ∈ (rows.filter (spells w)).map (fun r => r.1.extractLsb' 24 8), op = wordOp w := by
    intro op hop
    obtain ⟨r, hr, rfl⟩ := List.mem_map.mp hop
    obtain ⟨hmem, hspells⟩ := List.mem_filter.mp hr
    obtain ⟨i, rfl⟩ := exists_row_eq hmem
    obtain ⟨hop, _⟩ := (spells_row_iff w i).mp hspells
    exact i.row_opcode.2.trans hop.symm
  have hsub := hnodup.sublist ((List.filter_sublist (p := spells w)).map _)
  rwa [List.eq_replicate_of_mem hsame, List.nodup_replicate, List.length_map] at hsub

/-- Settles O3: the word of a command spells its row, a row spelled is that of a command, and the opcode tells the rows
apart. -/
theorem decodeAgreesWithMatchMask : Obligations.DecodeAgreesWithMatchMask := by
  refine ⟨fun w d i h => ⟨i.row_mem_rows, ?_⟩, fun w d ⟨r, hr, hspells⟩ => ?_, length_filter_spells_le_one⟩
  · obtain ⟨hspells, _⟩ := encodesItsRow i
    rwa [encodeWord_of_decode_eq_ok h] at hspells
  · obtain ⟨i, rfl⟩ := exists_row_eq hr
    exact ⟨_, decode_of_spells hspells d⟩

end Sys2Proof
end

section
/-!
PROOFS. A presented word that spells no command (R67, R68, R133), and the faults of `SIGWR` in their order (R96).
-/

namespace Sys2Proof.Machine

/-- The opcode byte of a word, as a number (R62). -/
theorem wordOp_toNat (w : CmdWord) : (wordOp w).toNat = w.toNat / 2 ^ 24 := by
  rw [wordOp, BitVec.extractLsb'_toNat, Nat.shiftRight_eq_div_pow]
  omega

/-- The information word of `IllegalCommand`: cause 8, the word's own top byte, index 0 (R133). -/
theorem faultInfo_illegal (w : CmdWord) :
    faultInfo (wordOp w) .illegal 0#9 = BitVec.ofNat 64 (8 + w.toNat / 2 ^ 24 * 2 ^ 8) := by
  rw [faultInfo_eq_ofNat, wordOp_toNat]
  rfl

/-- Settles O8: the port raises `IllegalCommand` once the input is taken. -/
theorem stepOnIllegalWord : Obligations.StepOnIllegalWord := by
  intro s w d rest e hinput hdecode
  refine ⟨(s.setInput rest).takeFault (wordOp w) .illegal 0#9, step_illegal s w d rest e hinput hdecode, ?_, ?_⟩
  · rw [← faultInfo_illegal]
    rfl
  · rw [← faultInfo_illegal]
    rfl

/-! ## SIGWR -/

/-- `SIGWR` writes through selectors 1 to 5 only (R73). -/
theorem writableField_eq_none_iff (fld : BitVec 4) : writableField fld = none ↔ fld.toNat = 0 ∨ 5 < fld.toNat := by
  revert fld
  decide

/-- Selectors 1 to 4 name the four `f64` fields (R73). -/
theorem writableField_float {fld : BitVec 4} (hpos : 1 ≤ fld.toNat) (hmax : fld.toNat ≤ 4) :
    ∃ f, writableField fld = some f ∧ f ∈ [SlotField.factor, .offset, .min, .max] := by
  revert fld
  decide

theorem lookupSlot_of_valid {s : State} {slot : BitVec 9} {g : Slot} (hg : s.sig[slot.toNat]? = some g)
    (hvalid : g.valid = true) : lookupSlot s slot = .ok g := by
  rw [lookupSlot, validSlot_of_getElem? hg hvalid]

/-- A `SIGWR` of a valid slot that writes its field not raises what the write raises, with the slot's number. -/
theorem execSigwr_of_error {s : State} {fld : BitVec 4} {slot : BitVec 9} {value : Data} {f : SlotField} {g : Slot}
    {c : Cause} (hf : writableField fld = some f) (hg : s.sig[slot.toNat]? = some g) (hvalid : g.valid = true)
    (hwrite : writeSlotField g value f = .error c) :
    exec (.sigwr fld slot value) s = .next (s.takeFault 0x21#8 c slot) := by
  simp only [exec, execSigwr, hf, lookupSlot_of_valid hg hvalid, hwrite, complete_raise]

/-- A non-finite operand of an `f64` field is refused before anything is computed (R96). -/
theorem writeSlotField_of_not_finite {g : Slot} {value : Data} {f : SlotField}
    (hf : f ∈ [SlotField.factor, .offset, .min, .max]) (hvalue : F64.isFinite value = false) :
    writeSlotField g value f = .error .numeric := by
  cases f with
  | factor | offset | min | max => simp only [writeSlotField, hvalue, Bool.not_false, if_true]
  | geom | dflt | raw | phys => simp at hf

theorem scale_of_not_finite {raw : BitVec 64} {factor offset : F64} (h : scaleFinite raw factor offset = false) :
    scale raw factor offset = .error .numeric := by
  rcases scale_cases raw factor offset with ⟨hproduct, hsum, _⟩ | ⟨_, herror⟩
  · simp [scaleFinite, scaledSum, hproduct, hsum] at h
  · exact herror

/-- Settles O35, clause by clause: the selector, then the operand, the scaling and the range of the write. -/
theorem sigwrFaultsInOrder : Obligations.SigwrFaultsInOrder := by
  intro s fld slot v
  refine ⟨fun hfld => ?_, fun g hpos hmax hg hvalid hv => ?_, fun g hg hvalid hv hscale => ?_,
    fun g hg hvalid hv hscale => ?_, fun g hg hvalid hrange => ?_⟩
  · simp only [exec, execSigwr, (writableField_eq_none_iff fld).mpr hfld, complete_raise]
  · obtain ⟨f, hf, hfloat⟩ := writableField_float hpos hmax
    exact execSigwr_of_error hf hg hvalid (writeSlotField_of_not_finite hfloat hv)
  · refine execSigwr_of_error (f := .factor) rfl hg hvalid ?_
    simp only [writeSlotField, hv, scale_of_not_finite hscale, Bool.not_true, Bool.false_eq_true, if_false]
  · refine execSigwr_of_error (f := .offset) rfl hg hvalid ?_
    simp only [writeSlotField, hv, scale_of_not_finite hscale, Bool.not_true, Bool.false_eq_true, if_false]
  · refine execSigwr_of_error (f := .dflt) rfl hg hvalid ?_
    have hfits : fitsLen v g.len.toNat = false := decide_eq_false (Nat.not_le.mpr hrange)
    simp only [writeSlotField, hfits, Bool.not_false, if_true]

end Sys2Proof.Machine
end

section
/-!
PROOFS. Operands that are legal whatever the state (R69) and the faults `OperandFault` and `ByteFault` (R137): each
command tests exactly what `Instr.wellFormed` asks for, in guards at the head of its pseudocode.
-/

namespace Sys2Proof.Machine

/-! ## How a pseudocode may end -/

/-- The pseudocode ends as it should for operands that are legal or not: legal ones raise neither `OperandFault` nor
`ByteFault`, others one of these, or `LookupFault` where the slot is tested first. -/
inductive Verdict : Bool → Effect → Prop
  | respond (v : Data) (s : State) : Verdict true (.respond v s)
  | fault {c : Cause} (idx : BitVec 9) (s : State) (hc : c ∉ [Cause.operand, .byte]) : Verdict true (.raise c idx s)
  | reject {c : Cause} (idx : BitVec 9) (s : State) (hc : c ∈ [Cause.operand, .byte, .lookup]) :
      Verdict false (.raise c idx s)

theorem verdict_lookup (legal : Bool) (idx : BitVec 9) (s : State) : Verdict legal (.raise .lookup idx s) := by
  cases legal
  · exact .reject idx s (by simp)
  · exact .fault idx s (by simp)

/-- A guard that refuses illegal operands leaves the rest of what makes them legal to the pseudocode after it. -/
theorem Verdict.guard {p : Prop} [Decidable p] {legal rest : Bool} {c : Cause} {idx : BitVec 9} {s : State} {e : Effect}
    (hlegal : legal = (!decide p && rest)) (hc : c ∈ [Cause.operand, .byte, .lookup]) (h : Verdict rest e) :
    Verdict legal (if p then .raise c idx s else e) := by
  subst hlegal
  by_cases hp : p
  · simpa only [hp, decide_true, Bool.not_true, Bool.false_and, if_true] using .reject idx s hc
  · simpa only [hp, decide_false, Bool.not_false, Bool.true_and, if_false] using h

/-- The last guard tests all that is left. -/
theorem Verdict.lastGuard {p : Prop} [Decidable p] {legal : Bool} {c : Cause} {idx : BitVec 9} {s : State} {e : Effect}
    (hlegal : legal = !decide p) (hc : c ∈ [Cause.operand, .byte, .lookup]) (h : Verdict true e) :
    Verdict legal (if p then .raise c idx s else e) := .guard (hlegal.trans (Bool.and_true _).symm) hc h

/-- The command's pseudocode ends as it should for its operands. -/
def JudgesOperands (i : Instr) (o : Host.Outcome State Fault Refusal) : Prop :=
  ∃ e : Effect, o = complete i.opcode e ∧ Verdict i.wellFormed e

/-- The end of an iteration is a success or the fault of one slot (R110). -/
theorem forValidSlots_ends {P : Effect → Prop} {body : Nat → Slot → State → Except (Cause × State) State}
    (respond : ∀ s, P (.respond 0#64 s))
    (raise : ∀ k g s c t, body k g s = .error (c, t) → P (.raise c (BitVec.ofNat 9 k) t)) (ks : List Nat) (s : State) :
    P (forValidSlots body ks s) := by
  induction ks generalizing s with
  | nil => exact respond s
  | cons k ks ih =>
    unfold forValidSlots
    cases s.validSlot k with
    | none => exact ih s
    | some g =>
      cases hbody : body k g s with
      | ok t => simpa only [hbody] using ih t
      | error ct => simpa only [hbody] using raise k g s ct.1 ct.2 hbody

/-! ## The guards -/

theorem lenLegal_eq (len : BitVec 7) : lenLegal len = !badLen len := by
  rw [Bool.eq_iff_iff, Bool.not_eq_true', lenLegal, badLen, decide_eq_true_iff, decide_eq_false_iff_not]
  omega

/-- The top bits of a data operand are zero exactly if it is a number below them. -/
theorem extractLsb'_eq_zero_iff (x : Data) {start len : Nat} (h : start + len = 64) :
    x.extractLsb' start len = 0#len ↔ x.toNat < 2 ^ start := by
  have hlt : x.toNat / 2 ^ start < 2 ^ len :=
    Nat.div_lt_of_lt_mul (by rw [← pow_add, h]; exact x.isLt)
  rw [← BitVec.toNat_inj, BitVec.extractLsb'_toNat, Nat.shiftRight_eq_div_pow, Nat.mod_eq_of_lt hlt, BitVec.toNat_ofNat,
    Nat.zero_mod, Nat.div_eq_zero_iff_lt (Nat.two_pow_pos start)]

/-- Testing that the top bits are not zero is testing that the number is not below them. -/
theorem decide_lt_eq (x : Data) {start len : Nat} (h : start + len = 64) :
    decide (x.toNat < 2 ^ start) = !decide (x.extractLsb' start len ≠ 0#len) := by
  rw [← decide_not, decide_eq_decide, not_not, extractLsb'_eq_zero_iff x h]

theorem byteLegal_eq (data : Data) : byteLegal data = !decide (data.extractLsb' 8 56 ≠ 0#56) := by
  rw [← decide_lt_eq data (by decide), byteLegal, decide_eq_decide]
  omega

theorem blenLegal_eq (value : Data) :
    decide (1 ≤ value.toNat ∧ value.toNat ≤ 64) = !decide (value.toNat < 1 ∨ value.toNat > 64) := by
  rw [← decide_not, decide_eq_decide]
  omega

theorem crReadable_eq (cr : BitVec 9) : crReadable cr = (selectCtrlReg cr).isSome := by
  unfold crReadable selectCtrlReg
  generalize cr.toNat = n
  match n with
  | 0 | 1 | 2 | 3 => rfl
  | n + 4 => exact decide_eq_false (by omega)

theorem fldReadable_eq (fld : BitVec 4) : fldReadable fld = (selectField fld).isSome := by
  revert fld
  decide

theorem fldWritable_eq (fld : BitVec 4) : fldWritable fld = (writableField fld).isSome := by
  revert fld
  decide

theorem geomLegal_eq (d : Data) : geomLegal d = (!decide (geomReserved d ≠ 0#46) && !badLen (geomLen d)) := by
  rw [geomLegal, lenLegal_eq, decide_lt_eq d (len := 46) (by decide)]
  rfl

/-! ## What the operations on the state raise -/

theorem insertField_error_notMem {s t : State} {g : Geom} {v : BitVec 64} {c : Cause}
    (h : insertField s g v = .error (c, t)) : c ∉ [Cause.operand, .byte] := by
  rcases insertField_cases s g v with ⟨_, hok⟩ | ⟨_, herror⟩
  · cases hok.symm.trans h
  · cases herror.symm.trans h
    simp

theorem storeRaw_error_notMem {s t : State} {k : Nat} {g : Slot} {v : BitVec 64} {c : Cause}
    (h : storeRaw k g v s = .error (c, t)) : c ∉ [Cause.operand, .byte] := by
  rcases storeRaw_cases k g v s with ⟨_, _, hok⟩ | ⟨_, herror⟩
  · cases hok.symm.trans h
  · cases herror.symm.trans h
    simp

theorem decodeSlot_error_notMem {s t : State} {k : Nat} {g : Slot} {c : Cause} (h : decodeSlot k g s = .error (c, t)) :
    c ∉ [Cause.operand, .byte] := by
  unfold decodeSlot at h
  rcases extractField_cases s g.geom with ⟨_, hextract⟩ | ⟨_, hextract⟩ <;> rw [hextract] at h
  · exact storeRaw_error_notMem h
  · cases h
    simp

theorem scale_error_notMem {raw : BitVec 64} {factor offset : F64} {c : Cause}
    (h : scale raw factor offset = .error c) : c ∉ [Cause.operand, .byte] := by
  rcases scale_cases raw factor offset with ⟨_, _, hok⟩ | ⟨_, herror⟩
  · cases hok.symm.trans h
  · cases herror.symm.trans h
    simp

theorem unscale_error_notMem {p factor offset : F64} {len : Nat} {c : Cause}
    (h : unscale p factor offset len = .error c) : c ∉ [Cause.operand, .byte] := by
  rcases unscale_error p factor offset len c h with rfl | rfl <;> simp

theorem writableField_notMem {fld : BitVec 4} {f : SlotField} (h : writableField fld = some f) :
    f ∉ [SlotField.geom, .raw, .phys] := by
  unfold writableField at h
  split at h <;> cases h <;> simp

/-- A write of a field `SIGWR` may write raises only `NumericFault` and `RangeFault` (R96). -/
theorem writeSlotField_error_notMem {g : Slot} {value : Data} {f : SlotField} {c : Cause}
    (hf : f ∉ [SlotField.geom, .raw, .phys]) (h : writeSlotField g value f = .error c) :
    c ∉ [Cause.operand, .byte] := by
  unfold writeSlotField at h
  cases f with
  | factor =>
    simp only at h
    split at h
    · cases h
      simp
    · cases hscale : scale g.raw value g.offset <;> rw [hscale] at h <;> cases h
      exact scale_error_notMem hscale
  | offset =>
    simp only at h
    split at h
    · cases h
      simp
    · cases hscale : scale g.raw g.factor value <;> rw [hscale] at h <;> cases h
      exact scale_error_notMem hscale
  | min | max | dflt =>
    simp only at h
    split at h <;> cases h
    simp
  | geom | raw | phys => simp at hf

/-! ## The commands -/

theorem forAllSlots_judges {i : Instr} {body : Nat → Slot → State → Except (Cause × State) State}
    (hi : i.wellFormed = true) (hbody : ∀ k g s c t, body k g s = .error (c, t) → c ∉ [Cause.operand, .byte])
    (s : State) : JudgesOperands i (complete i.opcode (forAllSlots body s)) := by
  refine ⟨_, rfl, hi ▸ ?_⟩
  exact forValidSlots_ends (fun s => .respond _ s) (fun k g s c t h => .fault _ t (hbody k g s c t h)) _ s

theorem execSetd_judges (start : BitVec 9) (len : BitVec 7) (io : Layout) (value : Data) (s : State) :
    JudgesOperands (.setd start len io value) (execSetd start len io value s) := by
  refine ⟨_, rfl, .guard (rest := valueFits len value) ?_ (by simp) (.lastGuard ?_ (by simp) ?_)⟩
  · simp [Instr.wellFormed, lenLegal_eq]
  · show fitsLen value len.toNat = _
    cases fitsLen value len.toNat <;> rfl
  · cases h : insertField s (codecGeom start len io) value with
    | ok t => exact .respond _ t
    | error ct => exact .fault _ _ (insertField_error_notMem h)

theorem execGetd_judges (start : BitVec 9) (len : BitVec 7) (io : Layout) (s : State) :
    JudgesOperands (.getd start len io) (execGetd start len io s) := by
  refine ⟨_, rfl, .lastGuard ?_ (by simp) ?_⟩
  · simp [Instr.wellFormed, lenLegal_eq]
  · rcases extractField_cases s (codecGeom start len io) with ⟨_, h⟩ | ⟨_, h⟩ <;> rw [h]
    · exact .respond _ s
    · exact .fault _ s (by simp)

theorem execWrb_judges (idx : BitVec 9) (data : Data) (s : State) :
    JudgesOperands (.wrb idx data) (execWrb idx data s) := by
  refine ⟨_, rfl, .lastGuard (byteLegal_eq data) (by simp) ?_⟩
  rcases memWrite_cases s idx.toNat (data.extractLsb' 0 8) with ⟨_, h⟩ | ⟨_, h⟩ <;> rw [h]
  · exact .respond _ _
  · exact .fault _ s (by simp)

theorem execRdb_judges (idx : BitVec 9) (s : State) : JudgesOperands (.rdb idx) (execRdb idx s) := by
  refine ⟨_, rfl, ?_⟩
  rcases memRead_cases s idx.toNat with ⟨_, h⟩ | ⟨_, h⟩ <;> rw [h]
  · exact .respond _ s
  · exact .fault _ s (by simp)

theorem execRdcr_judges (cr : BitVec 9) (s : State) : JudgesOperands (.rdcr cr) (execRdcr cr s) := by
  refine ⟨_, rfl, ?_⟩
  rw [Instr.wellFormed, crReadable_eq]
  cases selectCtrlReg cr with
  | none => exact .reject _ s (by simp)
  | some r => exact .respond _ s

theorem execWrcr_judges (cr : BitVec 9) (value : Data) (s : State) :
    JudgesOperands (.wrcr cr value) (execWrcr cr value s) := by
  refine ⟨_, rfl, ?_⟩
  show Verdict (crWritable cr value) _
  unfold crWritable selectCtrlReg
  generalize cr.toNat = n
  match n with
  | 0 => exact .lastGuard (blenLegal_eq value) (by simp) (.respond _ _)
  | 1 => exact .lastGuard (decide_lt_eq value (len := 32) rfl) (by simp) (.respond _ _)
  | 2 => exact .respond _ _
  | 3 => exact .reject _ s (by simp)
  | n + 4 => exact .reject _ s (by simp)

theorem execSigdef_judges (slot : BitVec 9) (d : Data) (s : State) :
    JudgesOperands (.sigdef slot d) (execSigdef slot d s) := by
  refine ⟨_, rfl, ?_⟩
  split
  · exact verdict_lookup _ slot s
  exact .guard (geomLegal_eq d) (by simp) (.lastGuard rfl (by simp) (.respond _ _))

theorem execSigwr_judges (fld : BitVec 4) (slot : BitVec 9) (value : Data) (s : State) :
    JudgesOperands (.sigwr fld slot value) (execSigwr fld slot value s) := by
  refine ⟨_, rfl, ?_⟩
  rw [Instr.wellFormed, fldWritable_eq]
  cases hf : writableField fld with
  | none => exact .reject slot s (by simp)
  | some f =>
    rcases lookupSlot_cases s slot with ⟨g, _, _, h⟩ | ⟨_, h⟩ <;> simp only [h]
    · cases hwrite : writeSlotField g value f with
      | ok g' => exact .respond _ _
      | error c => exact .fault slot s (writeSlotField_error_notMem (writableField_notMem hf) hwrite)
    · exact verdict_lookup _ slot s

theorem execSigrd_judges (fld : BitVec 4) (slot : BitVec 9) (s : State) :
    JudgesOperands (.sigrd fld slot) (execSigrd fld slot s) := by
  refine ⟨_, rfl, ?_⟩
  rw [Instr.wellFormed, fldReadable_eq]
  cases selectField fld with
  | none => exact .reject slot s (by simp)
  | some f =>
    rcases lookupSlot_cases s slot with ⟨g, _, _, h⟩ | ⟨_, h⟩ <;> simp only [h]
    · exact .respond _ s
    · exact verdict_lookup _ slot s

theorem execSetv_judges (slot : BitVec 9) (raw : Data) (s : State) :
    JudgesOperands (.setv slot raw) (execSetv slot raw s) := by
  refine ⟨_, rfl, ?_⟩
  rcases lookupSlot_cases s slot with ⟨g, _, _, h⟩ | ⟨_, h⟩ <;> simp only [h]
  · split
    · exact .fault slot s (by simp)
    · cases hstore : storeRaw slot.toNat g raw s with
      | ok t => exact .respond _ t
      | error ct => exact .fault slot _ (storeRaw_error_notMem hstore)
  · exact verdict_lookup _ slot s

theorem execSetp_judges (slot : BitVec 9) (phys : F64) (s : State) :
    JudgesOperands (.setp slot phys) (execSetp slot phys s) := by
  refine ⟨_, rfl, ?_⟩
  rcases lookupSlot_cases s slot with ⟨g, _, _, h⟩ | ⟨_, h⟩ <;> simp only [h]
  · cases hunscale : unscale phys g.factor g.offset g.len.toNat with
    | ok r => exact .respond _ _
    | error c => exact .fault slot s (unscale_error_notMem hunscale)
  · exact verdict_lookup _ slot s

/-- No cell holds a byte above 255 (R113). -/
theorem badByte_eq_none (s : State) : badByte s = none := by
  rw [badByte, List.find?_eq_none]
  intro k _ h
  have hlt := (s.byte k).isLt
  simp only [decide_eq_true_eq] at h
  omega

theorem execChkm_judges (checkData : Bool) (s : State) : JudgesOperands (.chkm checkData) (execChkm checkData s) := by
  refine ⟨_, rfl, ?_⟩
  rw [badByte_eq_none]
  split
  · exact .fault _ s (by simp)
  · cases checkData <;> exact .respond _ s

/-- Every command judges its operands as `Instr.wellFormed` does. -/
theorem exec_judges (i : Instr) (s : State) : JudgesOperands i (exec i s) := by
  cases i with
  | setd start len io value => exact execSetd_judges start len io value s
  | getd start len io => exact execGetd_judges start len io s
  | wrb idx data => exact execWrb_judges idx data s
  | rdb idx => exact execRdb_judges idx s
  | wrcr cr value => exact execWrcr_judges cr value s
  | rdcr cr => exact execRdcr_judges cr s
  | sigdef slot geom => exact execSigdef_judges slot geom s
  | sigwr fld slot value => exact execSigwr_judges fld slot value s
  | sigrd fld slot => exact execSigrd_judges fld slot s
  | setv slot raw => exact execSetv_judges slot raw s
  | setp slot phys => exact execSetp_judges slot phys s
  | upds => exact forAllSlots_judges rfl (fun _ _ _ _ _ h => insertField_error_notMem h) s
  | updr => exact forAllSlots_judges rfl (fun _ _ _ _ _ h => decodeSlot_error_notMem h) s
  | chkm checkData => exact execChkm_judges checkData s
  | rstd => exact forAllSlots_judges rfl (fun _ _ _ _ _ h => storeRaw_error_notMem h) s

/-! ## The response -/

/-- The response with which a pseudocode of the command with opcode byte `op` ends (R61, R133). -/
def Effect.response (op : BitVec 8) : Effect → Response
  | .respond v _ => okResponse v
  | .raise c idx _ => faultResponse op c idx

/-- The one response a command adds is that of the end of its pseudocode. -/
theorem exec_output {i : Instr} {s t : State} {e : Effect} (he : exec i s = complete i.opcode e)
    (ht : exec i s = .next t) : t.output = s.output ++ [e.response i.opcode] := by
  obtain ⟨t', r, ht', _, hanswer⟩ := exec_answers i s
  obtain rfl : t = t' := Host.Outcome.next.inj (ht.symm.trans ht')
  have hend : t.output = e.state.output ++ [e.response i.opcode] := by
    cases e <;> cases he.symm.trans ht <;> rfl
  obtain ⟨houtput, _⟩ := List.append_inj' (hanswer.symm.trans hend) rfl
  rw [hend, houtput]

theorem Cause.code_injective {c c' : Cause} (h : c.code = c'.code) : c = c' := by
  cases c <;> cases c' <;> simp [Cause.code] at h ⊢

/-- Settles O59: the response of the command is that of a pseudocode that judges its operands. -/
theorem legalOperandsNeverRejected : Obligations.LegalOperandsNeverRejected := by
  intro i s t ht
  obtain ⟨e, he, hverdict⟩ := exec_judges i s
  have houtput := exec_output he ht
  generalize i.wellFormed = legal at hverdict
  cases hverdict with
  | respond v u =>
    refine ⟨fun _ c idx h => ?_, fun h => nomatch h⟩
    have hresponse := List.append_cancel_left (houtput.symm.trans h)
    simp [Effect.response, okResponse, faultResponse] at hresponse
  | fault idx u hc =>
    refine ⟨fun _ c idx h => ?_, fun h => nomatch h⟩
    have hresponse := List.singleton_inj.mp (List.append_cancel_left (houtput.symm.trans h))
    obtain rfl := Cause.code_injective (congrArg Response.cause hresponse)
    simpa using hc
  | reject idx u hc => exact ⟨fun h => (nomatch h), fun _ => ⟨_, idx, houtput, by simpa using hc⟩⟩

end Sys2Proof.Machine
end

section
/-!
PROOFS. The other outcomes of the codec commands: what `SETD` and `GETD` refuse (R81, R82), what a field that does not fit
leaves behind (R86), that `GETD` reads back what `SETD` wrote (R83), and that inserts at disjoint places commute (R84).
-/

namespace Sys2Proof.Machine

/-! ## The cells after an insert -/

theorem insertField_of_misfit {s : State} {g : Geom} (h : g.fits s.blen.toNat = false) (v : BitVec 64) :
    insertField s g v = .error (.index, (s.setBuf (insertCells s.buf g v (faultedWrites s))).nextDraw) :=
  if_neg (Bool.eq_false_iff.mp h)

/-- Whichever bytes an insert writes, each byte is the old one or the one of the whole insert (R86). -/
theorem insertCells_old_or_new (m : List Host.Cell) (g : Geom) (v : BitVec 64) (writes : Nat → Bool) (k : Nat) :
    memByte (insertCells m g v writes) k = memByte m k ∨
      memByte (insertCells m g v writes) k = g.splice v k (memByte m k) := by
  rw [memByte_insertCells]
  split
  · exact .inr rfl
  · exact .inl rfl

/-- A faulting insert changes only span bytes below `BLEN` (R86). -/
theorem insertCells_faulted_unchanged (m : List Host.Cell) {s : State} {g : Geom} (v : BitVec 64) {k : Nat}
    (h : k ∉ g.span ∨ s.blen.toNat ≤ k) : memByte (insertCells m g v (faultedWrites s)) k = memByte m k := by
  rw [memByte_insertCells, if_neg]
  rintro ⟨hspan, hwrites⟩
  exact h.elim (· hspan) (Nat.not_le.mpr (faultedWrites_lt s k hwrites))

/-- A bit that the one field covers and the other does not is that field's bit, whichever insert comes first. -/
theorem insertCells_comm_getLsbD (m : List Host.Cell) {g h : Geom} (v w : BitVec 64) {k j : Nat} (hg : g.covers k j)
    (hh : ¬ h.covers k j) :
    (memByte (insertCells (insertCells m g v (fun _ => true)) h w (fun _ => true)) k).getLsbD j =
      (memByte (insertCells (insertCells m h w (fun _ => true)) g v (fun _ => true)) k).getLsbD j := by
  obtain ⟨i, hi, hpos⟩ := hg
  have hbit (n : List Host.Cell) : (memByte (insertCells n g v (fun _ => true)) k).getLsbD j = v.getLsbD i := by
    simpa only [hpos] using insertCells_covered n g v hi
  rw [insertCells_uncovered _ w hh, hbit, hbit]

/-- Inserts into fields that share no place commute (R84). -/
theorem insertCells_comm {m : List Host.Cell} (hm : Memory.wf m) {g h : Geom} (hdisjoint : g.disjoint h)
    (v w : BitVec 64) :
    insertCells (insertCells m g v (fun _ => true)) h w (fun _ => true) =
      insertCells (insertCells m h w (fun _ => true)) g v (fun _ => true) := by
  refine memory_ext _ _ (insertCells_wf _ h w _ (insertCells_wf m g v _ hm))
    (insertCells_wf _ g v _ (insertCells_wf m h w _ hm)) fun k => BitVec.eq_of_getLsbD_eq fun j _ => ?_
  by_cases hg : g.covers k j
  · exact insertCells_comm_getLsbD m v w hg fun hh => hdisjoint k j ⟨hg, hh⟩
  by_cases hh : h.covers k j
  · exact (insertCells_comm_getLsbD m w v hh hg).symm
  · rw [insertCells_uncovered _ w hh, insertCells_uncovered _ v hg, insertCells_uncovered _ v hg,
      insertCells_uncovered _ w hh]

/-- A value that fits the field is gathered back from the cells it was inserted into (R83). -/
theorem gather_insertCells (m : List Host.Cell) {g : Geom} {v : BitVec 64} (hv : v.toNat ≤ 2 ^ g.len - 1) :
    g.gather (memByte (insertCells m g v (fun _ => true))) = v := by
  apply BitVec.eq_of_getLsbD_eq
  intro i hi64
  rw [g.gather_getLsbD]
  by_cases hi : i < g.len
  · rw [insertCells_covered m g v hi]
    simp [hi, hi64]
  · have hpos : 0 < 2 ^ g.len := Nat.two_pow_pos _
    have hpow : 2 ^ g.len ≤ 2 ^ i := Nat.pow_le_pow_right (by decide) (Nat.not_lt.mp hi)
    have hzero : v.getLsbD i = false := by rw [← BitVec.testBit_toNat, Nat.testBit_lt_two_pow (by omega)]
    simp [hi, hzero]

/-! ## SETD -/

theorem badLen_eq_true {len : BitVec 7} (h : len.toNat = 0 ∨ 64 < len.toNat) : badLen len = true := decide_eq_true h

theorem badLen_eq_false {len : BitVec 7} (hpos : 1 ≤ len.toNat) (hmax : len.toNat ≤ 64) : badLen len = false :=
  decide_eq_false (by omega)

theorem fitsLen_eq_false {v : BitVec 64} {len : Nat} (h : 2 ^ len - 1 < v.toNat) : fitsLen v len = false :=
  decide_eq_false (Nat.not_le.mpr h)

/-- `SETD` of legal operands into a field that does not fit ends with the `IndexFault` of the insert. -/
theorem execSetd_of_misfit {s : State} {start : BitVec 9} {len : BitVec 7} {io : Layout} {value : Data}
    (hpos : 1 ≤ len.toNat) (hmax : len.toNat ≤ 64) (hvalue : value.toNat ≤ 2 ^ len.toNat - 1)
    (hmisfit : (codecGeom start len io).fits s.blen.toNat = false) :
    execSetd start len io value s =
      .next ((s.setBuf (insertCells s.buf (codecGeom start len io) value (faultedWrites s))).nextDraw.takeFault
        opSetd .index 0#9) := by
  have hvalue : fitsLen value len.toNat = true := decide_eq_true hvalue
  simp only [execSetd, badLen_eq_false hpos hmax, hvalue, insertField_of_misfit hmisfit, Bool.not_true,
    Bool.false_eq_true, if_false, complete_raise]

/-- The state a successful `SETD` of value `v` into field `g` leaves. -/
def State.afterSetd (s : State) (g : Geom) (v : Data) : State :=
  (s.setBuf (insertCells s.buf g v (fun _ => true))).emit (okResponse 0#64)

@[simp] theorem State.afterSetd_blen (s : State) (g : Geom) (v : Data) : (s.afterSetd g v).blen = s.blen := rfl

@[simp] theorem State.afterSetd_byte (s : State) (g : Geom) (v : Data) :
    (s.afterSetd g v).byte = memByte (insertCells s.buf g v (fun _ => true)) := rfl

/-- `SETD` in a state that is the `BLEN` of `s` long; the field is known to fit in `s`. -/
theorem exec_setd_afterSetd {s t : State} (hblen : t.blen = s.blen) {start : BitVec 9} {len : BitVec 7} {io : Layout}
    {value : Data} (hpos : 1 ≤ len.toNat) (hmax : len.toNat ≤ 64) (hvalue : value.toNat ≤ 2 ^ len.toNat - 1)
    (hfits : (codecGeom start len io).fits s.blen.toNat = true) :
    exec (.setd start len io value) t = .next (t.afterSetd (codecGeom start len io) value) :=
  execSetd_of_fits hpos hmax hvalue (hblen ▸ hfits)

theorem State.afterSetd_comm {s : State} (hwf : Memory.wf s.buf) {g h : Geom} (hdisjoint : g.disjoint h) (v w : Data) :
    (s.afterSetd g v).afterSetd h w = (s.afterSetd h w).afterSetd g v :=
  congrArg (fun m => ((s.emit (okResponse 0#64)).setBuf m).emit (okResponse 0#64)) (insertCells_comm hwf hdisjoint v w)

/-- Settles O21: both orders end in the same cells, with the same two responses. -/
theorem disjointSetdCommute : Obligations.DisjointSetdCommute := by
  intro s a b la lb ioa iob va vb hwf hlaPos hlaMax hlbPos hlbMax hva hvb hfitsA hfitsB hdisjoint
  have setdA {t : State} (ht : t.blen = s.blen) := exec_setd_afterSetd ht hlaPos hlaMax hva hfitsA
  have setdB {t : State} (ht : t.blen = s.blen) := exec_setd_afterSetd ht hlbPos hlbMax hvb hfitsB
  refine ⟨_, _, _, setdA rfl, setdB (s.afterSetd_blen _ va), setdB rfl, ?_⟩
  rw [setdA (s.afterSetd_blen _ vb), State.afterSetd_comm hwf hdisjoint]

/-- Settles O22: the two guards at the head of the command, the length before the value. -/
theorem setdRefusesIllegalOperands : Obligations.SetdRefusesIllegalOperands := by
  intro s start len io value hillegal
  cases hlen : badLen len with
  | true => simp only [exec, execSetd, hlen, if_true, complete_raise]
  | false =>
    have hwide : 2 ^ len.toNat - 1 < value.toNat := by
      have := of_decide_eq_false hlen
      omega
    simp only [exec, execSetd, hlen, fitsLen_eq_false hwide, Bool.not_false, Bool.false_eq_true, if_false, if_true,
      complete_raise]

/-- Settles O23. -/
theorem setdIndexFaultLeavesOldOrNew : Obligations.SetdIndexFaultLeavesOldOrNew := by
  intro s start len io value hpos hmax hvalue hmisfit
  exact ⟨_, execSetd_of_misfit hpos hmax hvalue hmisfit, rfl, fun k _ _ => insertCells_old_or_new s.buf _ value _ k,
    fun k h => insertCells_faulted_unchanged s.buf value h⟩

/-! ## GETD -/

/-- `GETD` of a field that fits answers with its value. -/
theorem execGetd_of_fits {s : State} {start : BitVec 9} {len : BitVec 7} {io : Layout} (hpos : 1 ≤ len.toNat)
    (hmax : len.toNat ≤ 64) (hfits : (codecGeom start len io).fits s.blen.toNat = true) :
    execGetd start len io s = .next (s.emit (okResponse ((codecGeom start len io).gather s.byte))) := by
  simp only [execGetd, badLen_eq_false hpos hmax, extractField, hfits, Bool.false_eq_true, if_false, if_true,
    complete_respond]

/-- `GETD` of a field that does not fit ends with the `IndexFault` of the extract. -/
theorem execGetd_of_misfit {s : State} {start : BitVec 9} {len : BitVec 7} {io : Layout} (hpos : 1 ≤ len.toNat)
    (hmax : len.toNat ≤ 64) (hmisfit : (codecGeom start len io).fits s.blen.toNat = false) :
    execGetd start len io s = .next (s.takeFault opGetd .index 0#9) := by
  simp only [execGetd, badLen_eq_false hpos hmax, extractField, hmisfit, Bool.false_eq_true, if_false, complete_raise]

/-- Settles O24: the guard of the length, then the two ends of the extract. -/
theorem getdReadsTheField : Obligations.GetdReadsTheField := by
  intro s start len io
  refine ⟨fun hlen => ?_, fun hpos hmax hfits => ⟨_, execGetd_of_fits hpos hmax hfits, fun i => ?_⟩,
    execGetd_of_misfit⟩
  · simp only [exec, execGetd, badLen_eq_true hlen, if_true, complete_raise]
  · have hwidth : i < len.toNat ∧ i < 64 ↔ i < len.toNat := by omega
    rw [Geom.gather_getLsbD]
    simp only [codecGeom, hwidth]

/-- Settles O25: the value is gathered back from the cells `SETD` leaves, at the same `BLEN`. -/
theorem setdGetdRoundTrip : Obligations.SetdGetdRoundTrip := by
  intro s start len io value hpos hmax hvalue hfits
  refine ⟨_, exec_setd_afterSetd rfl hpos hmax hvalue hfits, ?_⟩
  rw [exec, execGetd_of_fits hpos hmax (by rwa [State.afterSetd_blen]), State.afterSetd_byte,
    gather_insertCells s.buf hvalue]
  rfl

end Sys2Proof.Machine
end

section
/-!
PROOFS. An iteration over the valid slots that faults (R110), and with it `UPDS` when a slot does not fit (R86, R111).
-/

namespace Sys2Proof.Machine

/-- An iteration whose slots below `n` succeed and whose slot `n` faults ends there, with the number of that slot. -/
theorem forAllSlots_raise {body : Nat → Slot → State → Except (Cause × State) State} {n : Nat} {s t u : State} {g : Slot}
    {c : Cause} (hlt : n < s.nsig) (hbelow : forValidSlots body (List.range n) s = .respond 0#64 t)
    (hn : t.validSlot n = some g) (hbody : body n g t = .error (c, u)) :
    forAllSlots body s = .raise c (BitVec.ofNat 9 n) u := by
  obtain ⟨d, hd⟩ : ∃ d, s.nsig = n + (d + 1) := ⟨s.nsig - n - 1, by omega⟩
  rw [forAllSlots, hd, List.range_add, List.range_succ_eq_map, List.map_cons, forValidSlots_append, hbelow]
  simp only [forValidSlots, Nat.add_zero, hn, hbody]

/-- What is said of every valid slot before place `n` of the table is said of every valid slot below `n`. -/
theorem forall_validSlot_of_take {s : State} {n : Nat} {P : Slot → Prop} (h : ∀ g ∈ s.sig.take n, g.valid = true → P g)
    {k : Nat} {g : Slot} (hlt : k < n) (hk : s.validSlot k = some g) : P g := by
  obtain ⟨hg, hvalid⟩ := (validSlot_eq_some s k g).mp hk
  exact h g (List.mem_of_getElem? ((List.getElem?_take_of_lt hlt).trans hg)) hvalid

/-- Settles O45: the slots below `n` are inserted, and the insert of slot `n` faults in the state they leave. -/
theorem updsStopsAtFirstMisfit : Obligations.UpdsStopsAtFirstMisfit := by
  intro s n g _ hg hvalid hmisfit hfits
  have hlt : n < s.nsig := (List.getElem?_eq_some_iff.mp hg).1
  have hbelow : forValidSlots encodeSlot (List.range n) s = .respond 0#64 (s.setBuf (encodedCells s n)) :=
    forValidSlots_encodeSlot fun _ _ => forall_validSlot_of_take hfits
  have hinsert := insertField_of_misfit (s := s.setBuf (encodedCells s n)) hmisfit g.raw
  have hupds := forAllSlots_raise hlt hbelow (validSlot_of_getElem? hg hvalid) hinsert
  exact ⟨_, _, hbelow, congrArg (complete opUpds) hupds, rfl,
    fun k _ _ => insertCells_old_or_new (encodedCells s n) g.geom g.raw _ k,
    fun k h => insertCells_faulted_unchanged (encodedCells s n) g.raw h⟩

end Sys2Proof.Machine
end

section
/-!
PROOFS. Rounding (R90): `rne` gives the nearest `f64`, and is exact on the rationals that are one. Magnitudes are counted
in units of 2^-1074, in which every finite value is a whole number.
-/

namespace Sys2Proof.Machine

/-! ## The quotient rounded to a natural number -/

/-- The rounded quotient is at most a half away, and even where it is just a half away. -/
theorem abs_roundHalfEven_sub_le (n : Nat) {d : Nat} (hd : 0 < d) :
    |(roundHalfEven n d : ℚ) - n / d| ≤ 1 / 2 ∧
      (|(roundHalfEven n d : ℚ) - n / d| = 1 / 2 → roundHalfEven n d % 2 = 0) := by
  have hdq : (0 : ℚ) < d := by exact_mod_cast hd
  have hquot : (n : ℚ) / d = (n / d : Nat) + (n % d : Nat) / d := by
    rw [div_eq_iff hdq.ne', add_mul, div_mul_cancel₀ _ hdq.ne']
    exact_mod_cast (Nat.div_add_mod' n d).symm
  have hnonneg : (0 : ℚ) ≤ (n % d : Nat) / d := by positivity
  have hlt : ((n % d : Nat) : ℚ) / d < 1 := (div_lt_one hdq).mpr (by exact_mod_cast Nat.mod_lt n hd)
  have hle : ((n % d : Nat) : ℚ) / d ≤ 1 / 2 ↔ 2 * (n % d) ≤ d := by
    rw [div_le_div_iff₀ hdq two_pos, mul_comm, one_mul]
    exact_mod_cast Iff.rfl
  have hge : 1 / 2 ≤ ((n % d : Nat) : ℚ) / d ↔ d ≤ 2 * (n % d) := by
    rw [div_le_div_iff₀ two_pos hdq, mul_comm _ (2 : ℚ), one_mul]
    exact_mod_cast Iff.rfl
  rw [hquot]
  generalize ((n % d : Nat) : ℚ) / d = f at *
  unfold roundHalfEven
  split
  next hup =>
    have hf := hge.mpr (by omega)
    have habs : |((n / d + 1 : Nat) : ℚ) - ((n / d : Nat) + f)| = 1 - f := by
      rw [abs_of_nonneg] <;> push_cast <;> linarith
    rw [habs]
    refine ⟨by linarith, fun htie => ?_⟩
    have := hle.mp (by linarith)
    omega
  next hdown =>
    have hf := hle.mpr (by omega)
    have habs : |((n / d : Nat) : ℚ) - ((n / d : Nat) + f)| = f := by
      rw [sub_add_cancel_left, abs_neg, abs_of_nonneg hnonneg]
    rw [habs]
    refine ⟨hf, fun htie => ?_⟩
    have := hge.mp htie.ge
    omega

/-- No integer is nearer than the rounded quotient, and it is even where another is equally near. -/
theorem roundHalfEven_nearest (n : Nat) {d : Nat} (hd : 0 < d) (k : ℤ) :
    |(roundHalfEven n d : ℚ) - n / d| ≤ |(k : ℚ) - n / d| ∧
      (|(k : ℚ) - n / d| = |(roundHalfEven n d : ℚ) - n / d| → k ≠ roundHalfEven n d → roundHalfEven n d % 2 = 0) := by
  obtain ⟨hhalf, htie⟩ := abs_roundHalfEven_sub_le n hd
  by_cases hk : k = roundHalfEven n d
  · subst hk
    exact ⟨le_refl _, fun _ hne => absurd rfl hne⟩
  · have hapart : (1 : ℚ) ≤ |(k : ℚ) - roundHalfEven n d| := by
      exact_mod_cast Int.one_le_abs (sub_ne_zero.mpr hk)
    have htriangle := abs_sub_le (k : ℚ) (n / d) (roundHalfEven n d)
    rw [abs_sub_comm (n / d : ℚ)] at htriangle
    exact ⟨by linarith, fun heq _ => htie (by linarith)⟩

theorem le_roundHalfEven {n d k : Nat} (hd : 0 < d) (h : k * d ≤ n) : k ≤ roundHalfEven n d := by
  have hdiv : k ≤ n / d := (Nat.le_div_iff_mul_le hd).mpr h
  unfold roundHalfEven
  split <;> omega

/-- The quotients rounded below an even number are those nearer to its predecessor. -/
theorem roundHalfEven_lt_iff (n : Nat) {d k : Nat} (hd : 0 < d) (heven : k % 2 = 0) :
    roundHalfEven n d < k ↔ (n : ℚ) / d < k - 1 / 2 := by
  obtain ⟨hhalf, htie⟩ := abs_roundHalfEven_sub_le n hd
  have hle := abs_le.mp hhalf
  constructor
  · intro hlt
    have hpred : (roundHalfEven n d : ℚ) + 1 ≤ k := by exact_mod_cast hlt
    refine lt_of_le_of_ne (by linarith) fun heq => ?_
    have hdist : |(roundHalfEven n d : ℚ) - n / d| = 1 / 2 := by
      rw [abs_of_nonpos] <;> linarith
    have hsucc : roundHalfEven n d + 1 = k := by
      have : (roundHalfEven n d : ℚ) + 1 = k := by linarith
      exact_mod_cast this
    have := htie hdist
    omega
  · intro hlt
    have : (roundHalfEven n d : ℚ) < k := by linarith
    exact_mod_cast this

/-! ## The value of a pattern in units of 2^-1074 -/

/-- The units of a pattern without its sign: exponent field `p / 2^52`, fraction field `p % 2^52` (R18). -/
def patternUnits (p : Nat) : Nat :=
  (if p / 2 ^ 52 = 0 then p % 2 ^ 52 else p % 2 ^ 52 + 2 ^ 52) * 2 ^ (max (p / 2 ^ 52) 1 - 1)

/-- The units of a value, with its sign. -/
def F64.units (x : F64) : ℤ := (if x.msb then -1 else 1) * patternUnits (x.toNat % 2 ^ 63)

theorem F64.natAbs_units (x : F64) : (F64.units x).natAbs = patternUnits (x.toNat % 2 ^ 63) := by
  unfold F64.units
  split <;> simp

/-- Units are what `F64.real` counts (R18, R90). -/
theorem F64.real_mul_units (x : F64) : F64.real x * 2 ^ 1074 = F64.units x := by
  have hexp : F64.expField x = x.toNat % 2 ^ 63 / 2 ^ 52 := by
    rw [F64.expField, BitVec.extractLsb'_toNat, Nat.shiftRight_eq_div_pow]
    omega
  have hfrac : F64.fracField x = x.toNat % 2 ^ 63 % 2 ^ 52 := by
    rw [F64.fracField, BitVec.extractLsb'_toNat, Nat.shiftRight_eq_div_pow]
    omega
  unfold F64.real
  rw [Rat.mkRat_eq_div, Nat.cast_pow, Nat.cast_ofNat, div_mul_cancel₀ _ (by positivity), F64.units, patternUnits, hexp,
    hfrac]
  split <;> simp only [neg_mul, one_mul, Nat.cast_mul, Nat.cast_pow, Nat.cast_ofNat]

/-- A pattern's units are a whole number of 2^t, or fewer than any value of 53 bits in steps of 2^t. -/
theorem dvd_patternUnits_or_lt (p t : Nat) : 2 ^ t ∣ patternUnits p ∨ patternUnits p < 2 ^ (52 + t) := by
  have hfrac : p % 2 ^ 52 < 2 ^ 52 := Nat.mod_lt _ (Nat.two_pow_pos _)
  unfold patternUnits
  rcases Nat.lt_or_ge (max (p / 2 ^ 52) 1 - 1) t with hlt | hge
  · right
    split
    next hzero =>
      rw [hzero, pow_add]
      exact Nat.mul_lt_mul_of_lt_of_le hfrac (Nat.pow_le_pow_right two_pos (Nat.zero_le t)) (Nat.two_pow_pos _)
    next =>
      obtain ⟨a, rfl⟩ : ∃ a, t = max (p / 2 ^ 52) 1 - 1 + 1 + a := ⟨t - (max (p / 2 ^ 52) 1 - 1) - 1, by omega⟩
      generalize max (p / 2 ^ 52) 1 - 1 = b
      calc (p % 2 ^ 52 + 2 ^ 52) * 2 ^ b
          < 2 ^ 53 * 2 ^ b := Nat.mul_lt_mul_of_pos_right (by omega) (Nat.two_pow_pos b)
        _ = 2 ^ (53 + b) := (pow_add ..).symm
        _ ≤ 2 ^ (52 + (b + 1 + a)) := Nat.pow_le_pow_right two_pos (by omega)
  · exact .inl (Dvd.dvd.mul_left (pow_dvd_pow 2 hge) _)

/-- The pattern of `q * 2^t` units, for a `q` of 53 bits, fewer bits of a subnormal, or just carried into the next
exponent. -/
theorem patternUnits_add {t q : Nat} (hmax : q ≤ 2 ^ 53) (hmin : t = 0 ∨ 2 ^ 52 ≤ q) :
    patternUnits (t * 2 ^ 52 + q) = q * 2 ^ t := by
  unfold patternUnits
  rcases Nat.lt_or_ge q (2 ^ 52) with hsub | hnormal
  · obtain rfl : t = 0 := by omega
    rw [zero_mul, zero_add, Nat.div_eq_of_lt hsub, Nat.mod_eq_of_lt hsub, if_pos rfl]
    rfl
  rcases hmax.lt_or_eq with hlt | rfl
  · have hexp : (t * 2 ^ 52 + q) / 2 ^ 52 = t + 1 := by omega
    have hfrac : (t * 2 ^ 52 + q) % 2 ^ 52 = q - 2 ^ 52 := by omega
    rw [hexp, hfrac, if_neg (by omega), Nat.sub_add_cancel hnormal, max_eq_left (by omega), Nat.add_sub_cancel]
  · have hexp : (t * 2 ^ 52 + 2 ^ 53) / 2 ^ 52 = t + 2 := by omega
    have hfrac : (t * 2 ^ 52 + 2 ^ 53) % 2 ^ 52 = 0 := by omega
    rw [hexp, hfrac, if_neg (by omega), max_eq_left (by omega), zero_add, ← pow_add, ← pow_add,
      show 52 + (t + 2 - 1) = 53 + t by omega]

/-! ## The rounded magnitude -/

/-- The step of the rounding, as an exponent: the least that leaves at most 53 bits of `n / d` units (R90). -/
def roundShift (n d : Nat) : Nat := Nat.log2 (n / d) - 52

/-- The number of steps `n / d` units are rounded to (R90). -/
def roundSteps (n d : Nat) : Nat := roundHalfEven n (d * 2 ^ roundShift n d)

/-- The pattern of the rounded magnitude, not yet cut off at the infinity (R90). -/
def roundPattern (n d : Nat) : Nat := roundShift n d * 2 ^ 52 + roundSteps n d

section
variable {n d : Nat}

theorem lt_of_roundShift (hd : 0 < d) : n < 2 ^ (53 + roundShift n d) * d := by
  rw [← Nat.div_lt_iff_lt_mul hd]
  exact Nat.lt_log2_self.trans_le (Nat.pow_le_pow_right two_pos (by unfold roundShift; omega))

theorem le_of_roundShift (hd : 0 < d) (h : roundShift n d ≠ 0) : 2 ^ (52 + roundShift n d) * d ≤ n := by
  have hlog : 52 + roundShift n d = Nat.log2 (n / d) := by
    unfold roundShift at h ⊢
    omega
  have hne : n / d ≠ 0 := by
    intro hzero
    simp [roundShift, hzero] at h
  rw [← Nat.le_div_iff_mul_le hd, hlog]
  exact Nat.log2_self_le hne

theorem roundSteps_le (hd : 0 < d) : roundSteps n d ≤ 2 ^ 53 := by
  refine roundHalfEven_le (by positivity) ?_
  calc n ≤ 2 ^ (53 + roundShift n d) * d := (lt_of_roundShift hd).le
    _ = 2 ^ 53 * (d * 2 ^ roundShift n d) := by ring

theorem le_roundSteps (hd : 0 < d) : roundShift n d = 0 ∨ 2 ^ 52 ≤ roundSteps n d := by
  refine or_iff_not_imp_left.mpr fun h => le_roundHalfEven (by positivity) ?_
  calc 2 ^ 52 * (d * 2 ^ roundShift n d) = 2 ^ (52 + roundShift n d) * d := by ring
    _ ≤ n := le_of_roundShift hd h

theorem patternUnits_roundPattern (hd : 0 < d) :
    patternUnits (roundPattern n d) = roundSteps n d * 2 ^ roundShift n d :=
  patternUnits_add (roundSteps_le hd) (le_roundSteps hd)

/-- The rounded magnitude is as near as any number of units that a pattern can have, of either sign. -/
theorem roundSteps_nearest (hd : 0 < d) {c : ℤ}
    (hc : (2 : ℤ) ^ roundShift n d ∣ c ∨ c < 2 ^ (52 + roundShift n d)) :
    |(roundSteps n d : ℚ) * 2 ^ roundShift n d - n / d| ≤ |(c : ℚ) - n / d| ∧
      (|(c : ℚ) - n / d| = |(roundSteps n d : ℚ) * 2 ^ roundShift n d - n / d| →
        (c : ℚ) ≠ roundSteps n d * 2 ^ roundShift n d → roundSteps n d % 2 = 0) := by
  have hstep : (0 : ℚ) < 2 ^ roundShift n d := by positivity
  have hscale (k : ℚ) : |k * 2 ^ roundShift n d - n / d| =
      |k - n / (d * 2 ^ roundShift n d : Nat)| * 2 ^ roundShift n d := by
    rw [← abs_of_pos hstep, ← abs_mul, abs_of_pos hstep, sub_mul, Nat.cast_mul, Nat.cast_pow, Nat.cast_ofNat,
      ← div_div, div_mul_cancel₀ _ hstep.ne']
  have hmultiple (k : ℤ) := roundHalfEven_nearest n (d := d * 2 ^ roundShift n d) (by positivity) k
  rw [hscale]
  by_cases hdvd : (2 : ℤ) ^ roundShift n d ∣ c
  · obtain ⟨k, rfl⟩ := hdvd
    obtain ⟨hnear, htie⟩ := hmultiple k
    rw [Int.cast_mul, Int.cast_pow, Int.cast_ofNat, mul_comm _ (k : ℚ), hscale]
    refine ⟨mul_le_mul_of_nonneg_right hnear hstep.le, fun heq hne => ?_⟩
    refine htie (mul_right_cancel₀ hstep.ne' heq) fun hk => hne ?_
    rw [hk, Int.cast_natCast]
    rfl
  · have hlow := hc.resolve_left hdvd
    have hshift : roundShift n d ≠ 0 := fun hzero => hdvd (by simp [hzero])
    have hquot : (2 : ℚ) ^ 52 * 2 ^ roundShift n d ≤ n / d := by
      rw [le_div_iff₀ (by exact_mod_cast hd), ← pow_add]
      exact_mod_cast le_of_roundShift hd hshift
    have hlowq : (c : ℚ) < 2 ^ 52 * 2 ^ roundShift n d := by
      rw [← pow_add]
      exact_mod_cast hlow
    have hnear := mul_le_mul_of_nonneg_right (hmultiple (2 ^ 52)).1 hstep.le
    have hstrict : |((2 ^ 52 : ℤ) : ℚ) - n / (d * 2 ^ roundShift n d : Nat)| * 2 ^ roundShift n d < |(c : ℚ) - n / d| := by
      rw [← hscale, abs_of_nonpos, abs_of_nonpos] <;> push_cast <;> linarith
    exact ⟨hnear.trans hstrict.le, fun heq => absurd heq (hnear.trans_lt hstrict).ne'⟩

/-- The rounded magnitude passes the largest finite one exactly if it is at least half a step above it (R90). -/
theorem roundPattern_lt_infPattern_iff (hd : 0 < d) :
    roundPattern n d < infPattern ↔ (n : ℚ) / d < (2 ^ 53 - 1 / 2) * 2 ^ 2045 := by
  have hdq : (0 : ℚ) < d := by exact_mod_cast hd
  have hmax := roundSteps_le (n := n) hd
  have hmin := le_roundSteps (n := n) hd
  rcases lt_trichotomy (roundShift n d) 2045 with hlt | heq | hgt
  · have hpattern : roundPattern n d < infPattern := by
      unfold roundPattern infPattern
      omega
    have hquot : (n : ℚ) / d < 2 ^ 53 * 2 ^ roundShift n d := by
      rw [div_lt_iff₀ hdq, ← pow_add]
      exact_mod_cast lt_of_roundShift hd
    have hstep : (2 : ℚ) ^ roundShift n d ≤ 2 ^ 2044 := pow_le_pow_right₀ one_le_two (by omega)
    have hpos : (0 : ℚ) < 2 ^ 2044 := by positivity
    refine iff_of_true hpattern ?_
    rw [pow_succ' 2 2044]
    generalize (2 : ℚ) ^ roundShift n d = a, (2 : ℚ) ^ 2044 = b at *
    linarith
  · have hpattern : roundPattern n d < infPattern ↔ roundSteps n d < 2 ^ 53 := by
      unfold roundPattern infPattern
      omega
    rw [hpattern, roundSteps, roundHalfEven_lt_iff n (by positivity) (by decide), heq, Nat.cast_mul, Nat.cast_pow,
      ← div_div, div_lt_iff₀ (by positivity)]
    norm_num
  · have hpattern : infPattern ≤ roundPattern n d := by
      unfold roundPattern infPattern
      omega
    have hquot : (2 : ℚ) ^ 52 * 2 ^ roundShift n d ≤ n / d := by
      rw [le_div_iff₀ hdq, ← pow_add]
      exact_mod_cast le_of_roundShift hd (by omega)
    have hstep : (2 : ℚ) * 2 ^ 2045 ≤ 2 ^ roundShift n d := by
      rw [← pow_succ']
      exact pow_le_pow_right₀ one_le_two (by omega)
    refine iff_of_false hpattern.not_gt (not_lt.mpr ?_)
    have hpos : (0 : ℚ) < 2 ^ 2045 := by positivity
    generalize (2 : ℚ) ^ roundShift n d = a, (2 : ℚ) ^ 2045 = b at *
    linarith

end

/-- The overflow threshold in units. -/
theorem overflow_units : ((2 : ℚ) ^ 1024 - 2 ^ 970) * 2 ^ 1074 = (2 ^ 53 - 1 / 2) * 2 ^ 2045 := by
  have hhigh : (2 : ℚ) ^ 1024 = 2 ^ 54 * 2 ^ 970 := by rw [← pow_add]
  have hstep : (2 : ℚ) ^ 2045 = 2 * 2 ^ 970 * 2 ^ 1074 := by rw [← pow_succ', ← pow_add]
  rw [hhigh, hstep]
  generalize (2 : ℚ) ^ 970 = a, (2 : ℚ) ^ 1074 = b
  ring

/-! ## The rounded rational -/

/-- The magnitude of a rational in units, as the numerator over `r.den`. -/
def unitNum (r : ℚ) : Nat := r.num.natAbs * 2 ^ 1074

/-- The sign a rational is rounded with (R90). -/
def roundSign (r : ℚ) : ℤ := if r < 0 then -1 else 1

theorem rne_eq (r : ℚ) :
    rne r = BitVec.ofNat 64 (if r < 0 then 2 ^ 63 + min (roundPattern (unitNum r) r.den) infPattern
      else min (roundPattern (unitNum r) r.den) infPattern) := by
  unfold rne
  rfl

theorem natAbs_roundSign (r : ℚ) : (roundSign r).natAbs = 1 := by
  unfold roundSign
  split <;> rfl

theorem abs_roundSign (r : ℚ) : |(roundSign r : ℚ)| = 1 := by
  unfold roundSign
  split <;> simp

theorem roundSign_mul_self (r : ℚ) : (roundSign r : ℚ) * roundSign r = 1 := by
  unfold roundSign
  split <;> norm_num

theorem unitNum_div_den (r : ℚ) : (unitNum r : ℚ) / r.den = |r| * 2 ^ 1074 := by
  have habs : |r| = (r.num.natAbs : ℚ) / r.den := by
    rw [Nat.cast_natAbs, Int.cast_abs]
    conv_lhs => rw [← Rat.num_div_den r]
    rw [abs_div, Nat.abs_cast]
  rw [habs, unitNum, Nat.cast_mul, Nat.cast_pow, Nat.cast_ofNat, div_mul_eq_mul_div]

theorem roundSign_mul_abs (r : ℚ) : (roundSign r : ℚ) * |r| = r := by
  unfold roundSign
  split
  next h => rw [abs_of_neg h]; push_cast; ring
  next h => rw [abs_of_nonneg (not_lt.mp h)]; push_cast; ring

/-- A distance between values is one between numbers of units, both taken with the sign of the rounded rational. -/
theorem abs_real_sub_mul (y : F64) (r : ℚ) :
    |F64.real y - r| * 2 ^ 1074 = |((roundSign r * F64.units y : ℤ) : ℚ) - unitNum r / r.den| := by
  calc |F64.real y - r| * 2 ^ 1074
      = |F64.real y * 2 ^ 1074 - roundSign r * (|r| * 2 ^ 1074)| := by
        rw [← mul_assoc, roundSign_mul_abs, ← sub_mul, abs_mul, abs_of_pos (a := (2 : ℚ) ^ 1074) (by positivity)]
    _ = |(roundSign r : ℚ) * (F64.units y - roundSign r * (unitNum r / r.den))| := by
        rw [abs_mul, abs_roundSign, one_mul, F64.real_mul_units, unitNum_div_den]
    _ = |((roundSign r * F64.units y : ℤ) : ℚ) - unitNum r / r.den| := by
        rw [mul_sub, ← mul_assoc, roundSign_mul_self, one_mul, Int.cast_mul]

/-- The pattern of a rounded magnitude with a sign: the units of both. -/
theorem units_ofNat {p : Nat} (hp : p < 2 ^ 63) (negative : Prop) [Decidable negative] :
    F64.units (BitVec.ofNat 64 (if negative then 2 ^ 63 + p else p)) =
      (if negative then -1 else 1) * patternUnits p := by
  have hmag : (BitVec.ofNat 64 (if negative then 2 ^ 63 + p else p)).toNat % 2 ^ 63 = p := by
    rw [BitVec.toNat_ofNat]
    split <;> omega
  have hmsb : (BitVec.ofNat 64 (if negative then 2 ^ 63 + p else p)).msb = true ↔ negative := by
    rw [BitVec.msb_eq_decide, decide_eq_true_iff, BitVec.toNat_ofNat]
    split <;> simp only [*, iff_true, iff_false] <;> omega
  simp only [F64.units, hmag, hmsb]

/-- The rounding overflows exactly from 2^1024 - 2^970 on (R90). -/
theorem roundPattern_lt_iff (r : ℚ) :
    roundPattern (unitNum r) r.den < infPattern ↔ |r| < 2 ^ 1024 - 2 ^ 970 := by
  rw [roundPattern_lt_infPattern_iff r.den_pos, unitNum_div_den, ← overflow_units]
  exact mul_lt_mul_iff_left₀ (by positivity)

theorem isFinite_rne_iff (r : ℚ) : F64.isFinite (rne r) = true ↔ roundPattern (unitNum r) r.den < infPattern := by
  rw [rne_eq]
  constructor
  · intro h
    by_contra hge
    rw [min_eq_right (not_lt.mp hge)] at h
    revert h
    split <;> decide
  · intro hlt
    rw [min_eq_left hlt.le]
    exact isFinite_ofNat hlt _

theorem roundSign_mul_units_rne {r : ℚ} (h : F64.isFinite (rne r) = true) :
    ((roundSign r * F64.units (rne r) : ℤ) : ℚ) =
      roundSteps (unitNum r) r.den * 2 ^ roundShift (unitNum r) r.den := by
  have hlt := (isFinite_rne_iff r).mp h
  have hunits : F64.units (rne r) = roundSign r * patternUnits (roundPattern (unitNum r) r.den) := by
    rw [rne_eq, min_eq_left hlt.le]
    exact units_ofNat (hlt.trans (by decide)) _
  rw [hunits, patternUnits_roundPattern r.den_pos]
  push_cast
  rw [← mul_assoc, roundSign_mul_self, one_mul]

/-- The units of a value meet what `roundSteps_nearest` asks for, at every step and with either sign. -/
theorem dvd_units_or_lt (y : F64) (r : ℚ) (t : Nat) :
    (2 : ℤ) ^ t ∣ roundSign r * F64.units y ∨ roundSign r * F64.units y < 2 ^ (52 + t) := by
  have hbound : (roundSign r * F64.units y).natAbs = patternUnits (y.toNat % 2 ^ 63) := by
    rw [Int.natAbs_mul, natAbs_roundSign, one_mul, F64.natAbs_units]
  rcases dvd_patternUnits_or_lt (y.toNat % 2 ^ 63) t with hdvd | hlt
  · left
    rw [← Int.dvd_natAbs, hbound]
    exact_mod_cast hdvd
  · right
    refine Int.le_natAbs.trans_lt ?_
    rw [hbound]
    exact_mod_cast hlt

/-- The last fraction bit of a rounded value is the parity of its number of steps (R90). -/
theorem getLsbD_zero_rne {r : ℚ} (h : F64.isFinite (rne r) = true) :
    (rne r).getLsbD 0 = decide (roundSteps (unitNum r) r.den % 2 = 1) := by
  have hlt := (isFinite_rne_iff r).mp h
  rw [rne_eq, min_eq_left hlt.le, BitVec.getLsbD_ofNat, Nat.testBit_zero, roundPattern]
  simp only [Nat.zero_lt_succ, decide_true, Bool.true_and, decide_eq_decide]
  split <;> omega

/-- Settles O41: in units, the distances of `rne r` and of any other value are those of `roundSteps_nearest`. -/
theorem rneIsNearest : Obligations.RneIsNearest := by
  intro r
  refine ⟨(isFinite_rne_iff r).trans (roundPattern_lt_iff r), fun hinfinite => ?_, fun hfinite y _ => ?_⟩
  · have hge : infPattern ≤ roundPattern (unitNum r) r.den := by
      rw [← not_lt, ← isFinite_rne_iff, hinfinite]
      exact Bool.false_ne_true
    rw [rne_eq, min_eq_right hge]
    split <;> rfl
  · have hunit : (0 : ℚ) < 2 ^ 1074 := by positivity
    have hrounded := abs_real_sub_mul (rne r) r
    rw [roundSign_mul_units_rne hfinite] at hrounded
    obtain ⟨hnear, htie⟩ := roundSteps_nearest r.den_pos (dvd_units_or_lt y r (roundShift (unitNum r) r.den))
    rw [← hrounded, ← abs_real_sub_mul y r] at hnear htie
    refine ⟨le_of_mul_le_mul_right hnear hunit, fun heq hne => ?_⟩
    have heven := htie (congrArg (· * 2 ^ 1074) heq) fun hsame => hne ?_
    · rw [getLsbD_zero_rne hfinite, decide_eq_false_iff_not]
      omega
    · have hunits := hsame.trans (roundSign_mul_units_rne hfinite).symm
      have hnonzero : (roundSign r : ℚ) ≠ 0 := left_ne_zero_of_mul_eq_one (roundSign_mul_self r)
      rw [Int.cast_mul, Int.cast_mul, mul_right_inj' hnonzero, ← F64.real_mul_units, ← F64.real_mul_units] at hunits
      exact mul_right_cancel₀ hunit.ne' hunits

/-! ## Rationals that are values -/

/-- Rounding is exact on a rational of at most 53 bits in a step that is a power of two. -/
theorem real_rne_of_abs_eq {r : ℚ} {m k : Nat} (hm : m < 2 ^ 53) (hr : |r| * 2 ^ 1074 = m * 2 ^ k)
    (hfinite : F64.isFinite (rne r) = true) : F64.real (rne r) = r := by
  have hden := r.den_pos
  have hquot : (unitNum r : ℚ) / r.den = (m * 2 ^ k : Nat) := by
    rw [unitNum_div_den, hr]
    push_cast
    rfl
  have hnat : unitNum r = m * 2 ^ k * r.den := by
    rw [div_eq_iff (by exact_mod_cast hden.ne')] at hquot
    exact_mod_cast hquot
  have hshift : roundShift (unitNum r) r.den ≤ k := by
    unfold roundShift
    rw [hnat, Nat.mul_div_cancel _ hden]
    rcases Nat.eq_zero_or_pos (m * 2 ^ k) with hzero | hpos
    · simp [hzero]
    · have hlog : Nat.log2 (m * 2 ^ k) < 53 + k := by
        rw [Nat.log2_lt hpos.ne', pow_add]
        exact Nat.mul_lt_mul_of_pos_right hm (Nat.two_pow_pos k)
      omega
  have hdvd : (2 : ℤ) ^ roundShift (unitNum r) r.den ∣ (m * 2 ^ k : Nat) := by
    exact_mod_cast (pow_dvd_pow 2 hshift).mul_left m
  have hnear := (roundSteps_nearest hden (.inl hdvd)).1
  rw [← roundSign_mul_units_rne hfinite, ← abs_real_sub_mul, hquot, Int.cast_natCast, sub_self, abs_zero] at hnear
  have hunit : (0 : ℚ) < 2 ^ 1074 := by positivity
  exact sub_eq_zero.mp (abs_nonpos_iff.mp (nonpos_of_mul_nonpos_left hnear hunit))

/-- Settles O43. -/
theorem rawConversionExactBelow2p53 : Obligations.RawConversionExactBelow2p53 := by
  intro n
  have hfinite : F64.isFinite (f64OfU64 n) = true := by
    rw [f64OfU64, isFinite_rne_iff, roundPattern_lt_iff, Nat.abs_cast]
    have hn : (n.toNat : ℚ) < 2 ^ 970 :=
      lt_of_lt_of_le (by exact_mod_cast n.isLt) (pow_le_pow_right₀ one_le_two (by decide : 64 ≤ 970))
    have hdouble : (2 : ℚ) * 2 ^ 970 ≤ 2 ^ 1024 := by
      rw [← pow_succ']
      exact pow_le_pow_right₀ one_le_two (by decide)
    generalize (2 : ℚ) ^ 970 = a, (2 : ℚ) ^ 1024 = b at *
    linarith
  exact ⟨hfinite, fun hn => real_rne_of_abs_eq (k := 1074) hn (by rw [Nat.abs_cast]) hfinite⟩

/-! ## Truncation -/

/-- Truncation keeps the sign and takes the floor of the magnitude (R90). -/
theorem intOfF64_eq (x : F64) : intOfF64 x = roundSign (F64.real x) * ⌊|F64.real x|⌋₊ := by
  unfold intOfF64
  generalize F64.real x = q
  have hfloor : ⌊|q|⌋₊ = q.num.natAbs / q.den := by
    rw [← Rat.natFloor_natCast_div_natCast, Nat.cast_natAbs, Int.cast_abs]
    conv_lhs => rw [← Rat.num_div_den q]
    rw [abs_div, Nat.abs_cast]
  rw [hfloor]
  unfold roundSign
  split
  next h =>
    have hnum : q.num = -(q.num.natAbs : ℤ) := by
      have := Rat.num_neg.mpr h
      omega
    conv_lhs => rw [hnum]
    rw [Int.neg_tdiv, Int.ofNat_tdiv, neg_one_mul]
  next h =>
    have hnum : q.num = (q.num.natAbs : ℤ) := by
      have := Rat.num_nonneg.mpr (not_lt.mp h)
      omega
    conv_lhs => rw [hnum]
    rw [Int.ofNat_tdiv, one_mul]

theorem F64.abs_real_mul (x : F64) : |F64.real x| * 2 ^ 1074 = patternUnits (x.toNat % 2 ^ 63) := by
  have hunit : (0 : ℚ) < 2 ^ 1074 := by positivity
  rw [← abs_of_pos hunit, ← abs_mul, F64.real_mul_units, ← F64.natAbs_units, Nat.cast_natAbs, Int.cast_abs]

/-- Rounding `m * 2^k` down to a multiple of `2^a` leaves at most as many bits in some step. -/
theorem exists_div_mul_two_pow_eq {m n : Nat} (hm : m < n) (k a : Nat) :
    ∃ m' k', m' < n ∧ m * 2 ^ k / 2 ^ a * 2 ^ a = m' * 2 ^ k' := by
  rcases Nat.le_total k a with hle | hge
  · refine ⟨_, a, lt_of_le_of_lt ?_ hm, rfl⟩
    calc m * 2 ^ k / 2 ^ a ≤ m * 2 ^ a / 2 ^ a :=
          Nat.div_le_div_right (Nat.mul_le_mul_left m (Nat.pow_le_pow_right two_pos hle))
      _ = m := Nat.mul_div_cancel m (Nat.two_pow_pos a)
  · exact ⟨m, k, hm, Nat.div_mul_cancel ((pow_dvd_pow 2 hge).mul_left m)⟩

/-- The whole part of a value has at most 53 bits in some step again. -/
theorem exists_floor_abs_real_eq (x : F64) :
    ∃ m k : Nat, m < 2 ^ 53 ∧ (⌊|F64.real x|⌋₊ : ℚ) * 2 ^ 1074 = m * 2 ^ k := by
  have hfloor : ⌊|F64.real x|⌋₊ = patternUnits (x.toNat % 2 ^ 63) / 2 ^ 1074 := by
    rw [← Nat.floor_div_eq_div (K := ℚ), ← F64.abs_real_mul, Nat.cast_pow, Nat.cast_ofNat,
      mul_div_cancel_right₀ _ (by positivity)]
  obtain ⟨m, k, hm, hunits⟩ : ∃ m k, m < 2 ^ 53 ∧ patternUnits (x.toNat % 2 ^ 63) = m * 2 ^ k := by
    refine ⟨_, _, ?_, rfl⟩
    split <;> omega
  obtain ⟨m', k', hm', hwhole⟩ := exists_div_mul_two_pow_eq hm k 1074
  refine ⟨m', k', hm', ?_⟩
  rw [hfloor, hunits]
  simpa only [Nat.cast_mul, Nat.cast_pow, Nat.cast_ofNat] using congrArg (Nat.cast (R := ℚ)) hwhole

/-- Settles O42: the whole part of a value is a value, so that rounding it is exact. -/
theorem ftruncIsExact : Obligations.FtruncIsExact := by
  intro x hx
  have hfinite := isFinite_ftrunc hx
  have hint : ((intOfF64 x : ℤ) : ℚ) = roundSign (F64.real x) * ⌊|F64.real x|⌋₊ := by
    rw [intOfF64_eq]
    push_cast
    rfl
  have habs : |((intOfF64 x : ℤ) : ℚ)| = ⌊|F64.real x|⌋₊ := by
    rw [hint, abs_mul, abs_roundSign, one_mul, Nat.abs_cast]
  have hexact : F64.real (ftrunc x) = intOfF64 x := by
    obtain ⟨m, k, hm, hfloor⟩ := exists_floor_abs_real_eq x
    exact real_rne_of_abs_eq hm (by rw [habs, hfloor]) hfinite
  have hle := Nat.floor_le (abs_nonneg (F64.real x))
  have hlt := Nat.lt_floor_add_one |F64.real x|
  refine ⟨hfinite, hexact, ?_, ?_, fun hzero => ?_⟩
  · rwa [hexact, habs]
  · calc |F64.real x - F64.real (ftrunc x)|
        = |(roundSign (F64.real x) : ℚ) * (|F64.real x| - ⌊|F64.real x|⌋₊)| := by
          rw [hexact, hint, mul_sub, roundSign_mul_abs]
      _ = |F64.real x| - ⌊|F64.real x|⌋₊ := by
          rw [abs_mul, abs_roundSign, one_mul, abs_of_nonneg (sub_nonneg.mpr hle)]
      _ < 1 := by linarith
  · rw [ftrunc, hzero]
    decide +kernel

end Sys2Proof.Machine
end

section
/-!
PROOFS. The commands on one signal slot: `SIGDEF` (R95), the writes of `SIGWR` (R96), `SIGRD` (R97), `SETV` (R98) and
`SETP` (R99, R100), with the slot lookup they share (R101).
-/

namespace Sys2Proof.Machine

/-! ## A slot that does not exist or is not valid -/

theorem lookupSlot_of_missing {s : State} {slot : BitVec 9}
    (h : ∀ g : Slot, s.sig[slot.toNat]? = some g → g.valid = false) : lookupSlot s slot = .error .lookup := by
  rcases lookupSlot_cases s slot with ⟨g, hg, hvalid, _⟩ | ⟨_, herror⟩
  · rw [h g hg] at hvalid
    cases hvalid
  · exact herror

section
variable {s : State} {slot : BitVec 9} (h : ∀ g : Slot, s.sig[slot.toNat]? = some g → g.valid = false)
include h

theorem exec_sigwr_of_missing {fld : BitVec 4} (hpos : 1 ≤ fld.toNat) (hmax : fld.toNat ≤ 5) (v : Data) :
    exec (.sigwr fld slot v) s = .next (s.takeFault 0x21#8 .lookup slot) := by
  obtain ⟨f, hf⟩ : ∃ f, writableField fld = some f := by
    rw [← Option.ne_none_iff_exists', ne_eq, writableField_eq_none_iff]
    omega
  simp only [exec, execSigwr, hf, lookupSlot_of_missing h, complete_raise]

theorem exec_sigrd_of_missing {fld : BitVec 4} (hmax : fld.toNat ≤ 7) :
    exec (.sigrd fld slot) s = .next (s.takeFault 0x22#8 .lookup slot) := by
  obtain ⟨f, hf⟩ : ∃ f, selectField fld = some f := by
    rw [← Option.isSome_iff_exists, ← fldReadable_eq]
    exact decide_eq_true hmax
  simp only [exec, execSigrd, hf, lookupSlot_of_missing h, complete_raise]

theorem exec_setv_of_missing (raw : Data) : exec (.setv slot raw) s = .next (s.takeFault 0x28#8 .lookup slot) := by
  simp only [exec, execSetv, lookupSlot_of_missing h, complete_raise]

theorem exec_setp_of_missing (p : F64) : exec (.setp slot p) s = .next (s.takeFault 0x29#8 .lookup slot) := by
  simp only [exec, execSetp, lookupSlot_of_missing h, complete_raise]

end

/-- Settles O37. -/
theorem missingSlotRaisesLookupFault : Obligations.MissingSlotRaisesLookupFault := by
  intro s slot hmissing
  have h (g : Slot) (hg : s.sig[slot.toNat]? = some g) : g.valid = false := by
    rcases hmissing with hlength | ⟨g', hg', hinvalid⟩
    · cases (List.getElem?_eq_none hlength).symm.trans hg
    · exact Option.some.inj (hg'.symm.trans hg) ▸ hinvalid
  exact ⟨fun _ v hpos hmax => exec_sigwr_of_missing h hpos hmax v, fun _ hmax => exec_sigrd_of_missing h hmax,
    exec_setv_of_missing h, exec_setp_of_missing h⟩

/-! ## SIGDEF -/

/-- The bits of a geometry word that must be zero are those from 18 on (R65). -/
theorem geomReserved_ne_zero_iff (d : Data) : geomReserved d ≠ 0#46 ↔ 2 ^ 18 ≤ d.toNat := by
  rw [geomReserved, ne_eq, extractLsb'_eq_zero_iff d (by decide), not_lt]

theorem geomLen_toNat (d : Data) : (geomLen d).toNat = d.toNat / 2 ^ 9 % 2 ^ 7 := by
  rw [geomLen, BitVec.extractLsb'_toNat, Nat.shiftRight_eq_div_pow]

/-- The slot `SIGDEF` writes, its geometry as numbers (R65, R95). -/
theorem definedSlot_eq (d : Data) :
    definedSlot d =
      { valid := true, start := BitVec.ofNat 9 d.toNat, len := BitVec.ofNat 7 (d.toNat / 2 ^ 9),
        layout := if d.getLsbD 16 then .intel else .motorola, isSign := d.getLsbD 17,
        factor := 0x3FF0000000000000#64, offset := 0#64, min := 0#64, max := 0#64, dflt := 0#64, raw := 0#64,
        phys := 0#64 } := by
  have hstart : geomStart d = BitVec.ofNat 9 d.toNat := rfl
  have hlen : geomLen d = BitVec.ofNat 7 (d.toNat / 2 ^ 9) := by
    rw [geomLen, BitVec.extractLsb', Nat.shiftRight_eq_div_pow]
  rw [definedSlot, hstart, hlen]
  rfl

/-- Settles O33: the guards of `SIGDEF`, in their order, as conditions on the word as a number. -/
theorem sigdefDefinesTheSlot : Obligations.SigdefDefinesTheSlot := by
  intro s slot d
  simp only [exec, execSigdef, ge_iff_le, geomReserved_ne_zero_iff, geomLen_toNat, definedSlot_eq, State.nsig]
  by_cases hslot : s.sig.length ≤ slot.toNat
  · simp only [hslot, if_true, complete_raise]
  by_cases hreserved : 2 ^ 18 ≤ d.toNat
  · simp only [hslot, hreserved, true_or, if_true, if_false, complete_raise]
  by_cases hlen : d.toNat / 2 ^ 9 % 2 ^ 7 = 0 ∨ 64 < d.toNat / 2 ^ 9 % 2 ^ 7
  · simp only [hslot, hreserved, hlen, gt_iff_lt, or_true, if_true, if_false, complete_raise]
  · simp only [hslot, hreserved, hlen, gt_iff_lt, or_false, if_false, complete_respond]
    rfl

/-! ## SIGWR -/

/-- A `SIGWR` of a valid slot whose write succeeds puts the written slot in the table. -/
theorem exec_sigwr_of_ok {s : State} {fld : BitVec 4} {slot : BitVec 9} {value : Data} {f : SlotField} {g g' : Slot}
    (hf : writableField fld = some f) (hg : s.sig[slot.toNat]? = some g) (hvalid : g.valid = true)
    (hwrite : writeSlotField g value f = .ok g') :
    exec (.sigwr fld slot value) s = .next ((s.setSlot slot.toNat g').emit (okResponse 0#64)) := by
  simp only [exec, execSigwr, hf, lookupSlot_of_valid hg hvalid, hwrite, complete_respond]

/-- Settles O34: each of the five writes succeeds with the slot the statement names. -/
theorem sigwrWritesTheField : Obligations.SigwrWritesTheField := by
  intro s slot v g hg hvalid
  refine ⟨fun hv hscale => ?_, fun hv hscale => ?_, fun hv => ?_, fun hv => ?_, fun hrange => ?_⟩
  · refine exec_sigwr_of_ok (f := .factor) rfl hg hvalid ?_
    simp only [writeSlotField, hv, scale_of_finite hscale, Bool.not_true, Bool.false_eq_true, if_false]
  · refine exec_sigwr_of_ok (f := .offset) rfl hg hvalid ?_
    simp only [writeSlotField, hv, scale_of_finite hscale, Bool.not_true, Bool.false_eq_true, if_false]
  · refine exec_sigwr_of_ok (f := .min) rfl hg hvalid ?_
    simp only [writeSlotField, hv, Bool.not_true, Bool.false_eq_true, if_false]
  · refine exec_sigwr_of_ok (f := .max) rfl hg hvalid ?_
    simp only [writeSlotField, hv, Bool.not_true, Bool.false_eq_true, if_false]
  · refine exec_sigwr_of_ok (f := .dflt) rfl hg hvalid ?_
    have hfits : fitsLen v g.len.toNat = true := decide_eq_true hrange
    simp only [writeSlotField, hfits, Bool.not_true, Bool.false_eq_true, if_false]

/-! ## SIGRD -/

/-- The geometry word as a number (R97). -/
theorem geomWord_eq_ofNat (g : Slot) :
    geomWord g = BitVec.ofNat 64 (g.start.toNat + g.len.toNat * 2 ^ 9 +
      (if g.layout = .intel then 2 ^ 16 else 0) + (if g.isSign then 2 ^ 17 else 0)) := by
  have hlayout : g.layout.bit.toNat * 2 ^ 16 = if g.layout = .intel then 2 ^ 16 else 0 := by
    cases g.layout <;> rfl
  have hsign : (BitVec.ofBool g.isSign).toNat * 2 ^ 17 = if g.isSign then 2 ^ 17 else 0 := by
    cases g.isSign <;> rfl
  rw [← hlayout, ← hsign, geomWord, ← BitVec.ofNat_toNat]
  refine congrArg (BitVec.ofNat 64) ?_
  simp only [toNat_append_add]
  ring

/-- A `SIGRD` of a valid slot answers with the field its selector names, and changes nothing else. -/
theorem exec_sigrd_of_valid {s : State} {fld : BitVec 4} {slot : BitVec 9} {f : SlotField} {g : Slot}
    (hf : selectField fld = some f) (hg : s.sig[slot.toNat]? = some g) (hvalid : g.valid = true) :
    exec (.sigrd fld slot) s = .next (s.emit (okResponse (g.readField f))) := by
  simp only [exec, execSigrd, hf, lookupSlot_of_valid hg hvalid, complete_respond]

/-- Settles O36: the selector, then the slot; of a valid slot, selector by selector, the field it names. -/
theorem sigrdReturnsTheField : Obligations.SigrdReturnsTheField := by
  intro s fld slot
  refine ⟨fun hfld => ?_, fun hmax h => exec_sigrd_of_missing h hmax, fun g hg hvalid hmax => ?_⟩
  · have hnone : selectField fld = none := by
      rw [← Option.not_isSome_iff_eq_none, ← fldReadable_eq, fldReadable, decide_eq_true_iff]
      omega
    simp only [exec, execSigrd, hnone, complete_raise]
  · have hread (f : SlotField) (hf : selectField fld = some f) := exec_sigrd_of_valid hf hg hvalid
    unfold selectField at hread
    generalize fld.toNat = n at hmax hread
    match n with
    | 0 => exact geomWord_eq_ofNat g ▸ hread .geom rfl
    | 1 => exact hread .factor rfl
    | 2 => exact hread .offset rfl
    | 3 => exact hread .min rfl
    | 4 => exact hread .max rfl
    | 5 => exact hread .dflt rfl
    | 6 => exact hread .raw rfl
    | 7 => exact hread .phys rfl

/-! ## SETV -/

/-- Settles O38: the slot, the range of the value, then the two intermediates of `Scale`. -/
theorem setvStoresRawAndScaled : Obligations.SetvStoresRawAndScaled := by
  intro s slot raw
  refine ⟨fun h => exec_setv_of_missing h raw, fun g hg hvalid => ?_⟩
  simp only [exec, execSetv, lookupSlot_of_valid hg hvalid]
  by_cases hrange : 2 ^ g.len.toNat - 1 < raw.toNat
  · simp only [fitsLen_eq_false hrange, hrange, Bool.not_false, if_true, complete_raise]
  have hfits : fitsLen raw g.len.toNat = true := decide_eq_true (not_lt.mp hrange)
  rcases scale_cases raw g.factor g.offset with ⟨hproduct, hsum, hscale⟩ | ⟨hinfinite, hscale⟩
  · simp only [hfits, hrange, storeRaw, hscale, hproduct, hsum, Bool.not_true, Bool.true_eq_false, Bool.false_eq_true,
      if_false, complete_respond]
    rfl
  · simp only [hfits, hrange, storeRaw, hscale, Bool.not_true, Bool.false_eq_true, if_false, complete_raise]
    split
    · rfl
    · rw [if_pos (hinfinite.resolve_left ‹_›)]

/-! ## SETP -/

/-- `Unscale` as one chain of guards (R92). -/
theorem unscale_eq (p factor offset : F64) (len : Nat) :
    unscale p factor offset len =
      if F64.isFinite p = false ∨ F64.isZero factor = true then .error .numeric
      else if F64.isFinite (fsub p offset) = false then .error .numeric
      else if F64.isFinite (fdiv (fsub p offset) factor) = false then .error .numeric
      else if intOfF64 (fdiv (fsub p offset) factor) < 0 ∨
          2 ^ len - 1 < intOfF64 (fdiv (fsub p offset) factor) then .error .range
      else .ok (BitVec.ofInt 64 (intOfF64 (fdiv (fsub p offset) factor))) := by
  unfold unscale
  simp only [Bool.not_eq_true', gt_iff_lt, ite_or]
  split_ifs with _ _ _ _ hnegative
  case neg =>
    obtain ⟨n, hn⟩ := Int.eq_ofNat_of_zero_le (not_lt.mp hnegative)
    rw [hn, BitVec.ofInt_natCast, Int.toNat_natCast]
  all_goals rfl

/-- A `SETP` of a valid slot whose `Unscale` succeeds stores its result and the operand. -/
theorem exec_setp_of_ok {s : State} {slot : BitVec 9} {p : F64} {g : Slot} {r : BitVec 64}
    (hg : s.sig[slot.toNat]? = some g) (hvalid : g.valid = true)
    (hunscale : unscale p g.factor g.offset g.len.toNat = .ok r) :
    exec (.setp slot p) s = .next ((s.setSlot slot.toNat { g with raw := r, phys := p }).emit (okResponse 0#64)) := by
  simp only [exec, execSetp, lookupSlot_of_valid hg hvalid, hunscale, complete_respond]

/-- The answer to a fault is no success. -/
theorem faultResponse_ne_okResponse (op : BitVec 8) (c : Cause) (idx : BitVec 9) (v : Data) :
    faultResponse op c idx ≠ okResponse v := fun h => Bool.noConfusion (congrArg Response.fault h)

/-- A `SETP` that answers a success found a valid slot, and `Unscale` succeeded. -/
theorem exec_setp_success {s t : State} {slot : BitVec 9} {p : F64} (ht : exec (.setp slot p) s = .next t)
    (hout : t.output = s.output ++ [okResponse 0#64]) :
    ∃ g r, s.sig[slot.toNat]? = some g ∧ g.valid = true ∧ unscale p g.factor g.offset g.len.toNat = .ok r := by
  have hfault (c : Cause) : exec (.setp slot p) s ≠ .next (s.takeFault 0x29#8 c slot) := by
    intro h
    obtain rfl := Host.Outcome.next.inj (ht.symm.trans h)
    rw [State.takeFault_output, List.append_cancel_left_eq, List.singleton_inj] at hout
    exact faultResponse_ne_okResponse _ _ _ _ hout
  rcases lookupSlot_cases s slot with ⟨g, hg, hvalid, hlookup⟩ | ⟨_, hlookup⟩
  · cases hunscale : unscale p g.factor g.offset g.len.toNat with
    | ok r => exact ⟨g, r, hg, hvalid, hunscale⟩
    | error c => exact absurd (by simp only [exec, execSetp, hlookup, hunscale, complete_raise]) (hfault c)
  · exact absurd (by simp only [exec, execSetp, hlookup, complete_raise]) (hfault .lookup)

/-- Settles O39: the slot, then the guards of `Unscale`. -/
theorem setpStoresQuotientAndOperand : Obligations.SetpStoresQuotientAndOperand := by
  intro s slot p
  refine ⟨fun h => exec_setp_of_missing h p, fun g hg hvalid => ?_⟩
  simp only [exec, execSetp, lookupSlot_of_valid hg hvalid, unscale_eq]
  split_ifs <;> rfl

/-- Settles O40: `SIGRD` reads the slot that `SETP` put in the table. -/
theorem setpReadsBack : Obligations.SetpReadsBack := by
  intro s t slot p ht hout
  obtain ⟨g, r, hg, hvalid, hunscale⟩ := exec_setp_success ht hout
  obtain rfl := Host.Outcome.next.inj (ht.symm.trans (exec_setp_of_ok hg hvalid hunscale))
  have hread {fld : BitVec 4} {f : SlotField} (hf : selectField fld = some f) :=
    exec_sigrd_of_valid (s := (s.setSlot slot.toNat { g with raw := r, phys := p }).emit (okResponse 0#64)) hf
      (List.getElem?_set_self (List.getElem?_eq_some_iff.mp hg).1) hvalid
  exact ⟨g, r, hg, hunscale, hread (f := .phys) rfl, hread (f := .raw) rfl⟩

end Sys2Proof.Machine
end

section
/-!
PROOFS. The commands on the whole message: `UPDR` (R112) and `RSTD` (R114), which rewrite the valid slots in order and
leave the rest of the state (R110), and `CHKM` (R113).
-/

namespace Sys2Proof.Machine

/-! ## The rewritten table -/

@[simp] theorem rewrittenBelow_length (f : Slot → Slot) (n : Nat) (l : List Slot) :
    (rewrittenBelow f n l).length = l.length := List.length_mapIdx

/-- A slot below `n` is rewritten if it is valid. -/
theorem rewrittenBelow_getElem?_of_lt (f : Slot → Slot) {n k : Nat} (hlt : k < n) {l : List Slot} {g : Slot}
    (hg : l[k]? = some g) : (rewrittenBelow f n l)[k]? = some (if g.valid then f g else g) := by
  simp only [rewrittenBelow_getElem?, hg, Option.map_some, hlt, true_and]

/-- The slots from `n` on are those of the table before. -/
theorem drop_rewrittenBelow (f : Slot → Slot) (n : Nat) (l : List Slot) : (rewrittenBelow f n l).drop n = l.drop n := by
  apply List.ext_getElem?
  intro k
  have hk : ¬ n + k < n := by omega
  simp [rewrittenBelow_getElem?, hk]

/-! ## An iteration that rewrites the slots -/

/-- An iteration depends on its body only at the slot numbers it goes over. -/
theorem forValidSlots_congr {body body' : Nat → Slot → State → Except (Cause × State) State} {ks : List Nat}
    (h : ∀ k ∈ ks, body k = body' k) (s : State) : forValidSlots body ks s = forValidSlots body' ks s := by
  induction ks generalizing s with
  | nil => rfl
  | cons k ks ih =>
    obtain ⟨hhead, htail⟩ := List.forall_mem_cons.mp h
    simp only [forValidSlots, hhead, ih htail]

/-- The body that acts as `body` below `n` and from there on rewrites its slot by `f`. -/
def rewriteFrom (n : Nat) (f : Slot → Slot) (body : Nat → Slot → State → Except (Cause × State) State) (k : Nat) (g : Slot)
    (s : State) : Except (Cause × State) State :=
  if k < n then body k g s else .ok (s.setSlot k (f g))

theorem rewriteFrom_of_lt {n k : Nat} (hlt : k < n) (f : Slot → Slot)
    (body : Nat → Slot → State → Except (Cause × State) State) : rewriteFrom n f body k = body k := by
  funext g s
  exact if_pos hlt

/-- `forValidSlots_rewrite` for a body that is only known to rewrite the slots below `n`. -/
theorem forValidSlots_rewrite_below {body : Nat → Slot → State → Except (Cause × State) State} {s : State}
    {f : Slot → Slot} {n : Nat} (hbody : ∀ k g l, k < n → s.validSlot k = some g →
      body k g (s.setSig l) = .ok ((s.setSig l).setSlot k (f g))) :
    forValidSlots body (List.range n) s = .respond 0#64 (s.setSig (rewrittenBelow f n s.sig)) := by
  have hrewrite (k : Nat) (g : Slot) (l : List Slot) (hk : s.validSlot k = some g) :
      rewriteFrom n f body k g (s.setSig l) = .ok ((s.setSig l).setSlot k (f g)) := by
    by_cases hlt : k < n
    · rw [rewriteFrom_of_lt hlt]
      exact hbody k g l hlt hk
    · exact if_neg hlt
  calc forValidSlots body (List.range n) s
      = forValidSlots (rewriteFrom n f body) (List.range n) s :=
        forValidSlots_congr (fun k hk => (rewriteFrom_of_lt (List.mem_range.mp hk) f body).symm) s
    _ = .respond 0#64 (s.setSig (rewrittenBelow f n s.sig)) := forValidSlots_rewrite hrewrite n

/-- An iteration that rewrites the slots below `n` and faults on slot `n`, whatever the table is then, ends there with
these slots rewritten (R110). -/
theorem forAllSlots_rewrite_raise {body : Nat → Slot → State → Except (Cause × State) State} {s : State} {f : Slot → Slot}
    {n : Nat} {g : Slot} {c : Cause} (hg : s.sig[n]? = some g) (hvalid : g.valid = true)
    (hbelow : ∀ k h l, k < n → s.validSlot k = some h → body k h (s.setSig l) = .ok ((s.setSig l).setSlot k (f h)))
    (hfault : ∀ l, body n g (s.setSig l) = .error (c, s.setSig l)) :
    forAllSlots body s = .raise c (BitVec.ofNat 9 n) (s.setSig (rewrittenBelow f n s.sig)) :=
  forAllSlots_raise (List.getElem?_eq_some_iff.mp hg).1 (forValidSlots_rewrite_below hbelow)
    ((validSlot_rewrittenBelow f n s).trans (validSlot_of_getElem? hg hvalid)) (hfault _)

/-! ## UPDR -/

/-- A slot that does not fit or does not scale faults, and the fit is judged first (R112). -/
theorem decodeSlot_of_fault {s : State} {g : Slot} (k : Nat)
    (h : g.geom.fits s.blen.toNat = false ∨ scaleFinite (g.geom.gather s.byte) g.factor g.offset = false) :
    decodeSlot k g s = .error (if g.geom.fits s.blen.toNat then .numeric else .index, s) := by
  cases hfits : g.geom.fits s.blen.toNat with
  | false => simp only [decodeSlot, extractField, hfits, Bool.false_eq_true, if_false]
  | true =>
    have hscale : scaleFinite (g.geom.gather s.byte) g.factor g.offset = false := h.resolve_left (by simp [hfits])
    simp only [decodeSlot, extractField, hfits, if_true, storeRaw, scale_of_not_finite hscale]

/-- Settles O46: the table `UPDR` leaves is the one with every valid slot decoded. -/
theorem updrDecodesEverySlot : Obligations.UpdrDecodesEverySlot := fun s h =>
  ⟨_, execUpdr_of_fits h, rfl, rewrittenBelow_length _ _ s.sig,
    fun _ _ hg => rewrittenBelow_getElem?_of_lt (decodedSlot s.byte) (List.getElem?_eq_some_iff.mp hg).1 hg⟩

/-- Settles O47: no decoding changes the message or `BLEN`, so the slots below `n` decode and slot `n` faults as they
would in the first state. -/
theorem updrStopsAtFirstFault : Obligations.UpdrStopsAtFirstFault := by
  intro s n g _ hg hvalid hfault hslots
  have hbelow (k : Nat) (h : Slot) (l : List Slot) (hlt : k < n) (hk : s.validSlot k = some h) :
      decodeSlot k h (s.setSig l) = .ok ((s.setSig l).setSlot k (decodedSlot s.byte h)) :=
    have ⟨hfits, hfinite⟩ := forall_validSlot_of_take hslots hlt hk
    decodeSlot_of_fits (s := s.setSig l) k hfits hfinite
  have hupdr := forAllSlots_rewrite_raise (c := if g.geom.fits s.blen.toNat then .numeric else .index) hg hvalid
    hbelow fun l => decodeSlot_of_fault (s := s.setSig l) n hfault
  exact ⟨_, _, congrArg (complete opUpdr) hupdr, rfl, rfl, drop_rewrittenBelow _ n s.sig,
    fun _ _ hlt hh => rewrittenBelow_getElem?_of_lt (decodedSlot s.byte) hlt hh⟩

/-! ## RSTD -/

/-- The slot after `RSTD` (R114). -/
def restoredSlot (g : Slot) : Slot :=
  { g with
    raw := g.dflt
    phys := ftrunc (scaledSum g.dflt g.factor g.offset) }

theorem restoreSlot_of_finite {g : Slot} (h : scaleFinite g.dflt g.factor g.offset = true) (k : Nat) (s : State) :
    restoreSlot k g s = .ok (s.setSlot k (restoredSlot g)) := by
  simp only [restoreSlot, storeRaw, scale_of_finite h]
  rfl

theorem restoreSlot_of_not_finite {g : Slot} (h : scaleFinite g.dflt g.factor g.offset = false) (k : Nat) (s : State) :
    restoreSlot k g s = .error (.numeric, s) := by
  simp only [restoreSlot, storeRaw, scale_of_not_finite h]

/-- Settles O48: the table `RSTD` leaves is the one with every valid slot restored. -/
theorem rstdRestoresEverySlot : Obligations.RstdRestoresEverySlot := by
  intro s hfinite
  have hrestore : forAllSlots restoreSlot s = .respond 0#64 (s.setSig (rewrittenBelow restoredSlot s.nsig s.sig)) :=
    forValidSlots_rewrite (fun k _ _ hk => restoreSlot_of_finite (forall_validSlot hfinite hk) k _) s.nsig
  exact ⟨_, congrArg (complete opRstd) hrestore, rfl, rewrittenBelow_length _ _ s.sig,
    fun _ _ hg => rewrittenBelow_getElem?_of_lt restoredSlot (List.getElem?_eq_some_iff.mp hg).1 hg⟩

/-- Settles O49: the slots below `n` are restored, and slot `n` faults with nothing of it written. -/
theorem rstdStopsAtFirstOverflow : Obligations.RstdStopsAtFirstOverflow := by
  intro s n g _ hg hvalid hoverflow hfinite
  have hrstd := forAllSlots_rewrite_raise (body := restoreSlot) (f := restoredSlot) hg hvalid
    (fun k _ _ hlt hk => restoreSlot_of_finite (forall_validSlot_of_take hfinite hlt hk) k _)
    (fun _ => restoreSlot_of_not_finite hoverflow n _)
  exact ⟨_, congrArg (complete opRstd) hrstd, rfl, drop_rewrittenBelow _ n s.sig,
    fun _ _ hlt hh => rewrittenBelow_getElem?_of_lt restoredSlot hlt hh⟩

/-! ## CHKM -/

/-- `CHKM` checks the identifier alone: its byte check never fails, so the flag makes no difference (R113). -/
theorem execChkm_eq (checkData : Bool) (s : State) :
    execChkm checkData s =
      .next (if s.msgid.toNat ≤ Config.msgidMax then s.emit (okResponse 0#64) else s.takeFault opChkm .id 0#9) := by
  rw [execChkm, badByte_eq_none, ite_self]
  by_cases hid : s.msgid.toNat ≤ Config.msgidMax
  · rw [if_pos hid, if_neg (Nat.not_lt.mpr hid), complete_respond]
  · rw [if_neg hid, if_pos (Nat.not_le.mp hid), complete_raise]

/-- Settles O50: the response and the fault of `execChkm_eq`, written out. -/
theorem chkmChecksTheIdentifier : Obligations.ChkmChecksTheIdentifier := fun s flag => execChkm_eq flag s

end Sys2Proof.Machine
end

section
/-!
PROOFS. The commands on single cells and control registers: `WRB` (R120), `RDB` (R121), `WRCR` (R122) and `RDCR` (R123).
Each is first given as one equation in the order of its tests; the register commands share the table of register numbers
(R26).
-/

namespace Sys2Proof.Machine

/-! ## WRB and RDB -/

/-- `WRB` tests the value first and then the index, as numbers (R120). -/
theorem exec_wrb_eq (idx : BitVec 9) (d : Data) (s : State) :
    exec (.wrb idx d) s =
      .next (if 255 < d.toNat then s.takeFault opWrb .byte idx
             else if s.blen.toNat ≤ idx.toNat then s.takeFault opWrb .index idx
             else (s.setBuf (memSet s.buf idx.toNat (d.extractLsb' 0 8))).emit (okResponse 0#64)) := by
  have hwide : d.extractLsb' 8 56 ≠ 0#56 ↔ 255 < d.toNat := by
    rw [ne_eq, extractLsb'_eq_zero_iff d (by decide), not_lt]
    rfl
  simp only [exec, execWrb, hwide]
  by_cases hd : 255 < d.toNat
  · simp only [hd, if_true, complete_raise]
  rcases memWrite_cases s idx.toNat (d.extractLsb' 0 8) with ⟨hidx, h⟩ | ⟨hidx, h⟩
  · simp only [hd, h, Nat.not_le.mpr hidx, if_false, complete_respond]
  · simp only [hd, h, hidx, if_true, if_false, complete_raise]

/-- Settles O26: the three ends of `exec_wrb_eq`; a byte value is its own low eight bits. -/
theorem wrbStoresOneByte : Obligations.WrbStoresOneByte := by
  intro s idx d
  rw [exec_wrb_eq]
  refine ⟨fun hd => by rw [if_pos hd], fun hd hidx => by rw [if_neg (Nat.not_lt.mpr hd), if_pos hidx],
    fun hd hidx => ?_⟩
  rw [if_neg (Nat.not_lt.mpr hd), if_neg (Nat.not_le.mpr hidx)]
  refine ⟨_, rfl, rfl, ?_, fun k hk => memByte_memSet_of_ne _ _ _ _ hk⟩
  calc (memByte (memSet s.buf idx.toNat (d.extractLsb' 0 8)) idx.toNat).toNat
      = d.toNat % 2 ^ 8 := by rw [memByte_memSet_self, BitVec.extractLsb'_toNat, Nat.shiftRight_zero]
    _ = d.toNat := Nat.mod_eq_of_lt (Nat.lt_succ_of_le hd)

/-- Settles O27: the two ends of the read. -/
theorem rdbReturnsTheByte : Obligations.RdbReturnsTheByte := by
  intro s idx
  rcases memRead_cases s idx.toNat with ⟨hidx, h⟩ | ⟨hidx, h⟩
  · rw [if_pos hidx]
    simp only [exec, execRdb, h, complete_respond]
    rfl
  · rw [if_neg (Nat.not_lt.mpr hidx)]
    simp only [exec, execRdb, h, complete_raise]

/-! ## WRCR and RDCR -/

/-- The table of register numbers (R26). -/
theorem selectCtrlReg_cases (cr : BitVec 9) :
    (cr = 0#9 ∧ selectCtrlReg cr = some .blen) ∨ (cr = 1#9 ∧ selectCtrlReg cr = some .msgid) ∨
      (cr = 2#9 ∧ selectCtrlReg cr = some .fsr) ∨ (cr = 3#9 ∧ selectCtrlReg cr = some .caps) ∨
      ((cr ≠ 0#9 ∧ cr ≠ 1#9 ∧ cr ≠ 2#9 ∧ cr ≠ 3#9) ∧ selectCtrlReg cr = none) := by
  unfold selectCtrlReg
  split
  next h => exact .inl ⟨BitVec.eq_of_toNat_eq h, rfl⟩
  next h => exact .inr (.inl ⟨BitVec.eq_of_toNat_eq h, rfl⟩)
  next h => exact .inr (.inr (.inl ⟨BitVec.eq_of_toNat_eq h, rfl⟩))
  next h => exact .inr (.inr (.inr (.inl ⟨BitVec.eq_of_toNat_eq h, rfl⟩)))
  next hblen hmsgid hfsr hcaps =>
    have hne (n : BitVec 9) : cr.toNat ≠ n.toNat → cr ≠ n := ne_of_apply_ne BitVec.toNat
    exact .inr (.inr (.inr (.inr ⟨⟨hne 0#9 hblen, hne 1#9 hmsgid, hne 2#9 hfsr, hne 3#9 hcaps⟩, rfl⟩)))

/-- `BLEN` takes 1 to 64 (R22). -/
theorem exec_wrcr_blen (v : Data) (s : State) :
    exec (.wrcr 0#9 v) s =
      .next (if 1 ≤ v.toNat ∧ v.toNat ≤ 64 then (s.setBlen (BitVec.ofNat 7 v.toNat)).emit (okResponse 0#64)
             else s.takeFault opWrcr .operand 0#9) := by
  have hselect : selectCtrlReg 0#9 = some .blen := rfl
  simp only [exec, execWrcr, hselect]
  by_cases hv : v.toNat < 1 ∨ v.toNat > 64
  · rw [if_pos hv, if_neg (by omega), complete_raise]
  · rw [if_neg hv, if_pos (by omega), complete_respond]
    rfl

/-- `MSGID` takes any value of 32 bits (R23). -/
theorem exec_wrcr_msgid (v : Data) (s : State) :
    exec (.wrcr 1#9 v) s =
      .next (if v.toNat < 2 ^ 32 then (s.setMsgid (BitVec.ofNat 32 v.toNat)).emit (okResponse 0#64)
             else s.takeFault opWrcr .operand 1#9) := by
  have hselect : selectCtrlReg 1#9 = some .msgid := rfl
  simp only [exec, execWrcr, hselect, ne_eq, extractLsb'_eq_zero_iff v (start := 32) (len := 32) rfl]
  by_cases hv : v.toNat < 2 ^ 32
  · rw [if_neg (not_not.mpr hv), if_pos hv, complete_respond]
    rfl
  · rw [if_pos hv, if_neg hv, complete_raise]

/-- Settles O28, register by register: of the five kinds of number only `BLEN` and `MSGID` test the value. -/
theorem wrcrWritesItsRegister : Obligations.WrcrWritesItsRegister := by
  intro s cr v
  rcases selectCtrlReg_cases cr with ⟨rfl, _⟩ | ⟨rfl, _⟩ | ⟨rfl, _⟩ | ⟨rfl, _⟩ | ⟨⟨hblen, hmsgid, hfsr, _⟩, h⟩
  · simp only [true_and, BitVec.reduceEq, false_and, if_false]
    exact exec_wrcr_blen v s
  · simp only [true_and, BitVec.reduceEq, false_and, if_false]
    exact exec_wrcr_msgid v s
  · rfl
  · rfl
  · simp only [hblen, hmsgid, hfsr, false_and, if_false, exec, execWrcr, h, complete_raise]

/-- Settles O29, register by register. -/
theorem rdcrReturnsItsRegister : Obligations.RdcrReturnsItsRegister := by
  intro s cr
  simp only [BitVec.ofNat_toNat]
  rcases selectCtrlReg_cases cr with ⟨rfl, _⟩ | ⟨rfl, _⟩ | ⟨rfl, _⟩ | ⟨rfl, _⟩ | ⟨⟨hblen, hmsgid, hfsr, hcaps⟩, h⟩
  · rfl
  · rfl
  · rfl
  · rfl
  · simp only [hblen, hmsgid, hfsr, hcaps, if_false, exec, execRdcr, h, complete_raise]

end Sys2Proof.Machine
end

section
/-!
PROOFS. The faults of the commands: which causes a command raises (R132), and which faults leave the state as it was
(R135).
-/

namespace Sys2Proof.Machine

/-! ## How a pseudocode may fault -/

/-- The pseudocode of command `i`, begun in `s`, ends in a response or in a fault of a cause the table gives `i` (R132);
only the commands on more than one object may fault with something written, and not with `OperandFault` (R135). -/
inductive FaultsByTable (i : Instr) (s : State) : Effect → Prop
  | respond (v : Data) (u : State) : FaultsByTable i s (.respond v u)
  | precise {c : Cause} (idx : BitVec 9) (hc : canRaise i c = true) : FaultsByTable i s (.raise c idx s)
  | midway {c : Cause} (idx : BitVec 9) (u : State) (hc : canRaise i c = true) (hi : worksOnOneObject i = false)
      (hoperand : c ≠ .operand) : FaultsByTable i s (.raise c idx u)

theorem FaultsByTable.marked {i : Instr} {s u : State} {c : Cause} {idx : BitVec 9}
    (h : FaultsByTable i s (.raise c idx u)) : canRaise i c = true := by
  cases h with
  | precise _ hc => exact hc
  | midway _ _ hc => exact hc

/-- A guard before anything is written. -/
theorem FaultsByTable.guard {i : Instr} {s : State} {c : Cause} {idx : BitVec 9} {e : Effect} {p : Prop} [Decidable p]
    (hc : canRaise i c = true) (h : FaultsByTable i s e) :
    FaultsByTable i s (if p then .raise c idx s else e) := by
  split
  · exact .precise idx hc
  · exact h

/-- The command faults as the tables of R132 and R135 say. -/
def KeepsTable (i : Instr) (s : State) (o : Host.Outcome State Fault Refusal) : Prop :=
  ∃ e : Effect, o = complete i.opcode e ∧ FaultsByTable i s e

/-! ## What the operations on the state raise -/

theorem eq_index_of_insertField_eq_error {s t : State} {g : Geom} {v : BitVec 64} {c : Cause}
    (h : insertField s g v = .error (c, t)) : c = .index := by
  rcases insertField_cases s g v with ⟨_, hok⟩ | ⟨_, herror⟩
  · cases hok.symm.trans h
  · cases herror.symm.trans h
    rfl

theorem eq_numeric_of_storeRaw_eq_error {s t : State} {k : Nat} {g : Slot} {v : BitVec 64} {c : Cause}
    (h : storeRaw k g v s = .error (c, t)) : c = .numeric := by
  rcases storeRaw_cases k g v s with ⟨_, _, hok⟩ | ⟨_, herror⟩
  · cases hok.symm.trans h
  · cases herror.symm.trans h
    rfl

theorem decodeSlot_error {s t : State} {k : Nat} {g : Slot} {c : Cause} (h : decodeSlot k g s = .error (c, t)) :
    c = .index ∨ c = .numeric := by
  unfold decodeSlot at h
  rcases extractField_cases s g.geom with ⟨_, hextract⟩ | ⟨_, hextract⟩ <;> rw [hextract] at h
  · exact .inr (eq_numeric_of_storeRaw_eq_error h)
  · cases h
    exact .inl rfl

theorem eq_numeric_of_scale_eq_error {raw : BitVec 64} {factor offset : F64} {c : Cause}
    (h : scale raw factor offset = .error c) : c = .numeric := by
  rcases scale_cases raw factor offset with ⟨_, _, hok⟩ | ⟨_, herror⟩
  · cases hok.symm.trans h
  · cases herror.symm.trans h
    rfl

/-- A write of a field raises what its tests name, or what `Scale` raises (R96). -/
theorem writeSlotField_error {g : Slot} {value : Data} {f : SlotField} {c : Cause}
    (h : writeSlotField g value f = .error c) : c = .range ∨ c = .operand ∨ c = .numeric := by
  unfold writeSlotField at h
  cases f with
  | factor =>
    simp only at h
    split at h
    · cases h
      exact .inr (.inr rfl)
    · cases hscale : scale g.raw value g.offset <;> rw [hscale] at h <;> cases h
      exact .inr (.inr (eq_numeric_of_scale_eq_error hscale))
  | offset =>
    simp only at h
    split at h
    · cases h
      exact .inr (.inr rfl)
    · cases hscale : scale g.raw g.factor value <;> rw [hscale] at h <;> cases h
      exact .inr (.inr (eq_numeric_of_scale_eq_error hscale))
  | min | max =>
    simp only at h
    split at h <;> cases h
    exact .inr (.inr rfl)
  | dflt =>
    simp only at h
    split at h <;> cases h
    exact .inl rfl
  | geom | raw | phys =>
    cases h
    exact .inr (.inl rfl)

/-! ## The commands -/

/-- A command over all slots raises what the processing of one slot raises, with the slots before it written. -/
theorem forAllSlots_keepsTable {i : Instr} {body : Nat → Slot → State → Except (Cause × State) State}
    (hi : worksOnOneObject i = false) (hoperand : canRaise i .operand = false)
    (hbody : ∀ k g s c t, body k g s = .error (c, t) → canRaise i c = true) (s : State) :
    KeepsTable i s (complete i.opcode (forAllSlots body s)) := by
  refine ⟨_, rfl, forValidSlots_ends (.respond _) (fun k g u c t h => ?_) _ s⟩
  have hc := hbody k g u c t h
  exact .midway _ t hc hi (ne_of_apply_ne (canRaise i) (by rw [hc, hoperand]; decide))

theorem execSetd_keepsTable (start : BitVec 9) (len : BitVec 7) (io : Layout) (value : Data) (s : State) :
    KeepsTable (.setd start len io value) s (execSetd start len io value s) := by
  refine ⟨_, rfl, .guard rfl (.guard rfl ?_)⟩
  cases h : insertField s (codecGeom start len io) value with
  | ok t => exact .respond _ t
  | error ct =>
    have hc : ct.1 = .index := eq_index_of_insertField_eq_error h
    exact .midway _ _ (by rw [hc]; rfl) rfl (by rw [hc]; decide)

theorem execGetd_keepsTable (start : BitVec 9) (len : BitVec 7) (io : Layout) (s : State) :
    KeepsTable (.getd start len io) s (execGetd start len io s) := by
  refine ⟨_, rfl, .guard rfl ?_⟩
  rcases extractField_cases s (codecGeom start len io) with ⟨_, h⟩ | ⟨_, h⟩ <;> rw [h]
  · exact .respond _ s
  · exact .precise _ rfl

theorem execWrb_keepsTable (idx : BitVec 9) (data : Data) (s : State) :
    KeepsTable (.wrb idx data) s (execWrb idx data s) := by
  refine ⟨_, rfl, .guard rfl ?_⟩
  rcases memWrite_cases s idx.toNat (data.extractLsb' 0 8) with ⟨_, h⟩ | ⟨_, h⟩ <;> rw [h]
  · exact .respond _ _
  · exact .precise _ rfl

theorem execRdb_keepsTable (idx : BitVec 9) (s : State) : KeepsTable (.rdb idx) s (execRdb idx s) := by
  refine ⟨_, rfl, ?_⟩
  rcases memRead_cases s idx.toNat with ⟨_, h⟩ | ⟨_, h⟩ <;> rw [h]
  · exact .respond _ s
  · exact .precise _ rfl

theorem execWrcr_keepsTable (cr : BitVec 9) (value : Data) (s : State) :
    KeepsTable (.wrcr cr value) s (execWrcr cr value s) := by
  refine ⟨_, rfl, ?_⟩
  split
  next => exact .precise _ rfl
  next => exact .guard rfl (.respond _ _)
  next => exact .guard rfl (.respond _ _)
  next => exact .respond _ _
  next => exact .precise _ rfl

theorem execRdcr_keepsTable (cr : BitVec 9) (s : State) : KeepsTable (.rdcr cr) s (execRdcr cr s) := by
  refine ⟨_, rfl, ?_⟩
  cases selectCtrlReg cr with
  | none => exact .precise _ rfl
  | some r => exact .respond _ s

theorem execSigdef_keepsTable (slot : BitVec 9) (d : Data) (s : State) :
    KeepsTable (.sigdef slot d) s (execSigdef slot d s) :=
  ⟨_, rfl, .guard rfl (.guard rfl (.guard rfl (.respond _ _)))⟩

theorem execSigwr_keepsTable (fld : BitVec 4) (slot : BitVec 9) (value : Data) (s : State) :
    KeepsTable (.sigwr fld slot value) s (execSigwr fld slot value s) := by
  refine ⟨_, rfl, ?_⟩
  cases writableField fld with
  | none => exact .precise slot rfl
  | some f =>
    rcases lookupSlot_cases s slot with ⟨g, _, _, h⟩ | ⟨_, h⟩ <;> simp only [h]
    · cases hwrite : writeSlotField g value f with
      | ok g' => exact .respond _ _
      | error c => rcases writeSlotField_error hwrite with rfl | rfl | rfl <;> exact .precise slot rfl
    · exact .precise slot rfl

theorem execSigrd_keepsTable (fld : BitVec 4) (slot : BitVec 9) (s : State) :
    KeepsTable (.sigrd fld slot) s (execSigrd fld slot s) := by
  refine ⟨_, rfl, ?_⟩
  cases selectField fld with
  | none => exact .precise slot rfl
  | some f =>
    rcases lookupSlot_cases s slot with ⟨g, _, _, h⟩ | ⟨_, h⟩ <;> simp only [h]
    · exact .respond _ s
    · exact .precise slot rfl

theorem execSetv_keepsTable (slot : BitVec 9) (raw : Data) (s : State) :
    KeepsTable (.setv slot raw) s (execSetv slot raw s) := by
  refine ⟨_, rfl, ?_⟩
  rcases lookupSlot_cases s slot with ⟨g, _, _, h⟩ | ⟨_, h⟩ <;> simp only [h]
  · refine .guard rfl ?_
    rcases storeRaw_cases slot.toNat g raw s with ⟨_, _, hstore⟩ | ⟨_, hstore⟩ <;> rw [hstore]
    · exact .respond _ _
    · exact .precise slot rfl
  · exact .precise slot rfl

theorem execSetp_keepsTable (slot : BitVec 9) (phys : F64) (s : State) :
    KeepsTable (.setp slot phys) s (execSetp slot phys s) := by
  refine ⟨_, rfl, ?_⟩
  rcases lookupSlot_cases s slot with ⟨g, _, _, h⟩ | ⟨_, h⟩ <;> simp only [h]
  · cases hunscale : unscale phys g.factor g.offset g.len.toNat with
    | ok r => exact .respond _ _
    | error c => rcases unscale_error _ _ _ _ c hunscale with rfl | rfl <;> exact .precise slot rfl
  · exact .precise slot rfl

theorem execChkm_keepsTable (checkData : Bool) (s : State) :
    KeepsTable (.chkm checkData) s (execChkm checkData s) := by
  refine ⟨_, rfl, .guard rfl ?_⟩
  rw [badByte_eq_none, ite_self]
  exact .respond _ s

/-- Every command faults as the tables say. -/
theorem exec_keepsTable (i : Instr) (s : State) : KeepsTable i s (exec i s) := by
  cases i with
  | setd start len io value => exact execSetd_keepsTable start len io value s
  | getd start len io => exact execGetd_keepsTable start len io s
  | wrb idx data => exact execWrb_keepsTable idx data s
  | rdb idx => exact execRdb_keepsTable idx s
  | wrcr cr value => exact execWrcr_keepsTable cr value s
  | rdcr cr => exact execRdcr_keepsTable cr s
  | sigdef slot geom => exact execSigdef_keepsTable slot geom s
  | sigwr fld slot value => exact execSigwr_keepsTable fld slot value s
  | sigrd fld slot => exact execSigrd_keepsTable fld slot s
  | setv slot raw => exact execSetv_keepsTable slot raw s
  | setp slot phys => exact execSetp_keepsTable slot phys s
  | upds =>
    refine forAllSlots_keepsTable (i := .upds) rfl rfl (fun _ _ _ _ _ h => ?_) s
    rw [eq_index_of_insertField_eq_error h]
    rfl
  | updr =>
    refine forAllSlots_keepsTable (i := .updr) rfl rfl (fun _ _ _ _ _ h => ?_) s
    rcases decodeSlot_error h with rfl | rfl <;> rfl
  | chkm checkData => exact execChkm_keepsTable checkData s
  | rstd =>
    refine forAllSlots_keepsTable (i := .rstd) rfl rfl (fun _ _ _ _ _ h => ?_) s
    rw [eq_numeric_of_storeRaw_eq_error h]
    rfl

/-! ## From the response to the fault -/

/-- A fault response reports the fault taken at the end of the pseudocode. -/
theorem exec_fault {i : Instr} {s t : State} {r : Response} (ht : exec i s = .next t) (hout : t.output = s.output ++ [r])
    (hr : r.fault = true) :
    ∃ c idx u, r = faultResponse i.opcode c idx ∧ t = u.takeFault i.opcode c idx ∧
      FaultsByTable i s (.raise c idx u) := by
  obtain ⟨e, he, htable⟩ := exec_keepsTable i s
  obtain rfl := List.singleton_inj.mp (List.append_cancel_left (hout.symm.trans (exec_output he ht)))
  cases e with
  | respond v u => cases hr
  | raise c idx u => exact ⟨c, idx, u, rfl, Host.Outcome.next.inj (ht.symm.trans he), htable⟩

theorem eq_of_faultResponse_eq {op : BitVec 8} {c c' : Cause} {idx idx' : BitVec 9}
    (h : faultResponse op c idx = faultResponse op c' idx') : c = c' :=
  Cause.code_injective (congrArg Response.cause h)

/-- A fault that a command reports is of a cause the table gives the command. -/
theorem canRaise_of_output {i : Instr} {s t : State} {c : Cause} {idx : BitVec 9} (ht : exec i s = .next t)
    (hout : t.output = s.output ++ [faultResponse i.opcode c idx]) : canRaise i c = true := by
  obtain ⟨c', idx', u, hr, _, htable⟩ := exec_fault ht hout rfl
  exact eq_of_faultResponse_eq hr ▸ htable.marked

/-- Settles O54: a fault by the table that is not precise is no `OperandFault`, and not of a command on one object. -/
theorem faultsArePrecise : Obligations.FaultsArePrecise := by
  intro i s t r ht hout hr hprecise
  obtain ⟨c, idx, u, rfl, rfl, htable⟩ := exec_fault ht hout hr
  cases htable with
  | precise => rfl
  | midway _ _ _ hi hoperand =>
    rcases hprecise with hobject | hcause
    · cases hi.symm.trans hobject
    · exact absurd (Cause.code_injective (c' := .operand) hcause) hoperand

end Sys2Proof.Machine
end

section
/-!
PROOFS. Every mark of the table of causes (R132) shown in a state that meets the invariant.
-/

namespace Sys2Proof.Machine

/-! ## The states -/

/-- A slot of 63 bits from bit 0 on with factor 2^1000, so that large raw values do not scale, its default among them. -/
def overscaledSlot : Slot :=
  { valid := true, start := 0#9, len := 63#7, layout := .intel, isSign := false, factor := 0x7E70000000000000#64,
    offset := 0#64, min := 0#64, max := 0#64, dflt := 0x7FFFFFFFFFFFFFFF#64, raw := 0#64, phys := 0#64 }

/-- A block with `overscaledSlot` alone, eight bytes of all ones and an identifier that is too great. The slot fits a
message of 8 bytes and not one of 7. -/
def proneToFault (blen : BitVec 7) : State :=
  { buf := (List.range 8).map fun k => (k, 0xFF#8)
    blen := blen
    msgid := 0x800#32
    fsr := 0#64
    sig := [overscaledSlot]
    input := []
    output := []
    draws := 0 }

/-- A mark of the table: a command, a cause it raises, and the message length and the index with which it does. -/
structure Mark where
  command : Instr
  cause : Cause
  blen : BitVec 7 := 8#7
  idx : BitVec 9 := 0#9

/-- All marks (R132), in the order of the opcodes. -/
def marks : List Mark :=
  [{ command := .setd 64#9 1#7 .intel 0#64, cause := .index },
   { command := .setd 0#9 0#7 .intel 0#64, cause := .operand },
   { command := .getd 64#9 1#7 .intel, cause := .index },
   { command := .getd 0#9 0#7 .intel, cause := .operand },
   { command := .wrb 8#9 0#64, cause := .index, idx := 8#9 },
   { command := .wrb 0#9 256#64, cause := .byte },
   { command := .rdb 8#9, cause := .index, idx := 8#9 },
   { command := .wrcr 4#9 0#64, cause := .operand, idx := 4#9 },
   { command := .rdcr 4#9, cause := .operand, idx := 4#9 },
   { command := .sigdef 1#9 0#64, cause := .lookup, idx := 1#9 },
   { command := .sigdef 0#9 0#64, cause := .operand },
   { command := .sigwr 5#4 0#9 0x8000000000000000#64, cause := .range },
   { command := .sigwr 5#4 1#9 0#64, cause := .lookup, idx := 1#9 },
   { command := .sigwr 0#4 0#9 0#64, cause := .operand },
   { command := .sigwr 1#4 0#9 0x7FF0000000000000#64, cause := .numeric },
   { command := .sigrd 0#4 1#9, cause := .lookup, idx := 1#9 },
   { command := .sigrd 8#4 0#9, cause := .operand },
   { command := .setv 0#9 0x8000000000000000#64, cause := .range },
   { command := .setv 1#9 0#64, cause := .lookup, idx := 1#9 },
   { command := .setv 0#9 0x7FFFFFFFFFFFFFFF#64, cause := .numeric },
   { command := .setp 0#9 0xFE70000000000000#64, cause := .range },
   { command := .setp 1#9 0#64, cause := .lookup, idx := 1#9 },
   { command := .setp 0#9 0x7FF0000000000000#64, cause := .numeric },
   { command := .upds, cause := .index, blen := 7#7 },
   { command := .updr, cause := .index, blen := 7#7 },
   { command := .updr, cause := .numeric },
   { command := .chkm false, cause := .id },
   { command := .rstd, cause := .numeric }]

/-- The state in which the mark is shown. -/
def Mark.state (m : Mark) : State := proneToFault m.blen

/-! ## Every mark is raised -/

/-- The last response of an outcome. -/
def lastResponse : Host.Outcome State Fault Refusal → Option Response
  | .next t => t.output.getLast?
  | _ => none

/-- The last response after a command is the one the command adds. -/
theorem exec_output_of_lastResponse {i : Instr} {s : State} {r : Response} (h : lastResponse (exec i s) = some r) :
    ∃ t, exec i s = .next t ∧ t.output = s.output ++ [r] := by
  obtain ⟨t, r', ht, _, hout⟩ := exec_answers i s
  rw [ht, lastResponse, hout, List.getLast?_concat] at h
  exact ⟨t, ht, Option.some.inj h ▸ hout⟩

theorem marks_inv : ∀ m ∈ marks, m.state.inv := by decide +kernel

/-- Each mark run in its state. -/
theorem marks_raised :
    ∀ m ∈ marks, lastResponse (exec m.command m.state) = some (faultResponse m.command.opcode m.cause m.idx) := by
  decide +kernel

/-! ## Every mark is listed -/

/-- What a command can raise does not depend on its operands. -/
theorem canRaise_readFrom (i : Instr) (w : CmdWord) (d : Data) : canRaise (i.readFrom w d) = canRaise i := by
  cases i <;> rfl

theorem Instr.opcode_readFrom (i : Instr) (w : CmdWord) (d : Data) : (i.readFrom w d).opcode = i.opcode := by
  cases i <;> rfl

/-- With the operands of the listed commands in place of its own, every command is listed. -/
theorem readFrom_mem_rowCommands (i : Instr) : i.readFrom 0x00010000#32 0#64 ∈ rowCommands := by
  cases i <;> simp only [Instr.readFrom] <;> decide

theorem rowCommands_marked (c : Cause) :
    ∀ i ∈ rowCommands, canRaise i c = true → ∃ m ∈ marks, m.command.opcode = i.opcode ∧ m.cause = c := by
  cases c <;> decide

theorem exists_mark {i : Instr} {c : Cause} (h : canRaise i c = true) :
    ∃ m ∈ marks, m.command.opcode = i.opcode ∧ m.cause = c := by
  have hmark := rowCommands_marked c _ (readFrom_mem_rowCommands i)
  rw [canRaise_readFrom, Instr.opcode_readFrom] at hmark
  exact hmark h

/-- Settles O53: the commands fault by the table, and each of its marks is listed and raised. -/
theorem causesEachCommandCanRaise : Obligations.CausesEachCommandCanRaise := by
  refine ⟨fun i s t c idx ht hout => canRaise_of_output ht hout, fun i c h => ?_⟩
  obtain ⟨m, hm, hop, rfl⟩ := exists_mark h
  obtain ⟨t, ht, hout⟩ := exec_output_of_lastResponse (marks_raised m hm)
  exact ⟨m.command, m.state, t, m.idx, hop, marks_inv m hm, ht, hout⟩

end Sys2Proof.Machine
end

section
/-!
PROOFS. The response to every command presented and what it leaves in `FSR` (R134), and `FSR.CAUSE` over a run (R140).
-/

namespace Sys2Proof.Machine

open Relation (ReflTransGen)

/-! ## One command -/

/-- The word of `WRCR` of `FSR`, the one word that clears the record (R139). -/
abbrev clearWord : CmdWord := 0x18000002#32

theorem decode_clearWord (d : Data) : decode clearWord d = .ok (.wrcr 2#9 d) := decode_encodeWord (.wrcr 2#9 d) d

theorem encodeWord_wrcr_eq_clearWord_iff (cr : BitVec 9) (v : Data) : encodeWord (.wrcr cr v) = clearWord ↔ cr = 2#9 := by
  refine ⟨fun h => ?_, fun h => h ▸ rfl⟩
  have hdecode := decode_encodeWord (.wrcr cr v) 0#64
  rw [h, decode_clearWord] at hdecode
  cases hdecode
  rfl

/-- Only `WRCR` writes `FSR` before its pseudocode ends. -/
theorem writes_keep_fsr {i : Instr} (hi : i.opcode ≠ opWrcr) {s t : State} (h : ReflTransGen (Write i) s t) :
    t.fsr = s.fsr := by
  induction h with
  | refl => rfl
  | tail _ hw ih =>
    cases hw with
    | clear hclear => exact absurd hclear hi
    | _ => exact ih

/-- No command raises `IllegalCommand` (R132). -/
theorem canRaise_illegal (i : Instr) : canRaise i .illegal = false := by
  cases i <;> rfl

/-- What the command presented as `w` and `d` adds to the output and leaves in `FSR` (R134). -/
inductive Recorded (w : CmdWord) (d : Data) (s t : State) : Prop
  | success (v : Data) (hout : t.output = s.output ++ [okResponse v])
      (hfsr : t.fsr = if w = clearWord then 0#64 else s.fsr)
  | fault (c : Cause) (idx : BitVec 9) (hillegal : c = .illegal ↔ ∀ i, decode w d ≠ .ok i)
      (hidx : c = .illegal → idx = 0#9) (hout : t.output = s.output ++ [faultResponse (wordOp w) c idx])
      (hfsr : t.fsr = recordFault s.fsr (faultInfo (wordOp w) c idx))

theorem wordOp_encodeWord (i : Instr) : wordOp (encodeWord i) = i.opcode := by
  obtain ⟨_, hop⟩ := encodesItsRow i
  exact hop

section
variable {w : CmdWord} {d : Data} {i : Instr} {s t : State} (hd : decode w d = .ok i) (ht : exec i s = .next t)
include hd ht

/-- A fault of a command that was decoded is no `IllegalCommand`. -/
theorem recorded_of_fault {c : Cause} {idx : BitVec 9} (hout : t.output = s.output ++ [faultResponse i.opcode c idx])
    (hfsr : t.fsr = recordFault s.fsr (faultInfo i.opcode c idx)) : Recorded w d s t := by
  have hlegal : c ≠ .illegal := by
    rintro rfl
    cases (canRaise_illegal i).symm.trans (canRaise_of_output ht hout)
  obtain rfl := encodeWord_of_decode_eq_ok hd
  rw [← wordOp_encodeWord i] at hout hfsr
  exact .fault c idx ⟨fun h => absurd h hlegal, fun h => absurd hd (h i)⟩ (fun h => absurd h hlegal) hout hfsr

/-- A command that is no `WRCR` writes nothing to `FSR` before its pseudocode ends. -/
theorem recorded_of_ne_wrcr (hi : i.opcode ≠ opWrcr) : Recorded w d s t := by
  obtain ⟨e, he, hwrites⟩ := exec_writes i s
  have hfsr := writes_keep_fsr hi hwrites
  have hout := exec_output he ht
  have hclear : w ≠ clearWord := by
    rintro rfl
    cases (decode_clearWord d).symm.trans hd
    exact hi rfl
  cases e with
  | respond v u =>
    obtain rfl : t = u.emit (okResponse v) := Host.Outcome.next.inj (ht.symm.trans he)
    exact .success v hout (hfsr.trans (if_neg hclear).symm)
  | raise c idx u =>
    obtain rfl : t = u.takeFault i.opcode c idx := Host.Outcome.next.inj (ht.symm.trans he)
    exact recorded_of_fault hd ht hout (congrArg (recordFault · (faultInfo i.opcode c idx)) hfsr)

end

/-- `WRCR` writes `FSR` by its number 2 alone. -/
theorem recorded_of_wrcr {w : CmdWord} {d : Data} {cr : BitVec 9} {v : Data} {s t : State}
    (hd : decode w d = .ok (.wrcr cr v)) (ht : exec (.wrcr cr v) s = .next t) : Recorded w d s t := by
  have hclear : w = clearWord ↔ cr = 2#9 :=
    encodeWord_of_decode_eq_ok hd ▸ encodeWord_wrcr_eq_clearWord_iff cr v
  have hkeep (hcr : cr ≠ 2#9) : s.fsr = if w = clearWord then 0#64 else s.fsr := (if_neg (mt hclear.mp hcr)).symm
  obtain rfl := Host.Outcome.next.inj ((wrcrWritesItsRegister s cr v).symm.trans ht)
  split_ifs with hblen hmsgid hfsr
  · obtain ⟨rfl, _⟩ := hblen
    exact .success 0#64 rfl (hkeep (by decide))
  · obtain ⟨rfl, _⟩ := hmsgid
    exact .success 0#64 rfl (hkeep (by decide))
  · exact .success 0#64 rfl (if_pos (hclear.mpr hfsr)).symm
  · refine recorded_of_fault hd (c := .operand) (idx := cr) ?_ rfl rfl
    simpa only [hblen, hmsgid, hfsr, if_false] using ht

theorem recorded_of_exec {w : CmdWord} {d : Data} {i : Instr} {s t : State} (hd : decode w d = .ok i)
    (ht : exec i s = .next t) : Recorded w d s t := by
  cases i with
  | wrcr cr v => exact recorded_of_wrcr hd ht
  | _ => exact recorded_of_ne_wrcr hd ht (by simp only [Instr.opcode]; decide)

/-- A step with a command presented takes it and answers it, whether the word spells a command or not. -/
theorem step_recorded {s : State} {w : CmdWord} {d : Data} {rest : List HostInput}
    (hs : s.input = .command w d :: rest) : ∃ t, step s = .next t ∧ t.input = rest ∧ Recorded w d s t := by
  cases hd : decode w d with
  | ok i =>
    obtain ⟨t, _, ht, hinput, _⟩ := exec_answers i (s.setInput rest)
    have hrecorded := recorded_of_exec hd ht
    refine ⟨t, (step_command s w d rest i hs hd).trans ht, hinput, ?_⟩
    cases hrecorded with
    | success v hout hfsr => exact .success v hout hfsr
    | fault c idx hillegal hidx hout hfsr => exact .fault c idx hillegal hidx hout hfsr
  | error e =>
    refine ⟨_, step_illegal s w d rest e hs hd, rfl, .fault .illegal 0#9 ?_ (fun _ => rfl) rfl rfl⟩
    simp [hd]

/-- Settles O52: `Recorded`, with the response written out. -/
theorem responseAndRecordOfEveryCommand : Obligations.ResponseAndRecordOfEveryCommand := by
  intro s w d rest hs
  obtain ⟨t, hstep, hinput, hrecorded⟩ := step_recorded hs
  cases hrecorded with
  | success v hout hfsr => exact ⟨t, _, hstep, hinput, hout, .inl ⟨rfl, rfl, hfsr⟩⟩
  | fault c idx hillegal hidx hout hfsr =>
    have hcode : c.code = BitVec.ofNat 4 (causeNumber c) := by
      rw [← c.code_toNat, BitVec.ofNat_toNat, BitVec.setWidth_eq]
    have hinfo := faultInfo_eq_ofNat (wordOp w) c idx
    rw [wordOp_toNat] at hinfo
    exact ⟨t, _, hstep, hinput, hout, .inr ⟨rfl, c, idx, hillegal, hidx, hcode, hinfo, hfsr⟩⟩

/-! ## The run -/

/-- After a fault a fault is recorded, this one or an earlier one. -/
theorem fsrCause_recordFault_ne_zero (f : BitVec 64) (op : BitVec 8) (c : Cause) (idx : BitVec 9) :
    fsrCause (recordFault f (faultInfo op c idx)) ≠ 0#4 := by
  unfold recordFault
  split
  next =>
    rw [fsrCause_faultInfo]
    cases c <;> decide
  next hrecorded => rwa [fsrCause_or_multi]

/-- A command that does not clear the record leaves none exactly if there was none and it succeeds. -/
theorem Recorded.noFaultRecorded_iff {w : CmdWord} {d : Data} {s t : State} (h : Recorded w d s t) (hw : w ≠ clearWord) :
    ∃ r, t.output = s.output ++ [r] ∧ (t.noFaultRecorded ↔ s.noFaultRecorded ∧ r.fault = false) := by
  cases h with
  | success v hout hfsr =>
    rw [if_neg hw] at hfsr
    refine ⟨_, hout, ?_⟩
    simp [State.noFaultRecorded, hfsr, okResponse]
  | fault c idx _ _ hout hfsr =>
    refine ⟨_, hout, ?_⟩
    simp [State.noFaultRecorded, hfsr, fsrCause_recordFault_ne_zero, faultResponse]

/-- Over a run of commands that do not clear the record, the record is empty at the end exactly if it was so at the
start and every response is a success. -/
theorem run_noFaultRecorded_iff {cs : List (CmdWord × Data)} {s t : State} (hs : s.input = presented cs)
    (hcs : ∀ c ∈ cs, c.1 ≠ clearWord) (ht : Host.Core.run core cs.length s = .next t) :
    ∃ rs, t.output = s.output ++ rs ∧ (t.noFaultRecorded ↔ s.noFaultRecorded ∧ ∀ r ∈ rs, r.fault = false) := by
  induction cs generalizing s with
  | nil =>
    obtain rfl : s = t := Host.Outcome.next.inj ht
    exact ⟨[], by simp, by simp⟩
  | cons c cs ih =>
    obtain ⟨hc, hrest⟩ := List.forall_mem_cons.mp hcs
    obtain ⟨u, hstep, hinput, hrecorded⟩ := step_recorded hs
    obtain ⟨r, hr, hfirst⟩ := hrecorded.noFaultRecorded_iff hc
    obtain ⟨rs, hrs, hothers⟩ := ih hinput hrest ((run_succ hstep cs.length).symm.trans ht)
    refine ⟨r :: rs, by rw [hrs, hr, List.append_assoc, List.singleton_append], ?_⟩
    rw [hothers, hfirst, List.forall_mem_cons, and_assoc]

/-- Settles O15: no word of the run is that of `WRCR` of `FSR`. -/
theorem causeZeroIffRunFaultFree : Obligations.CauseZeroIffRunFaultFree := by
  intro s t cs hs hstart hcs ht
  have hclear (c : CmdWord × Data) (hc : c ∈ cs) : c.1 ≠ clearWord :=
    fun h => hcs c hc c.2 (h ▸ decode_clearWord c.2)
  obtain ⟨rs, hrs, hiff⟩ := run_noFaultRecorded_iff hs hclear ht
  rw [hiff, hrs, List.drop_left]
  exact and_iff_right hstart

end Sys2Proof.Machine
end
